-- ==== Sys2Proof/Word.lean ====
section
/-! DEFINITION. The word types of the block: every register and every pin mask is a 32-bit unsigned word, bit `i` standing
for pin `i` (spec R12, R19); the memory array holds bytes of 8 bits (R43). -/

namespace Sys2Proof

/-- A register, a pin mask, a data word or a bus address (R12, R67). -/
abbrev Word := BitVec 32

/-- One byte of the memory array, or one byte of a transaction laid out as bytes (R43, R53). -/
abbrev Byte := BitVec 8

end Sys2Proof
end

