-- ==== Sys2Proof/Config.lean ====
section
/-! DEFINITION. The record of compile-time parameters of one machine (spec R10 to R17), the conditions under which a
configuration is admitted (R18, R49), and the free values. -/

namespace Sys2Proof

/-- The parameters of one machine (R10 to R17): "a model takes the record of all of them as one configuration argument". -/
structure Config where
  /-- `PIN_COUNT` (R10): pins `0 .. PIN_COUNT-1`. -/
  pinCount : Nat
  /-- `ADDR_START` (R11): the lowest address pin. -/
  addrStart : Nat
  /-- `ADDR_BITS` (R11): the address-bus width. -/
  addrBits : Nat
  /-- `DATA_START` (R11): the lowest data pin. -/
  dataStart : Nat
  /-- `DATA_BITS` (R11): the data-bus width. -/
  dataBits : Nat
  /-- `CS_PIN` (R11). -/
  csPin : Nat
  /-- `STATUS_PIN` (R11). -/
  statusPin : Nat
  /-- `MEM_LEN`, written `L` (R13). -/
  memLen : Nat
  /-- `IMAGE` (R14), possibly empty. -/
  image : List Byte
  /-- `FILL_BYTE` (R14). -/
  fillByte : Byte
  /-- `PULLDOWN_PINS` (R15): the members of the set, in any order and with or without repeats. -/
  pulldownPins : List Nat
  /-- `SIO_BASE` (R16). -/
  sioBase : Word
  /-- `PADS_BASE` (R16). -/
  padsBase : Word
  /-- `IOCTRL_BASE` (R16). -/
  ioctrlBase : Word
  /-- `F_SIO` (R17): routed to the simple I/O function. -/
  fSio : BitVec 5
  /-- `F_NULL` (R17): routed to nothing. -/
  fNull : BitVec 5
  deriving DecidableEq, Repr

/-- Pin `p` lies outside the range of `width` pins from `start`. -/
abbrev Config.OutsideRange (p start width : Nat) : Prop := p < start ∨ start + width ≤ p

/-- Two windows of the register space, given by base and length in bytes, share no address (R49). -/
abbrev Config.Disjoint (a la b lb : Nat) : Prop := a + la ≤ b ∨ b + lb ≤ a

/-- The conditions of R18 on the geometry. -/
abbrev Config.GeometryOk (c : Config) : Prop :=
  1 ≤ c.pinCount ∧ c.pinCount ≤ 32 ∧ 1 ≤ c.dataBits ∧ c.dataBits ≤ 8 ∧ 1 ≤ c.memLen ∧ c.fSio ≠ c.fNull ∧
  Config.OutsideRange c.csPin c.addrStart c.addrBits ∧ Config.OutsideRange c.csPin c.dataStart c.dataBits ∧
  Config.OutsideRange c.statusPin c.addrStart c.addrBits ∧ Config.OutsideRange c.statusPin c.dataStart c.dataBits ∧
  c.csPin ≠ c.statusPin

/-- The conditions of R49 on the three windows: bases are multiples of 4 and the windows are pairwise disjoint. That each
window lies inside the 32-bit register space (R47) is DEDUCED, log 13; safe: the configuration is refused. -/
abbrev Config.WindowsOk (c : Config) : Prop :=
  c.sioBase.toNat % 4 = 0 ∧ c.padsBase.toNat % 4 = 0 ∧ c.ioctrlBase.toNat % 4 = 0 ∧
  c.sioBase.toNat + 0x30 ≤ 2 ^ 32 ∧ c.padsBase.toNat + (4 + 4 * c.pinCount) ≤ 2 ^ 32 ∧
  c.ioctrlBase.toNat + 8 * c.pinCount ≤ 2 ^ 32 ∧
  Config.Disjoint c.sioBase.toNat 0x30 c.padsBase.toNat (4 + 4 * c.pinCount) ∧
  Config.Disjoint c.sioBase.toNat 0x30 c.ioctrlBase.toNat (8 * c.pinCount) ∧
  Config.Disjoint c.padsBase.toNat (4 + 4 * c.pinCount) c.ioctrlBase.toNat (8 * c.pinCount)

/-- A configuration that may run; any other is refused, not run (R18, R49, R135 `CONFIG`). Pins out of range and an
address/data overlap are not refused here: the hardware detects them itself (R129, R130). -/
abbrev Config.Admitted (c : Config) : Prop := c.GeometryOk ∧ c.WindowsOk

/-- `FILL_BYTE` of the default configuration: the spec leaves the value open (R14, N3), so it has no body (log 2). -/
opaque Config.openFillByte : Byte

/-- The configuration of State.reset. The counts, bases and function numbers are the spec's defaults (R10, R15, R16, R17);
the geometry is the one the spec's own examples use (42_decoder_mux.md, 95_test_vectors.md P2), `MEM_LEN` is
`2^ADDR_BITS` (R13) and the image is empty (R14). DESIGN CHOICE, log 1; unsafe for a claim about State.reset's geometry
only: statements quantify over every configuration. -/
def Config.default : Config where
  pinCount := 30
  addrStart := 2
  addrBits := 2
  dataStart := 15
  dataBits := 8
  csPin := 26
  statusPin := 25
  memLen := 4
  image := []
  fillByte := Config.openFillByte
  pulldownPins := []
  sioBase := 0xD0000000
  padsBase := 0x4001C000
  ioctrlBase := 0x40014000
  fSio := 5
  fNull := 31

/-- Free value (R39, U9): bit `p` says whether a pin `p` that is routed to a peripheral drives, at evaluation number `n`.
No body: every statement holds for every value (log 5). -/
opaque Config.freeDrive (n : Nat) : Word

/-- Free value (R39, U9): bit `p` is the level a pin `p` that is routed to a peripheral drives, at evaluation `n` (log 5). -/
opaque Config.freeValue (n : Nat) : Word

/-- Free value (R40, U7, U8): bit `p` is the level of pin `p` at evaluation `n` where the electrical result is unknown: under
contention, with no pull, or with both pulls (log 5). -/
opaque Config.freeLevel (n : Nat) : Word

/-- Free value (R30): `addr_mask` as read at evaluation `n` before `I_MASKS` has given it a value (log 6). -/
opaque Config.freeAddrMask (n : Nat) : Word

/-- Free value (R30): `data_mask` before `I_MASKS` (log 6). -/
opaque Config.freeDataMask (n : Nat) : Word

/-- Free value (R30): `cs_mask` before `I_MASKS` (log 6). -/
opaque Config.freeCsMask (n : Nat) : Word

/-- Free value (R30): `status_mask` before `I_MASKS` (log 6). -/
opaque Config.freeStatusMask (n : Nat) : Word

/-- Free value (R20): what `a mod 0` is at evaluation `n`, at place `k` of its expression; the spec gives `mod` for `b >= 1` only
(log 32). -/
opaque Config.freeMod (n k : Nat) : Word

/-- Free value (R76): what a name is bound to, at evaluation `n`, by a line that binds it to an operation without a result (log 34). -/
opaque Config.freeBinding (n : Nat) : Word

end Sys2Proof
end

