-- ==== Sys2Proof/Syntax.lean ====
section
/-! DEFINITION. The instructions: one constructor for each row of spec/opcode_table.json. Fifteen register transactions (R71),
the Pin Bank's operations and `mask` (R76, R92 to R105), and the Sequencer's fourteen phases (R27, R108 to R122, R131). -/

namespace Sys2Proof

/-- A register transaction, a Pin Bank operation or a Sequencer phase. -/
inductive Instr where
  /-- `RD_IN` (R77). -/
  | rdIn
  /-- `RD_OUT` (R78). -/
  | rdOut
  /-- `WR_OUT` (R79). -/
  | wrOut (d : Word)
  /-- `WR_OUT_SET` (R80). -/
  | wrOutSet (d : Word)
  /-- `WR_OUT_CLR` (R81). -/
  | wrOutClr (d : Word)
  /-- `WR_OUT_XOR` (R82). -/
  | wrOutXor (d : Word)
  /-- `RD_OE` (R83). -/
  | rdOe
  /-- `WR_OE` (R84). -/
  | wrOe (d : Word)
  /-- `WR_OE_SET` (R85). -/
  | wrOeSet (d : Word)
  /-- `WR_OE_CLR` (R86). -/
  | wrOeClr (d : Word)
  /-- `WR_OE_XOR` (R87). -/
  | wrOeXor (d : Word)
  /-- `RD_PAD(p)` (R88). -/
  | rdPad (p : Nat)
  /-- `WR_PAD(p)` (R89). -/
  | wrPad (p : Nat) (d : Word)
  /-- `RD_CTRL(p)` (R90). -/
  | rdCtrl (p : Nat)
  /-- `WR_CTRL(p)` (R91). -/
  | wrCtrl (p : Nat) (d : Word)
  /-- `configure p` (R95). -/
  | configure (p : Nat)
  /-- `route_to_peripheral p, f` (R96). -/
  | routeToPeripheral (p f : Nat)
  /-- `enable_pulldown p` (R97). -/
  | enablePulldown (p : Nat)
  /-- `set m` (R98). -/
  | set (m : Word)
  /-- `clear m` (R99). -/
  | clear (m : Word)
  /-- `put_masked m, v` (R100). -/
  | putMasked (m v : Word)
  /-- `set_direction_out_masked m` (R102). -/
  | setDirectionOutMasked (m : Word)
  /-- `set_direction_disabled_masked m` (R103). -/
  | setDirectionDisabledMasked (m : Word)
  /-- `get p` (R104). -/
  | get (p : Nat)
  /-- `get_masked m` (R105). -/
  | getMasked (m : Word)
  /-- `mask(s, n)` (R92). -/
  | mask (s n : Nat)
  /-- Phase `I_CHECK` (R108). -/
  | iCheck
  /-- Phase `I_CFG(k, j)` (R109). -/
  | iCfg (k : Nat) (j : Fin 4)
  /-- Phase `I_PULL(k, j)` (R110). -/
  | iPull (k : Nat) (j : Fin 2)
  /-- Phase `I_MASKS` (R111). -/
  | iMasks
  /-- Phase `I_OVERLAP` (R112). -/
  | iOverlap
  /-- Phase `I_FLOAT` (R113). -/
  | iFloat
  /-- Phase `I_FILL` (R114). -/
  | iFill
  /-- Phase `I_STATUS(j)` (R115). -/
  | iStatus (j : Fin 6)
  /-- Phase `L_CS` (R116). -/
  | lCs
  /-- Phase `L_DIR` (R118). -/
  | lDir
  /-- Phase `L_ADDR` (R119). -/
  | lAddr
  /-- Phase `L_RDOUT` (R121). -/
  | lRdout
  /-- Phase `L_XOR` (R122). -/
  | lXor
  /-- Phase `HALTED` (R131). -/
  | halted
  deriving DecidableEq, Repr

end Sys2Proof
end

