-- ==== Sys2Proof/WellFormed.lean ====
section
/-! DEFINITION. When an instruction is well formed for a configuration: its pins exist, its masks name only existing pins, its
function number and its range are legal, its reserved data bits are 0, its phase indices are in the phase's table. -/

namespace Sys2Proof

/-- Pin `p` exists and has a bit in a mask (R10, R12). -/
abbrev Config.PinOk (c : Config) (p : Nat) : Prop := p < c.pinCount ∧ p < 32

/-- A mask operand names only existing pins (R94). -/
abbrev Config.MaskOk (c : Config) (m : Word) : Prop := m.toNat < 2 ^ c.pinCount

/-- The number of entries of `CFG_LIST` (R107). -/
def Config.cfgCount (c : Config) : Nat := c.addrBits + c.dataBits + 1

/-- Well-formedness of an instruction, one check per operand the spec restricts. -/
def Instr.WellFormed (c : Config) : Instr → Bool
  | .rdIn => true
  | .rdOut => true
  | .wrOut _ => true
  | .wrOutSet _ => true
  | .wrOutClr _ => true
  | .wrOutXor _ => true
  | .rdOe => true
  | .wrOe _ => true
  | .wrOeSet _ => true
  | .wrOeClr _ => true
  | .wrOeXor _ => true
  | .rdPad p => decide (c.PinOk p)                                        -- R88
  | .wrPad p d => decide (c.PinOk p ∧ d.toNat < 2 ^ 8)                    -- R89
  | .rdCtrl p => decide (c.PinOk p)                                       -- R90
  | .wrCtrl p d => decide (c.PinOk p ∧ d.toNat < 2 ^ 5)                   -- R91
  | .configure p => decide (c.PinOk p)                                    -- R94
  | .routeToPeripheral p f => decide (c.PinOk p ∧ f ≤ 31 ∧ f ≠ c.fSio.toNat)  -- R96
  | .enablePulldown p => decide (c.PinOk p)
  | .set m => decide (c.MaskOk m)
  | .clear m => decide (c.MaskOk m)
  | .putMasked m _ => decide (c.MaskOk m)
  | .setDirectionOutMasked m => decide (c.MaskOk m)
  | .setDirectionDisabledMasked m => decide (c.MaskOk m)
  | .get p => decide (c.PinOk p)
  | .getMasked m => decide (c.MaskOk m)
  | .mask s n => decide (s + n ≤ 32)                                      -- R92
  | .iCheck => true
  | .iCfg k _ => decide (k < c.cfgCount)                                  -- R109
  | .iPull k _ => decide (k < c.pulldownPins.dedup.length)                -- R110
  | .iMasks => true
  | .iOverlap => true
  | .iFloat => true
  | .iFill => true
  | .iStatus _ => true
  | .lCs => true
  | .lDir => true
  | .lAddr => true
  | .lRdout => true
  | .lXor => true
  | .halted => true

end Sys2Proof
end

