-- ==== Sys2Proof/Decode.lean ====
section
/-! DEFINITION. The decoder of transactions (R67, R68, R72), total on every request and every byte string, rejecting by name;
after it the encoder, written from the same table (R71); and the host's numbering of a transaction's bits. -/

namespace Sys2Proof

/-- Why the decoder gives a request no operation (R72). -/
inductive Reject where
  /-- `BAD_ACCESS`: an address that is no multiple of 4, or a width other than 32 bits (R55). -/
  | badAccess
  /-- `WRONG_DIRECTION`: a read of a write-only alias or a write of `IN` (R51). -/
  | wrongDirection
  /-- `UNMAPPED`: any other address (R50). -/
  | unmapped
  deriving DecidableEq, Repr

/-- One request of the bus master (R67): its width in bits, `W`, `A` and `D`. A read carries no data; its `data` is ignored. -/
structure Request where
  width : Nat
  write : Bool
  addr : Word
  data : Word
  deriving DecidableEq, Repr

/-- The decode key `K = {W, A}` (R67). -/
def Request.key (r : Request) : BitVec 33 := BitVec.ofBool r.write ++ r.addr

/-- The single-cycle I/O registers (R48, R68): the offset of each from `SIO_BASE`, what a read of it is, and what a write of `d` is;
none where the register does not go in that direction (R51). -/
def sioRows (d : Word) : List (Nat × Option Instr × Option Instr) :=
  [(0x004, some .rdIn, none),
   (0x010, some .rdOut, some (.wrOut d)),
   (0x014, none, some (.wrOutSet d)),
   (0x018, none, some (.wrOutClr d)),
   (0x01C, none, some (.wrOutXor d)),
   (0x020, some .rdOe, some (.wrOe d)),
   (0x024, none, some (.wrOeSet d)),
   (0x028, none, some (.wrOeClr d)),
   (0x02C, none, some (.wrOeXor d))]

/-- The per-pin registers (R48, R68): the pad words, then the function-select words. -/
def decodePins (c : Config) (w : Bool) (a : Nat) (d : Word) : Except Reject Instr :=
  if c.padsBase.toNat + 0x004 ≤ a ∧ a < c.padsBase.toNat + 0x004 + 4 * c.pinCount then
    let p := (a - c.padsBase.toNat - 0x004) / 4
    .ok (if w then .wrPad p d else .rdPad p)
  else if c.ioctrlBase.toNat ≤ a ∧ (a - c.ioctrlBase.toNat) % 8 = 4 ∧ a - c.ioctrlBase.toNat < 8 * c.pinCount then
    let p := (a - c.ioctrlBase.toNat - 0x004) / 8
    .ok (if w then .wrCtrl p d else .rdCtrl p)
  else .error .unmapped

/-- The decoder's address map (R68); `a` is the byte address, `w` the direction, `d` the write data. -/
def decodeAddr (c : Config) (w : Bool) (a : Nat) (d : Word) : Except Reject Instr :=
  match (sioRows d).find? (fun row => a == c.sioBase.toNat + row.1) with
  | some row =>
    match if w then row.2.2 else row.2.1 with
    | some i => .ok i
    | none => .error .wrongDirection
  | none => decodePins c w a d

/-- The decoder (R68): width and alignment first (R55), then the address map. -/
def decodeRequest (c : Config) (r : Request) : Except Reject Instr :=
  if r.width ≠ 32 ∨ r.addr.toNat % 4 ≠ 0 then .error .badAccess
  else decodeAddr c r.write r.addr.toNat r.data

/-- A transaction as bytes: the key `K` in five bytes, lowest first (bits 39 to 33 zero), then `D` in four, lowest first. The
spec gives no byte layout but the byte order (R53); DESIGN CHOICE, log 11. -/
def Request.toBytes (r : Request) : List Byte :=
  [r.addr.extractLsb' 0 8, r.addr.extractLsb' 8 8, r.addr.extractLsb' 16 8, r.addr.extractLsb' 24 8,
   BitVec.zeroExtend 8 (BitVec.ofBool r.write),
   r.data.extractLsb' 0 8, r.data.extractLsb' 8 8, r.data.extractLsb' 16 8, r.data.extractLsb' 24 8]

/-- The request a byte string stands for. A string that is not one transaction in the one format of R67 (nine bytes, the unused
bits of the fifth zero) moves no 32-bit word: it stands for a request of width 0, which the decoder rejects (log 12). -/
def Request.ofBytes : List Byte → Request
  | [a0, a1, a2, a3, w, d0, d1, d2, d3] =>
    { width := if w = 0 ∨ w = 1 then 32 else 0, write := decide (w = 1),
      addr := a3 ++ a2 ++ a1 ++ a0, data := d3 ++ d2 ++ d1 ++ d0 }
  | _ => { width := 0, write := false, addr := 0, data := 0 }

/-- The decoder on any bytes. -/
def decode (c : Config) (bytes : List Byte) : Except Reject Instr := decodeRequest c (Request.ofBytes bytes)

/-- The address of the `i`-th word of a window. -/
def wordAddr (base : Word) (offset : Nat) : Word := base + BitVec.ofNat 32 offset

/-- A read of the register at an address (R67). -/
def readRequest (a : Word) : Request := { width := 32, write := false, addr := a, data := 0 }

/-- A write of the register at an address (R67). -/
def writeRequest (a d : Word) : Request := { width := 32, write := true, addr := a, data := d }

/-- The encoder, from the table of R71. Only transactions have an encoding: "a pseudo-instruction has no encoding of its own"
(R76), and a Sequencer phase is read from no memory (R65). -/
def encodeRequest (c : Config) : Instr → Option Request
  | .rdIn => some (readRequest (wordAddr c.sioBase 0x004))
  | .rdOut => some (readRequest (wordAddr c.sioBase 0x010))
  | .wrOut d => some (writeRequest (wordAddr c.sioBase 0x010) d)
  | .wrOutSet d => some (writeRequest (wordAddr c.sioBase 0x014) d)
  | .wrOutClr d => some (writeRequest (wordAddr c.sioBase 0x018) d)
  | .wrOutXor d => some (writeRequest (wordAddr c.sioBase 0x01C) d)
  | .rdOe => some (readRequest (wordAddr c.sioBase 0x020))
  | .wrOe d => some (writeRequest (wordAddr c.sioBase 0x020) d)
  | .wrOeSet d => some (writeRequest (wordAddr c.sioBase 0x024) d)
  | .wrOeClr d => some (writeRequest (wordAddr c.sioBase 0x028) d)
  | .wrOeXor d => some (writeRequest (wordAddr c.sioBase 0x02C) d)
  | .rdPad p => some (readRequest (wordAddr c.padsBase (0x004 + 4 * p)))
  | .wrPad p d => some (writeRequest (wordAddr c.padsBase (0x004 + 4 * p)) d)
  | .rdCtrl p => some (readRequest (wordAddr c.ioctrlBase (0x004 + 8 * p)))
  | .wrCtrl p d => some (writeRequest (wordAddr c.ioctrlBase (0x004 + 8 * p)) d)
  | .configure _ => none
  | .routeToPeripheral _ _ => none
  | .enablePulldown _ => none
  | .set _ => none
  | .clear _ => none
  | .putMasked _ _ => none
  | .setDirectionOutMasked _ => none
  | .setDirectionDisabledMasked _ => none
  | .get _ => none
  | .getMasked _ => none
  | .mask _ _ => none
  | .iCheck => none
  | .iCfg _ _ => none
  | .iPull _ _ => none
  | .iMasks => none
  | .iOverlap => none
  | .iFloat => none
  | .iFill => none
  | .iStatus _ => none
  | .lCs => none
  | .lDir => none
  | .lAddr => none
  | .lRdout => none
  | .lXor => none
  | .halted => none

/-- The encoder to bytes. -/
def encode (c : Config) (i : Instr) : Option (List Byte) := (encodeRequest c i).map Request.toBytes

/-- The nine bytes of a transaction whose bits are `w`, numbered as spec/opcode_table.json numbers them. -/
def tableBytes (w : Nat) : List Byte := (List.range 9).map (fun i => BitVec.ofNat 8 (w / 2 ^ (8 * i)))

/-- The instruction the decoder reads from a transaction whose bits are `w`, at the default bases (R71); the bits above
`nbits` are 0. -/
def decodeTableWord (nbits w : Nat) : Option Instr :=
  if nbits ≤ 72 ∧ w < 2 ^ nbits then
    match decode Config.default (tableBytes w) with
    | .ok i => some i
    | .error _ => none
  else none

end Sys2Proof
end

