-- ==== Sys2Proof/Machine/State.lean ====
section
/-! DEFINITION. The state of the machine as plain data (spec R24 to R46, R67, R75), the faults and refusals, and the state after
reset (R46, R146). -/

namespace Sys2Proof.Machine

/-- Why the machine stops with a fault: reaching one means the model or the state it was started in is wrong (R29, U17, U18). -/
inductive Fault where
  /-- Raised by `I_PULL(k, 1)`, `L_DIR` and `L_XOR` when they read a Sequencer latch no phase has written: "a read of an unwritten
  latch is a model fault" (R29, U17). Safe. -/
  | latchEmpty
  /-- Raised by `L_XOR` for a cell of the memory array that holds no value: "a read would be a `fault`" (U18, R43). Safe. -/
  | romEmpty
  /-- Raised by `I_CFG(k, j)` or `I_PULL(k, j)` with `k` outside the phase's list, which is no phase of R27. Safe. -/
  | noSuchPhase
  deriving DecidableEq, Repr

/-- Why the model gives a step no meaning (R135). Every one is safe: the model stops. -/
inductive Refusal where
  /-- An instruction that has no meaning yet, by its mnemonic: raised in exec's own arms only. Safe. -/
  | notModelled (mnemonic : String)
  /-- `BAD_ACCESS` (R55, R72), raised by the decoder. Safe. -/
  | badAccess
  /-- `WRONG_DIRECTION` (R51, R72), raised by the decoder. Safe. -/
  | wrongDirection
  /-- `UNMAPPED` (R50, R72), raised by the decoder and by a transaction on a pin that does not exist. Safe. -/
  | unmapped
  /-- `RESERVED_BITS` (R89, R91), raised by a write of `PAD[p]` or `CTRL[p]`. Safe. -/
  | reservedBits
  /-- `PRECONDITION` (R94, R96), raised by a Pin Bank operation before its first transaction. Safe. -/
  | precondition
  /-- `BAD_RANGE` (R92), raised by `mask(s, n)` with `s + n > 32`. Safe. -/
  | badRange
  /-- `CONFIG` (R18, R49, R135), raised by every step of a machine whose configuration is not admitted. Safe. -/
  | config
  /-- A Test Master line whose expression names a name nothing has bound (R75, log 22). Safe. -/
  | unboundName
  /-- A Test Master line that names something other than a Pin Bank operation (R76, log 21). Safe. -/
  | notAnOperation
  deriving DecidableEq, Repr

/-- The two error causes (R128). -/
inductive ConfigError where
  /-- `ERR_PIN_RANGE` (R129). -/
  | pinRange
  /-- `ERR_OVERLAP` (R130). -/
  | overlap
  deriving DecidableEq, Repr

/-- `status` (R28). -/
inductive Status where
  | run
  | halt (e : ConfigError)
  deriving DecidableEq, Repr

/-- `phase`, the Sequencer's step pointer (R27). -/
inductive Phase where
  | iCheck
  | iCfg (k : Nat) (j : Fin 4)
  | iPull (k : Nat) (j : Fin 2)
  | iMasks
  | iOverlap
  | iFloat
  | iFill
  | iStatus (j : Fin 6)
  | lCs
  | lDir
  | lAddr
  | lRdout
  | lXor
  | halted
  deriving DecidableEq, Repr

/-- What the Host applies to a pin (R38). -/
inductive Ext where
  /-- Driven low. -/
  | low
  /-- Driven high. -/
  | high
  /-- Not driven. -/
  | z
  deriving DecidableEq, Repr

/-- A record of `events` (R41). -/
inductive Event where
  | contention (p : Nat)
  deriving DecidableEq, Repr

/-- The cached masks (R30), written together at `I_MASKS`. -/
structure Masks where
  addr : Word
  data : Word
  cs : Word
  status : Word
  deriving DecidableEq, Repr

/-- A register as the assembler names it (R75). -/
inductive Reg where
  | in_
  | out
  | outSet
  | outClr
  | outXor
  | oe
  | oeSet
  | oeClr
  | oeXor
  | pad (n : Nat)
  | ctrl (n : Nat)
  deriving DecidableEq, Repr

/-- An expression of the assembler over 32-bit words (R75, R20). Names are numbered (log 22). That the `p` of `bit(p)` and the `s`, `n` of
`mask(s, n)` are literal numbers is the model's choice: R75 does not say whether a bound name may stand there (DESIGN CHOICE, log 33). -/
inductive Expr where
  | const (w : Word)
  /-- A bound name. -/
  | name (n : Nat)
  /-- The response of the last read transaction: the name an operation's own expansion binds (R97, R100). -/
  | response
  | and (a b : Expr)
  | or (a b : Expr)
  | xor (a b : Expr)
  | not (a : Expr)
  | shl (a b : Expr)
  | shr (a b : Expr)
  | mod (a b : Expr)
  | popcount (a : Expr)
  /-- `bit(p)` (R20). -/
  | bit (p : Nat)
  /-- `mask(s, n)` (R92). -/
  | mask (s n : Nat)
  deriving DecidableEq, Repr

/-- One line of a bus master's list. That an operation's operands are literal, not expressions, is the model's choice: R76 does not say
whether a bound name may stand there (DESIGN CHOICE, log 33). -/
inductive Item where
  /-- A transaction as a request (R67). -/
  | bus (r : Request)
  /-- `rd REG`, or `t = rd REG` (R75). -/
  | read (bound : Option Nat) (reg : Reg)
  /-- `wr REG, EXPR` (R75). -/
  | write (reg : Reg) (e : Expr)
  /-- A Pin Bank operation by name, or `t = …` (R76; for one without a result, log 34). -/
  | op (bound : Option Nat) (i : Instr)
  deriving DecidableEq, Repr

/-- The bus master of the machine: "either the Sequencer or one Test Master, never both" (R24). -/
inductive Master where
  | sequencer
  /-- A Test Master with what is left of its finite list. -/
  | testMaster (lines : List Item)
  deriving DecidableEq, Repr

/-- Whose step comes next (log 9). -/
inductive Turn where
  /-- The bus master's. -/
  | master
  /-- The Host's: it sets these pins in one step (R139). -/
  | host (sets : List (Nat × Ext))
  /-- Power-on reset (R146, log 10). -/
  | powerOn
  deriving DecidableEq, Repr

/-- What a Pin Bank operation answers (R92, R104, R105). -/
inductive OpValue where
  | word (w : Word)
  | bool (b : Bool)
  deriving DecidableEq, Repr

/-- The whole state. Reads and writes of the registers go through the accessors of Machine/Ops.lean. -/
structure State where
  /-- The parameters of the machine (R10 to R18); no step changes them. -/
  cfg : Config
  /-- `OUT` (R31). -/
  out : Word
  /-- `OE` (R32). -/
  oe : Word
  /-- `PAD[p]` (R34). -/
  pad : Vector Word 32
  /-- `CTRL[p]` (R36). -/
  ctrl : Vector Word 32
  /-- `ext[p]` (R38). -/
  ext : Vector Ext 32
  /-- `ROM` (R43): the cells that hold a value, by rising index. -/
  rom : List Host.Cell
  /-- `phase` (R27). -/
  phase : Phase
  /-- `status` (R28). -/
  status : Status
  /-- `cs_l`: "no value" until written (R29, R46). -/
  csL : Option Word
  /-- `addr_l` (R29): no value until written. -/
  addrL : Option Nat
  /-- `out_l` (R29): no value until written. -/
  outL : Option Word
  /-- `pad_l` (R29): no value until written. -/
  padL : Option Word
  /-- The cached masks: "no value until `I_MASKS`" (R30, R46); what a read before that gives is `heldMasks` of Machine/Ops.lean. -/
  masks : Option Masks
  /-- `events` (R41), oldest first. -/
  events : List Event
  /-- The bus master (R24). -/
  master : Master
  /-- The transactions still to be issued of the operation in progress (R76, log 8); the model's own. -/
  pending : List Item
  /-- `Q`: the response of the last read transaction (R67). -/
  response : Word
  /-- The result of the last operation that answers a value (R92, R104, R105). -/
  result : OpValue
  /-- The bound names (R75); the model's own. -/
  names : List (Nat × Word)
  /-- Whose steps come next (log 9); empty means the bus master's from here on. The model's own. -/
  schedule : List Turn
  /-- How many evaluations have drawn free values (log 5); the model's own. -/
  draws : Nat
  deriving DecidableEq, Repr

/-- The reset word of `PAD[p]` (R34). -/
def padReset : Word := 0x56

/-- The state right after power-on (R46, R146) of the machine with parameters `c`, when the Host applies `e` and the bus
master is `m`. `CTRL[p]` resets to `FUNCSEL = F_NULL` (R36); DEDUCED for an `F_NULL` other than 31, log 16. The values of
`response`, `result`, `names`, `pending` and `draws` are DESIGN CHOICES (log 4, log 5, log 8). -/
def State.initial (c : Config) (e : Vector Ext 32) (m : Master) : State where
  cfg := c
  out := 0
  oe := 0
  pad := Vector.replicate 32 padReset
  ctrl := Vector.replicate 32 (c.fNull.zeroExtend 32)
  ext := e
  rom := []
  phase := .iCheck
  status := .run
  csL := none
  addrL := none
  outL := none
  padL := none
  masks := none
  events := []
  master := m
  pending := []
  response := 0
  result := .word 0
  names := []
  schedule := []
  draws := 0

/-- The machine right after reset: the default parameters (log 1), the Host driving no pin (log 3), the Sequencer as bus
master (log 20). -/
def State.reset : State := State.initial Config.default (Vector.replicate 32 .z) .sequencer

end Sys2Proof.Machine
end

