-- ==== Sys2Proof/Machine/Flags.lean ====
section
/-! DEFINITION. The flag bits the rules compute with. The block has no condition codes and no status flags (R26); what plays
their part are the single-bit fields of a pad word (R34), the function number of a function-select word (R36, R37), and whether a
chip-select sample says asserted (R117). -/

namespace Sys2Proof.Machine

/-- `OD`, bit 7 of a pad word (R34): 1 forces the driver off. -/
def padOd (w : Word) : Bool := w.getLsbD 7

/-- `IE`, bit 6 of a pad word (R34): input enable. -/
def padIe (w : Word) : Bool := w.getLsbD 6

/-- `DRIVE`, bits 5 to 4 of a pad word (R34): stored, no modelled effect (R35). -/
def padDrive (w : Word) : BitVec 2 := w.extractLsb' 4 2

/-- `PUE`, bit 3 of a pad word (R34): pull-up enable. -/
def padPue (w : Word) : Bool := w.getLsbD 3

/-- `PDE`, bit 2 of a pad word (R34): pull-down enable. -/
def padPde (w : Word) : Bool := w.getLsbD 2

/-- `SCHMITT`, bit 1 of a pad word (R34): stored, no modelled effect (R35). -/
def padSchmitt (w : Word) : Bool := w.getLsbD 1

/-- `SLEWFAST`, bit 0 of a pad word (R34): stored, no modelled effect (R35). -/
def padSlewfast (w : Word) : Bool := w.getLsbD 0

/-- `FUNCSEL`, bits 4 to 0 of a function-select word (R36). -/
def funcsel (w : Word) : BitVec 5 := w.extractLsb' 0 5

/-- The bits a pad word can hold; bits 31 to 8 are reserved and read 0 (R34). -/
def padFields : Word := 0xFF

/-- The bits a function-select word can hold; bits 31 to 5 are reserved and read 0 (R36). -/
def ctrlFields : Word := 0x1F

/-- Chip-select is active-high: a sample says asserted when it is not 0 (R117). -/
def csAsserted (cs : Word) : Bool := cs != 0

/-- The code of an error cause (R128). -/
def errorCode : ConfigError → Nat
  | .pinRange => 1
  | .overlap => 2

end Sys2Proof.Machine
end

