-- ==== Sys2Proof/Machine/Operands.lean ====
section
/-! DEFINITION. Operand forms: `bit(p)` and `mask(s, n)` (R20, R92), the bits of real pins (`VALID`), the pin lists of the
start-up sequence (R107, R110), the registers' addresses (R48), the assembler's expressions (R75), and words put together lane by
lane (R93). -/

namespace Sys2Proof.Machine

/-- `bit(p)`: `1 << p`, zero for `p >= 32` (R20). -/
def bitWord (p : Nat) : Word := if p < 32 then BitVec.ofNat 32 (2 ^ p) else 0

/-- `((2^n - 1) << s)` over the integers, taken as a 32-bit word (R92). -/
def maskWord (s n : Nat) : Word := BitVec.ofNat 32 ((2 ^ n - 1) * 2 ^ s)

/-- `mask(s, n)`, which has a value when `s + n <= 32` only (R92). -/
def maskOf (s n : Nat) : Option Word := if s + n ≤ 32 then some (maskWord s n) else none

/-- `VALID = mask(0, PIN_COUNT)`: the bits of real pins (40_register_access.md). -/
def validMask (c : Config) : Word := maskWord 0 c.pinCount

/-- Pin `p` exists (R10, R12). -/
def hasPin (c : Config) (p : Nat) : Bool := decide (p < c.pinCount) && decide (p < 32)

/-- Every bit of a mask operand is an existing pin (R94). -/
def hasPins (c : Config) (m : Word) : Bool := (m &&& ~~~(validMask c)) == 0

/-- The word whose bit `p`, for each `p < n`, is `f p`, and whose other bits are 0 (R93). -/
def wordOf (f : Nat → Bool) : Nat → Word
  | 0 => 0
  | n + 1 => if f n then wordOf f n ||| bitWord n else wordOf f n

/-- `n` pins from `start`, ascending (R11). -/
def pinRange (start n : Nat) : List Nat := (List.range n).map (fun j => start + j)

/-- `CFG_LIST`: the address pins ascending, the data pins ascending, then `CS_PIN` (R107). -/
def cfgList (c : Config) : List Nat :=
  pinRange c.addrStart c.addrBits ++ pinRange c.dataStart c.dataBits ++ [c.csPin]

/-- A pin put into an ascending list without repeats. -/
def insertPin (p : Nat) : List Nat → List Nat
  | [] => [p]
  | q :: rest => if p < q then p :: q :: rest else if p = q then q :: rest else q :: insertPin p rest

/-- A set of pins in ascending order (R110). -/
def ascending (ps : List Nat) : List Nat := ps.foldr insertPin []

/-- `PULLDOWN_PINS` in ascending order (R110). -/
def pullList (c : Config) : List Nat := ascending c.pulldownPins

/-- The condition of `ERR_PIN_RANGE` (R108). -/
def pinRangeError (c : Config) : Bool :=
  decide (c.addrStart + c.addrBits > c.pinCount) || decide (c.dataStart + c.dataBits > c.pinCount) ||
  decide (c.csPin ≥ c.pinCount) || decide (c.statusPin ≥ c.pinCount) ||
  c.pulldownPins.any (fun q => decide (q ≥ c.pinCount))

/-- The byte a start-up fill gives index `i`: the image's, or the fill byte beyond it (R114). -/
def imageByte (c : Config) (i : Nat) : Byte := c.image.getD i c.fillByte

/-- The pad word `configure` writes (R95). -/
def padConfigured : Word := 0x53

/-- The function-select word that routes a pin to the simple I/O function (R37, R95). -/
def ctrlSio (c : Config) : Word := c.fSio.zeroExtend 32

/-- `PDE` alone (R34, R97). -/
def padPdeBit : Word := 0x04

/-- The value `t` of `put_masked`: "exactly the bits that must flip" (R100). -/
def flips (c v m : Word) : Word := (c ^^^ v) &&& m

/-- The raw address in a sample of the address pins (R119). -/
def rawAddress (c : Config) (sample : Word) : Nat := sample.toNat / 2 ^ c.addrStart

/-- The lookup index of a raw address: `raw mod L` (R120). -/
def lookupIndex (c : Config) (raw : Nat) : Nat := raw % c.memLen

/-- A memory byte aligned with the data pins (R52, R122). -/
def busValue (c : Config) (b : Byte) : Word := (b.zeroExtend 32) <<< c.dataStart

/-- The address of a register (R48), as an integer; none for a pin that does not exist (R50). -/
def regAddr (c : Config) : Reg → Option Nat
  | .in_ => some (c.sioBase.toNat + 0x004)
  | .out => some (c.sioBase.toNat + 0x010)
  | .outSet => some (c.sioBase.toNat + 0x014)
  | .outClr => some (c.sioBase.toNat + 0x018)
  | .outXor => some (c.sioBase.toNat + 0x01C)
  | .oe => some (c.sioBase.toNat + 0x020)
  | .oeSet => some (c.sioBase.toNat + 0x024)
  | .oeClr => some (c.sioBase.toNat + 0x028)
  | .oeXor => some (c.sioBase.toNat + 0x02C)
  | .pad n => if hasPin c n then some (c.padsBase.toNat + 0x004 + 4 * n) else none
  | .ctrl n => if hasPin c n then some (c.ioctrlBase.toNat + 0x004 + 8 * n) else none

/-- A Boolean result in an expression over words: 1 or 0 (log 22). -/
def opWord : OpValue → Word
  | .word w => w
  | .bool b => if b then 1 else 0

/-- The number of set bits (R20). -/
def popcount (w : Word) : Nat := (List.range 32).countP (fun i => w.getLsbD i)

/-- `v << k` and `v >> k` by a word: zero for `k >= 32` (R20). -/
def shiftLeft (v k : Word) : Word := if k.toNat < 32 then v <<< k.toNat else 0

/-- See `shiftLeft`. -/
def shiftRight (v k : Word) : Word := if k.toNat < 32 then v >>> k.toNat else 0

/-- The value bound to a name, the newest binding first (R75). -/
def lookupName : List (Nat × Word) → Nat → Option Word
  | [], _ => none
  | (k, w) :: rest, n => if k = n then some w else lookupName rest n

/-- A name bound to a word: an earlier binding of the same name is dropped (R75). -/
def bindName (n : Nat) (w : Word) (env : List (Nat × Word)) : List (Nat × Word) :=
  (n, w) :: env.filter (fun kw => kw.1 != n)

/-- `a mod b` at evaluation `n`, at place `k` of its expression: the remainder for `b >= 1`; for `b = 0`, where R20 states no result, a
free value (DESIGN CHOICE, log 32). -/
def modulo (n k : Nat) (a b : Word) : Word := if b = 0 then Config.freeMod n k else a % b

/-- An expression's value at evaluation `n`, over bound names and the last response, at place `k` of the whole line (the places of an
operator's operands are `2 k` and `2 k + 1`); a refusal where a name is not bound (R75) or a mask has no value (R92). -/
def evalExpr (n : Nat) (env : List (Nat × Word)) (q : Word) : Nat → Expr → Except Refusal Word
  | _, .const w => .ok w
  | _, .name t => match lookupName env t with
    | some w => .ok w
    | none => .error .unboundName
  | _, .response => .ok q
  | k, .and a b => do let x ← evalExpr n env q (2 * k) a; let y ← evalExpr n env q (2 * k + 1) b; .ok (x &&& y)
  | k, .or a b => do let x ← evalExpr n env q (2 * k) a; let y ← evalExpr n env q (2 * k + 1) b; .ok (x ||| y)
  | k, .xor a b => do let x ← evalExpr n env q (2 * k) a; let y ← evalExpr n env q (2 * k + 1) b; .ok (x ^^^ y)
  | k, .not a => do let x ← evalExpr n env q (2 * k) a; .ok (~~~x)
  | k, .shl a b => do let x ← evalExpr n env q (2 * k) a; let y ← evalExpr n env q (2 * k + 1) b; .ok (shiftLeft x y)
  | k, .shr a b => do let x ← evalExpr n env q (2 * k) a; let y ← evalExpr n env q (2 * k + 1) b; .ok (shiftRight x y)
  | k, .mod a b => do let x ← evalExpr n env q (2 * k) a; let y ← evalExpr n env q (2 * k + 1) b; .ok (modulo n k x y)
  | k, .popcount a => do let x ← evalExpr n env q (2 * k) a; .ok (BitVec.ofNat 32 (popcount x))
  | _, .bit p => .ok (bitWord p)
  | _, .mask s n => match maskOf s n with
    | some w => .ok w
    | none => .error .badRange

end Sys2Proof.Machine
end

