-- ==== Sys2Proof/Machine/Ops.lean ====
section
/-! DEFINITION. The named operations over registers, pins and the memory array: accessors with the hardwired bits (R31, R32, R34,
R36), the pins' electrical state (R39, R40, R33, R42), the shared transactions, the memory array (R43), taking a configuration
error (R131) and power-on (R146), and the contention records of a step (R41). -/

namespace Sys2Proof.Machine

/-- What an instruction's meaning answers. -/
abbrev Answer := Host.Outcome State Fault Refusal

/-- Go on with the next state, if there is one. -/
def andThen (o : Answer) (f : State → Answer) : Answer :=
  match o with
  | .next s => f s
  | .fault r => .fault r
  | .refused r => .refused r

/-- Read a Sequencer latch: "a read of an unwritten latch is a model fault" (R29, U17). -/
def withLatch {α : Type} (o : Option α) (f : α → Answer) : Answer :=
  match o with
  | some a => f a
  | none => .fault .latchEmpty

/-! ### The registers -/

/-- `OUT` as a read sees it: bits of pins that do not exist are hardwired 0 (R31). -/
def State.outWord (s : State) : Word := s.out &&& validMask s.cfg

/-- `OUT <- v`: bits of pins that do not exist are dropped (R31). -/
def State.setOut (s : State) (v : Word) : State := { s with out := v &&& validMask s.cfg }

/-- `OE` as a read sees it (R32). -/
def State.oeWord (s : State) : Word := s.oe &&& validMask s.cfg

/-- `OE <- v` (R32). -/
def State.setOe (s : State) (v : Word) : State := { s with oe := v &&& validMask s.cfg }

/-- `PAD[p]` as a read sees it: bits 31 to 8 read 0 (R34). -/
def State.padWord (s : State) (p : Nat) : Word := (s.pad.toList.getD p 0) &&& padFields

/-- `PAD[p] <- v` (R34). -/
def State.setPad (s : State) (p : Nat) (v : Word) : State := { s with pad := s.pad.setIfInBounds p v }

/-- `CTRL[p]` as a read sees it: bits 31 to 5 read 0 (R36). -/
def State.ctrlWord (s : State) (p : Nat) : Word := (s.ctrl.toList.getD p 0) &&& ctrlFields

/-- `CTRL[p] <- v` (R36). -/
def State.setCtrl (s : State) (p : Nat) (v : Word) : State := { s with ctrl := s.ctrl.setIfInBounds p v }

/-- What the Host applies to pin `p` (R38); a pin that does not exist has nothing applied. -/
def State.extAt (s : State) (p : Nat) : Ext := s.ext.toList.getD p .z

/-- The response of a read transaction (R67). -/
def State.respond (s : State) (q : Word) : State := { s with response := q }

/-- The result of an operation (R92, R104, R105). -/
def State.answer (s : State) (v : OpValue) : State := { s with result := v }

/-- `phase <- target` (R21). -/
def State.goto (s : State) (ph : Phase) : State := { s with phase := ph }

/-- The transactions an operation still has to issue, before whatever else is waiting (R76, log 8). -/
def State.queue (s : State) (items : List Item) : State := { s with pending := items ++ s.pending }

/-- The cached masks as a phase reads them (R30). Before `I_MASKS` they hold no value, and the spec names no fault for them as it does
for a latch: each is a free value then, at this evaluation (DESIGN CHOICE, log 6). -/
def State.heldMasks (s : State) : Masks :=
  s.masks.getD ⟨Config.freeAddrMask s.draws, Config.freeDataMask s.draws, Config.freeCsMask s.draws, Config.freeStatusMask s.draws⟩

/-! ### The pins -/

/-- `Drives(p)` (R39) at evaluation `n`. -/
def State.drivesAt (s : State) (n p : Nat) : Bool :=
  if funcsel (s.ctrlWord p) = s.cfg.fSio then s.oeWord.getLsbD p && !padOd (s.padWord p)
  else if funcsel (s.ctrlWord p) = s.cfg.fNull then false
  else (Config.freeDrive n).getLsbD p

/-- `DrivenValue(p)` (R39) at evaluation `n`. -/
def State.drivenValueAt (s : State) (n p : Nat) : Bool :=
  if funcsel (s.ctrlWord p) = s.cfg.fSio then s.outWord.getLsbD p
  else (Config.freeValue n).getLsbD p

/-- The level of a pin nothing drives (R40): its pull, or a free value with no pull or both. -/
def State.pulledLevelAt (s : State) (n p : Nat) : Bool :=
  match padPue (s.padWord p), padPde (s.padWord p) with
  | true, false => true
  | false, true => false
  | _, _ => (Config.freeLevel n).getLsbD p

/-- The level the Host drives against the block's own value `v`: the common value, or a free value under contention (R40). -/
def contestedLevel (n p : Nat) (v e : Bool) : Bool := if e = v then e else (Config.freeLevel n).getLsbD p

/-- `Level(p)` (R40) at evaluation `n`. -/
def State.levelAt (s : State) (n p : Nat) : Bool :=
  match s.drivesAt n p, s.extAt p with
  | true, .z => s.drivenValueAt n p
  | true, .low => contestedLevel n p (s.drivenValueAt n p) false
  | true, .high => contestedLevel n p (s.drivenValueAt n p) true
  | false, .low => false
  | false, .high => true
  | false, .z => s.pulledLevelAt n p

/-- `IN[p]` (R33) at evaluation `n`. -/
def State.inBitAt (s : State) (n p : Nat) : Bool := hasPin s.cfg p && (padIe (s.padWord p) && s.levelAt n p)

/-- The bits of `IN` under a mask, at the evaluation number of this read. Lane by lane (R93), so that the lanes outside the mask
are not evaluated; it is `IN & m` (log 24). -/
def State.sampleIn (s : State) (m : Word) : Word := wordOf (fun p => m.getLsbD p && s.inBitAt s.draws p) 32

/-- `IN` at this read (R33). -/
def State.inWord (s : State) : Word := wordOf (fun p => s.inBitAt s.draws p) 32

/-- What the Host observes of pin `p` (R42): nothing, or the level the block drives. For a pin routed to a peripheral the drive is drawn
(R39), and R42 does not say which draw the Host sees: here that of the next evaluation, so that it agrees with a read of `IN` that
follows at once (DESIGN CHOICE, log 35). -/
def State.observed (s : State) (p : Nat) : Option Bool :=
  if s.drivesAt s.draws p then some (s.drivenValueAt s.draws p) else none

/-- The next evaluation draws afresh (R40). -/
def State.evaluated (s : State) : State := { s with draws := s.draws + 1 }

/-! ### The transactions -/

/-- The read transaction of `IN` (R77). -/
def State.readIn (s : State) : State := (s.respond s.inWord).evaluated

/-- The read transaction of `OUT` (R78). -/
def State.readOut (s : State) : State := s.respond s.outWord

/-- The read transaction of `OE` (R83). -/
def State.readOe (s : State) : State := s.respond s.oeWord

/-- `OUT <- (OUT | D) & VALID` (R80). -/
def State.outSet (s : State) (d : Word) : State := s.setOut (s.outWord ||| d)

/-- `OUT <- OUT & ~D` (R81). -/
def State.outClr (s : State) (d : Word) : State := s.setOut (s.outWord &&& ~~~d)

/-- `OUT <- (OUT ^ D) & VALID` (R82). -/
def State.outXor (s : State) (d : Word) : State := s.setOut (s.outWord ^^^ d)

/-- `OE <- (OE | D) & VALID` (R85). -/
def State.oeSet (s : State) (d : Word) : State := s.setOe (s.oeWord ||| d)

/-- `OE <- OE & ~D` (R86). -/
def State.oeClr (s : State) (d : Word) : State := s.setOe (s.oeWord &&& ~~~d)

/-- `OE <- (OE ^ D) & VALID` (R87). -/
def State.oeXor (s : State) (d : Word) : State := s.setOe (s.oeWord ^^^ d)

/-- The read transaction of `PAD[p]` (R88); a pin that does not exist has none (R50). -/
def readPad (p : Nat) (s : State) : Answer :=
  if hasPin s.cfg p then .next (s.respond (s.padWord p)) else .refused .unmapped

/-- The write transaction of `PAD[p]` (R89). -/
def writePad (p : Nat) (d : Word) (s : State) : Answer :=
  if hasPin s.cfg p then
    if d &&& ~~~padFields = 0 then .next (s.setPad p d) else .refused .reservedBits
  else .refused .unmapped

/-- The read transaction of `CTRL[p]` (R90). -/
def readCtrl (p : Nat) (s : State) : Answer :=
  if hasPin s.cfg p then .next (s.respond (s.ctrlWord p)) else .refused .unmapped

/-- The write transaction of `CTRL[p]` (R91). -/
def writeCtrl (p : Nat) (d : Word) (s : State) : Answer :=
  if hasPin s.cfg p then
    if d &&& ~~~ctrlFields = 0 then .next (s.setCtrl p d) else .refused .reservedBits
  else .refused .unmapped

/-- Transaction `j` of `configure p` (R95), as the Sequencer issues it (R109, R115). -/
def configureTransaction (p : Nat) (j : Fin 4) (s : State) : Answer :=
  match j with
  | 0 => .next (s.oeClr (bitWord p))
  | 1 => .next (s.outClr (bitWord p))
  | 2 => writePad p padConfigured s
  | 3 => writeCtrl p (ctrlSio s.cfg) s

/-! ### The memory array -/

/-- The byte at an index: none where nothing has been written (R43). -/
def Memory.read : List Host.Cell → Nat → Option Byte
  | [], _ => none
  | (a, b) :: rest, i => if a = i then some b else Memory.read rest i

/-- A byte written at an index, the indices kept strictly rising. -/
def Memory.write (i : Nat) (b : Byte) : List Host.Cell → List Host.Cell
  | [] => [(i, b)]
  | (a, x) :: rest =>
    if i < a then (i, b) :: (a, x) :: rest
    else if i = a then (i, b) :: rest
    else (a, x) :: Memory.write i b rest

/-- The canonical form: strictly rising indices. An unlisted cell holds no value, so no entry can equal it. -/
abbrev Memory.wf (m : List Host.Cell) : Prop := (m.map Prod.fst).Pairwise (· < ·)

/-- `ROM[i]`: a cell outside `[0, L)` does not exist (R43). -/
def State.romAt (s : State) (i : Nat) : Option Byte := if i < s.cfg.memLen then Memory.read s.rom i else none

/-- The start-up fill: `for i in 0 .. n-1 : ROM[i] <- …` (R114). -/
def fillRom (c : Config) : Nat → List Host.Cell → List Host.Cell
  | 0, m => m
  | n + 1, m => Memory.write n (imageByte c n) (fillRom c n m)

/-! ### Errors and reset -/

/-- `raise ConfigError(code)`, the block's only trap entry (R131): `status <- HALT(code); phase <- HALTED`, no transaction, nothing
else saved. There is no return from it (R134): only power-on leaves `HALTED`. -/
def raiseConfigError (e : ConfigError) (s : State) : Answer := .next { s with status := .halt e, phase := .halted }

/-- Power-on (R146): every piece of the block's state at its reset value. What the Host applies, the agents' schedule and a Test
Master's remaining list are outside the block and stay (log 10). -/
def powerOn (s : State) : State :=
  { State.initial s.cfg s.ext s.master with schedule := s.schedule, draws := s.draws }

/-- A Host step (R139): it sets `ext[p]` for a set of pins, in one step, and touches nothing else. A pin that does not exist is
passed over (log 23). -/
def hostSet (sets : List (Nat × Ext)) (s : State) : State :=
  { s with ext := sets.foldl (fun v pe => if hasPin s.cfg pe.1 then v.setIfInBounds pe.1 pe.2 else v) s.ext }

/-! ### Contention -/

/-- The level the Host drives, if it drives. -/
def hostLevel : Ext → Option Bool
  | .low => some false
  | .high => some true
  | .z => none

/-- Pin `p` is driven by both sides, to different values (R41). -/
def State.contendsAt (s : State) (n p : Nat) : Bool :=
  match hostLevel (s.extAt p) with
  | some e => s.drivesAt n p && (e != s.drivenValueAt n p)
  | none => false

/-- The end of a step of any agent: one `CONTENTION(p)` record for each contended pin, in ascending order (R41, log 18). -/
def settle (s : State) : State :=
  { s with
    events := s.events ++ ((List.range s.cfg.pinCount).filter (fun p => s.contendsAt s.draws p)).map Event.contention
    draws := s.draws + 1 }

end Sys2Proof.Machine
end

