-- ==== Sys2Proof/Machine/Loop.lean ====
section
/-! DEFINITION. The Sequencer's steady-state loop (spec/42_decoder_mux.md R116 to R122). -/

namespace Sys2Proof.Machine

/-- `L_CS` (R116): `q = rd IN; cs_l <- q & cs_mask`. -/
def execLCs (s : State) : Answer :=
  .next ({ s.readIn with csL := some (s.sampleIn s.heldMasks.cs) }.goto .lDir)

/-- `L_DIR` (R118): drive the data pins when chip-select was sampled asserted (R117), release them when not. -/
def execLDir (s : State) : Answer :=
  withLatch s.csL (fun cs =>
    .next ((if csAsserted cs then s.oeSet s.heldMasks.data else s.oeClr s.heldMasks.data).goto .lAddr))

/-- `L_ADDR` (R119): `raw = (rd IN & addr_mask) >> ADDR_START; addr_l <- raw mod L` (R120). -/
def execLAddr (s : State) : Answer :=
  .next ({ s.readIn with addrL := some (lookupIndex s.cfg (rawAddress s.cfg (s.sampleIn s.heldMasks.addr))) }.goto .lRdout)

/-- `L_RDOUT` (R121): `out_l <- rd OUT`. -/
def execLRdout (s : State) : Answer := .next ({ s.readOut with outL := some s.outWord }.goto .lXor)

/-- `L_XOR` (R122): look the byte up and toggle exactly the data bits that must flip, whether or not chip-select was asserted. -/
def execLXor (s : State) : Answer :=
  withLatch s.addrL (fun i => withLatch s.outL (fun o =>
    match s.romAt i with
    | some b => .next ((s.outXor (flips o (busValue s.cfg b) s.heldMasks.data)).goto .lCs)
    | none => .fault .romEmpty))

end Sys2Proof.Machine
end

