-- ==== Sys2Proof/Machine/PinBank.lean ====
section
/-! DEFINITION. The Pin Bank's operations and `mask` (spec/41_pin_bank_ops.md R92 to R105). An operation expands to transactions
(R76), and between two transactions any agent may step (R22): its meaning issues the first transaction and leaves the others,
in order, to the bus master's next turns (`pending`, log 8). A pin or mask outside the precondition is refused before the first
transaction (R94). -/

namespace Sys2Proof.Machine

/-- What `configure p` issues after its first transaction (R95). -/
def configureRest (c : Config) (p : Nat) : List Item :=
  [.write .outClr (.bit p), .write (.pad p) (.const padConfigured), .write (.ctrl p) (.const (ctrlSio c))]

/-- `configure p` (R95): `wr OE_CLR, bit(p)` first, then the rest in order. -/
def execConfigure (p : Nat) (s : State) : Answer :=
  if hasPin s.cfg p then .next ((s.oeClr (bitWord p)).queue (configureRest s.cfg p)) else .refused .precondition

/-- `route_to_peripheral p, f` (R96): `wr CTRL[p], f`, for `f <= 31` and `f != F_SIO`. -/
def execRouteToPeripheral (p f : Nat) (s : State) : Answer :=
  if hasPin s.cfg p && decide (f ≤ 31) && decide (f ≠ s.cfg.fSio.toNat) then writeCtrl p (BitVec.ofNat 32 f) s
  else .refused .precondition

/-- `enable_pulldown p` (R97): `t = rd PAD[p]`, then `wr PAD[p], t | 0x04`. -/
def execEnablePulldown (p : Nat) (s : State) : Answer :=
  if hasPin s.cfg p then
    .next ((s.respond (s.padWord p)).queue [.write (.pad p) (.or .response (.const padPdeBit))])
  else .refused .precondition

/-- `set m` (R98): `wr OUT_SET, m`. -/
def execSet (m : Word) (s : State) : Answer :=
  if hasPins s.cfg m then .next (s.outSet m) else .refused .precondition

/-- `clear m` (R99): `wr OUT_CLR, m`. -/
def execClear (m : Word) (s : State) : Answer :=
  if hasPins s.cfg m then .next (s.outClr m) else .refused .precondition

/-- `put_masked m, v` (R100): `c = rd OUT`, then `wr OUT_XOR, (c ^ v) & m`. -/
def execPutMasked (m v : Word) (s : State) : Answer :=
  if hasPins s.cfg m then
    .next (s.readOut.queue [.write .outXor (.and (.xor .response (.const v)) (.const m))])
  else .refused .precondition

/-- `set_direction_out_masked m` (R102): `wr OE_SET, m`. -/
def execSetDirectionOutMasked (m : Word) (s : State) : Answer :=
  if hasPins s.cfg m then .next (s.oeSet m) else .refused .precondition

/-- `set_direction_disabled_masked m` (R103): `wr OE_CLR, m`. -/
def execSetDirectionDisabledMasked (m : Word) (s : State) : Answer :=
  if hasPins s.cfg m then .next (s.oeClr m) else .refused .precondition

/-- `t = get p` (R104): `q = rd IN`, then `t = (q[p] == 1)`. -/
def execGet (p : Nat) (s : State) : Answer :=
  if hasPin s.cfg p then .next (s.readIn.answer (.bool (s.inBitAt s.draws p))) else .refused .precondition

/-- `t = get_masked m` (R105): `q = rd IN`, then `t = q & m`. -/
def execGetMasked (m : Word) (s : State) : Answer :=
  if hasPins s.cfg m then .next (s.readIn.answer (.word (s.sampleIn m))) else .refused .precondition

/-- `mask(s, n)` (R92): a function of its operands, no transaction; refused when `s + n > 32`. -/
def execMask (start n : Nat) (s : State) : Answer :=
  match maskOf start n with
  | some w => .next (s.answer (.word w))
  | none => .refused .badRange

end Sys2Proof.Machine
end

