-- ==== Sys2Proof/Machine/RegisterAccess.lean ====
section
/-! DEFINITION. The fifteen register transactions (spec/40_register_access.md R77 to R91). Each is one transaction: one
indivisible step of the bus (R22, R56). -/

namespace Sys2Proof.Machine

/-- `RD_IN` (R77): `Q[p] <- (PAD[p].IE == 1) ? Level(p) : 0`. -/
def execRdIn (s : State) : Answer := .next s.readIn

/-- `RD_OUT` (R78): `Q <- OUT`. -/
def execRdOut (s : State) : Answer := .next s.readOut

/-- `WR_OUT` (R79): `OUT <- D & VALID`. -/
def execWrOut (d : Word) (s : State) : Answer := .next (s.setOut d)

/-- `WR_OUT_SET` (R80). -/
def execWrOutSet (d : Word) (s : State) : Answer := .next (s.outSet d)

/-- `WR_OUT_CLR` (R81). -/
def execWrOutClr (d : Word) (s : State) : Answer := .next (s.outClr d)

/-- `WR_OUT_XOR` (R82). -/
def execWrOutXor (d : Word) (s : State) : Answer := .next (s.outXor d)

/-- `RD_OE` (R83): `Q <- OE`. -/
def execRdOe (s : State) : Answer := .next s.readOe

/-- `WR_OE` (R84): `OE <- D & VALID`. -/
def execWrOe (d : Word) (s : State) : Answer := .next (s.setOe d)

/-- `WR_OE_SET` (R85). -/
def execWrOeSet (d : Word) (s : State) : Answer := .next (s.oeSet d)

/-- `WR_OE_CLR` (R86). -/
def execWrOeClr (d : Word) (s : State) : Answer := .next (s.oeClr d)

/-- `WR_OE_XOR` (R87). -/
def execWrOeXor (d : Word) (s : State) : Answer := .next (s.oeXor d)

/-- `RD_PAD(p)` (R88): `Q <- PAD[p]`. -/
def execRdPad (p : Nat) (s : State) : Answer := readPad p s

/-- `WR_PAD(p)` (R89): refused when a reserved bit is set, else `PAD[p] <- D`. -/
def execWrPad (p : Nat) (d : Word) (s : State) : Answer := writePad p d s

/-- `RD_CTRL(p)` (R90): `Q <- CTRL[p]`. -/
def execRdCtrl (p : Nat) (s : State) : Answer := readCtrl p s

/-- `WR_CTRL(p)` (R91): refused when a reserved bit is set, else `CTRL[p] <- D`. -/
def execWrCtrl (p : Nat) (d : Word) (s : State) : Answer := writeCtrl p d s

end Sys2Proof.Machine
end

