-- ==== Sys2Proof/Machine/StartUp.lean ====
section
/-! DEFINITION. The Sequencer's start-up phases and its halt (spec/42_decoder_mux.md R108 to R115, 60_exceptions.md R131). Each
performs the action of its phase, at most one transaction, and moves `phase` to its successor. -/

namespace Sys2Proof.Machine

/-- `I_CHECK` (R108): the pin-range check, before the first transaction of all. -/
def execICheck (s : State) : Answer :=
  if pinRangeError s.cfg then raiseConfigError .pinRange s else .next (s.goto (.iCfg 0 0))

/-- The phase after the last pull-down, or after `I_CFG` when no pin is pulled (R109, R110). -/
def pullPhase (c : Config) (k : Nat) : Phase := if k < (pullList c).length then .iPull k 0 else .iMasks

/-- The successor of `I_CFG(k, j)` (R109). -/
def cfgSuccessor (c : Config) (k : Nat) (j : Fin 4) : Phase :=
  match j with
  | 0 => .iCfg k 1
  | 1 => .iCfg k 2
  | 2 => .iCfg k 3
  | 3 => if k + 1 < (cfgList c).length then .iCfg (k + 1) 0 else pullPhase c 0

/-- `I_CFG(k, j)` (R109): transaction `j` of `configure CFG_LIST[k]`. -/
def execICfg (k : Nat) (j : Fin 4) (s : State) : Answer :=
  match (cfgList s.cfg)[k]? with
  | none => .fault .noSuchPhase
  | some p => andThen (configureTransaction p j s) (fun t => .next (t.goto (cfgSuccessor s.cfg k j)))

/-- `I_PULL(k, j)` (R110): `j = 0` is `pad_l <- rd PAD[q]`, `j = 1` is `wr PAD[q], pad_l | 0x04`. -/
def execIPull (k : Nat) (j : Fin 2) (s : State) : Answer :=
  match (pullList s.cfg)[k]?, j with
  | none, _ => .fault .noSuchPhase
  | some q, 0 => andThen (readPad q s) (fun t => .next ({ t with padL := some (s.padWord q) }.goto (.iPull k 1)))
  | some q, 1 => withLatch s.padL (fun w =>
      andThen (writePad q (w ||| padPdeBit) s) (fun t => .next (t.goto (pullPhase s.cfg (k + 1)))))

/-- `I_MASKS` (R111): compute and cache the masks. A range outside the domain of `mask` is refused (R92); `I_CHECK` has ruled it
out in every run. -/
def execIMasks (s : State) : Answer :=
  match maskOf s.cfg.addrStart s.cfg.addrBits, maskOf s.cfg.dataStart s.cfg.dataBits with
  | some a, some d =>
    .next ({ s with masks := some ⟨a, d, bitWord s.cfg.csPin, bitWord s.cfg.statusPin⟩ }.goto .iOverlap)
  | _, _ => .refused .badRange

/-- `I_OVERLAP` (R112): the disjointness check. -/
def execIOverlap (s : State) : Answer :=
  if s.heldMasks.addr &&& s.heldMasks.data ≠ 0 then raiseConfigError .overlap s else .next (s.goto .iFloat)

/-- `I_FLOAT` (R113): the data bus to floating. -/
def execIFloat (s : State) : Answer :=
  .next ((s.oeClr s.heldMasks.data).goto .iFill)

/-- `I_FILL` (R114): populate the memory array. -/
def execIFill (s : State) : Answer :=
  .next ({ s with rom := fillRom s.cfg s.cfg.memLen s.rom }.goto (.iStatus 0))

/-- `I_STATUS(j)` (R115): configure the indicator pin, set its level, then enable its driver. -/
def execIStatus (j : Fin 6) (s : State) : Answer :=
  match j with
  | 0 => andThen (configureTransaction s.cfg.statusPin 0 s) (fun t => .next (t.goto (.iStatus 1)))
  | 1 => andThen (configureTransaction s.cfg.statusPin 1 s) (fun t => .next (t.goto (.iStatus 2)))
  | 2 => andThen (configureTransaction s.cfg.statusPin 2 s) (fun t => .next (t.goto (.iStatus 3)))
  | 3 => andThen (configureTransaction s.cfg.statusPin 3 s) (fun t => .next (t.goto (.iStatus 4)))
  | 4 => .next ((s.outSet s.heldMasks.status).goto (.iStatus 5))
  | 5 => .next ((s.oeSet s.heldMasks.status).goto .lCs)

/-- `HALTED` (R131): the Sequencer has no step, so its turn changes nothing (log 7). -/
def execHalted (s : State) : Answer := .next s

end Sys2Proof.Machine
end

