-- ==== Sys2Proof/Machine/Dispatch.lean ====
section
/-! DEFINITION. The dispatch: one arm per constructor of Instr, each one direct call of that instruction's meaning. -/

namespace Sys2Proof.Machine

def exec (i : Instr) (s : State) : Host.Outcome State Fault Refusal :=
  match i with
  | .rdIn => Sys2Proof.Machine.execRdIn s
  | .rdOut => Sys2Proof.Machine.execRdOut s
  | .wrOut d => Sys2Proof.Machine.execWrOut d s
  | .wrOutSet d => Sys2Proof.Machine.execWrOutSet d s
  | .wrOutClr d => Sys2Proof.Machine.execWrOutClr d s
  | .wrOutXor d => Sys2Proof.Machine.execWrOutXor d s
  | .rdOe => Sys2Proof.Machine.execRdOe s
  | .wrOe d => Sys2Proof.Machine.execWrOe d s
  | .wrOeSet d => Sys2Proof.Machine.execWrOeSet d s
  | .wrOeClr d => Sys2Proof.Machine.execWrOeClr d s
  | .wrOeXor d => Sys2Proof.Machine.execWrOeXor d s
  | .rdPad p => Sys2Proof.Machine.execRdPad p s
  | .wrPad p d => Sys2Proof.Machine.execWrPad p d s
  | .rdCtrl p => Sys2Proof.Machine.execRdCtrl p s
  | .wrCtrl p d => Sys2Proof.Machine.execWrCtrl p d s
  | .configure p => Sys2Proof.Machine.execConfigure p s
  | .routeToPeripheral p f => Sys2Proof.Machine.execRouteToPeripheral p f s
  | .enablePulldown p => Sys2Proof.Machine.execEnablePulldown p s
  | .set m => Sys2Proof.Machine.execSet m s
  | .clear m => Sys2Proof.Machine.execClear m s
  | .putMasked m v => Sys2Proof.Machine.execPutMasked m v s
  | .setDirectionOutMasked m => Sys2Proof.Machine.execSetDirectionOutMasked m s
  | .setDirectionDisabledMasked m => Sys2Proof.Machine.execSetDirectionDisabledMasked m s
  | .get p => Sys2Proof.Machine.execGet p s
  | .getMasked m => Sys2Proof.Machine.execGetMasked m s
  | .mask start n => Sys2Proof.Machine.execMask start n s
  | .iCheck => Sys2Proof.Machine.execICheck s
  | .iCfg k j => Sys2Proof.Machine.execICfg k j s
  | .iPull k j => Sys2Proof.Machine.execIPull k j s
  | .iMasks => Sys2Proof.Machine.execIMasks s
  | .iOverlap => Sys2Proof.Machine.execIOverlap s
  | .iFloat => Sys2Proof.Machine.execIFloat s
  | .iFill => Sys2Proof.Machine.execIFill s
  | .iStatus j => Sys2Proof.Machine.execIStatus j s
  | .lCs => Sys2Proof.Machine.execLCs s
  | .lDir => Sys2Proof.Machine.execLDir s
  | .lAddr => Sys2Proof.Machine.execLAddr s
  | .lRdout => Sys2Proof.Machine.execLRdout s
  | .lXor => Sys2Proof.Machine.execLXor s
  | .halted => Sys2Proof.Machine.execHalted s

end Sys2Proof.Machine
end

