-- ==== Sys2Proof/Machine/Master.lean ====
section
/-! DEFINITION. What one turn of the machine does (spec R22, R24, R106, R139): the bus master's turn (the next transaction of an
operation in progress, else the Sequencer's phase or the Test Master's next line), the Host's turn, and power-on. -/

namespace Sys2Proof.Machine

/-- The instruction of a phase (R27): the Sequencer's steps are fixed by its phase, not read from any memory (R65). -/
def phaseInstr : Phase → Instr
  | .iCheck => .iCheck
  | .iCfg k j => .iCfg k j
  | .iPull k j => .iPull k j
  | .iMasks => .iMasks
  | .iOverlap => .iOverlap
  | .iFloat => .iFloat
  | .iFill => .iFill
  | .iStatus j => .iStatus j
  | .lCs => .lCs
  | .lDir => .lDir
  | .lAddr => .lAddr
  | .lRdout => .lRdout
  | .lXor => .lXor
  | .halted => .halted

/-- Whether running an instruction is a step of its agent: `HALTED` has no step (R131) and `mask` is a function of its operands
(R92), so neither is followed by the records of R41 (log 7, log 18). -/
def takesStep : Instr → Bool
  | .halted => false
  | .mask _ _ => false
  | _ => true

/-- Whether an instruction is an operation a line may name (R76) or `mask` (R92). -/
def isOperation : Instr → Bool
  | .configure _ => true
  | .routeToPeripheral _ _ => true
  | .enablePulldown _ => true
  | .set _ => true
  | .clear _ => true
  | .putMasked _ _ => true
  | .setDirectionOutMasked _ => true
  | .setDirectionDisabledMasked _ => true
  | .get _ => true
  | .getMasked _ => true
  | .mask _ _ => true
  | _ => false

/-- What a line binds a name to after an operation: its result, for one that answers a value (R92, R104, R105). The spec gives `t = …` for
those only (R76); for any other operation the bound word is a free value (DESIGN CHOICE, log 34). -/
def boundResult (i : Instr) (t : State) : Word :=
  match i with
  | .get _ => opWord t.result
  | .getMasked _ => opWord t.result
  | .mask _ _ => opWord t.result
  | _ => Config.freeBinding t.draws

/-- Run an instruction and end the step (R41). -/
def runInstr (i : Instr) (s : State) : Answer :=
  andThen (exec i s) (fun t => .next (if takesStep i then settle t else t))

/-- The decoder's reason as a refusal (R72). -/
def rejected : Reject → Refusal
  | .badAccess => .badAccess
  | .wrongDirection => .wrongDirection
  | .unmapped => .unmapped

/-- Decode a request and run it: a refusal of the decoder comes before anything is done (R68, R72). -/
def runRequest (r : Request) (s : State) : Answer :=
  match decodeRequest s.cfg r with
  | .ok i => runInstr i s
  | .error e => .refused (rejected e)

/-- A transaction on a register the assembler names (R75): the request at the register's address. -/
def issue (write : Bool) (reg : Reg) (d : Word) (s : State) : Answer :=
  match regAddr s.cfg reg with
  | some a => runRequest { width := 32, write := write, addr := BitVec.ofNat 32 a, data := d } s
  | none => .refused .unmapped

/-- Bind a value to a name, where the line has one (R75). -/
def bindTo (bound : Option Nat) (value : State → Word) (t : State) : State :=
  match bound with
  | some n => { t with names := bindName n (value t) t.names }
  | none => t

/-- Run one line (R75, R76). -/
def runItem (it : Item) (s : State) : Answer :=
  match it with
  | .bus r => runRequest r s
  | .read bound reg => andThen (issue false reg 0 s) (fun t => .next (bindTo bound State.response t))
  | .write reg e =>
    match evalExpr s.draws s.names s.response 1 e with
    | .ok d => issue true reg d s
    | .error r => .refused r
  | .op bound i =>
    if isOperation i then andThen (runInstr i s) (fun t => .next (bindTo bound (boundResult i) t))
    else .refused .notAnOperation

/-- The bus master's turn: what is pending of the operation in progress (log 8), else the Sequencer's phase (R27, R106), else the
Test Master's next line; a Test Master whose finite list is used up does nothing (R24, log 21). -/
def masterTurn (s : State) : Answer :=
  match s.pending with
  | it :: rest => runItem it { s with pending := rest }
  | [] =>
    match s.master with
    | .sequencer => runInstr (phaseInstr s.phase) s
    | .testMaster [] => .next s
    | .testMaster (it :: rest) => runItem it { s with master := .testMaster rest }

/-- One turn: a configuration that is not admitted is refused, not run (R18, R49); else the schedule says whose turn it is, and an
empty schedule means the bus master's (log 9). -/
def takeTurn (s : State) : Answer :=
  if s.cfg.Admitted then
    match s.schedule with
    | [] => masterTurn s
    | .master :: rest => masterTurn { s with schedule := rest }
    | .host sets :: rest => .next (settle (hostSet sets { s with schedule := rest }))
    | .powerOn :: rest => .next (powerOn { s with schedule := rest })
  else .refused .config

/-- A machine whose bus master issues exactly one transaction next: the one whose bits are `w`, numbered as
spec/opcode_table.json numbers them, the bits above `nbits` zero (log 20). -/
def placeRequest (s : State) (nbits w : Nat) : State :=
  { s with
    master := .testMaster [.bus (if nbits ≤ 72 ∧ w < 2 ^ nbits then Request.ofBytes (tableBytes w) else Request.ofBytes [])]
    pending := []
    schedule := [] }

end Sys2Proof.Machine
end

