-- ==== Sys2Proof/Machine/Step.lean ====
section
/-! DEFINITION. The step of the machine, and the host's way of placing one transaction as the next to run. -/

namespace Sys2Proof.Machine

/-- One step of the machine (R22): one turn of one agent. -/
def step (s : State) : Host.Outcome State Fault Refusal := takeTurn s

/-- The state with one transaction placed as the next the machine runs (log 20). -/
def State.withFetchWord (s : State) (nbits w : Nat) : State := placeRequest s nbits w

end Sys2Proof.Machine
end

