-- ==== Sys2Proof/Safety.lean ====
section
/-! DEFINITION. What claims are stated in: the invariants of a machine run by the Sequencer, what a safe run is, and the turns that
leave given pins alone. Nothing here is part of the machine. -/

namespace Sys2Proof

/-- A data pin (R11). -/
def Config.DataPin (c : Config) (p : Nat) : Prop := c.dataStart ≤ p ∧ p < c.dataStart + c.dataBits

/-- The pins the Host has to hold for a stable read: the address pins and the chip-select pin (R140). -/
def Config.inputPins (c : Config) : List Nat := Machine.pinRange c.addrStart c.addrBits ++ [c.csPin]

end Sys2Proof

namespace Sys2Proof.Machine

/-- The loop's five phases (R123). -/
def Phase.inLoop : Phase → Bool
  | .lCs => true
  | .lDir => true
  | .lAddr => true
  | .lRdout => true
  | .lXor => true
  | _ => false

/-- The phases that follow a passed range check (R108). -/
def Phase.pastCheck : Phase → Bool
  | .iCheck => false
  | .halted => false
  | _ => true

/-- The phases that follow `I_MASKS` (R111). -/
def Phase.pastMasks : Phase → Bool
  | .iOverlap => true
  | .iFloat => true
  | .iFill => true
  | .iStatus _ => true
  | ph => ph.inLoop

/-- The phases that follow a passed overlap check (R112). -/
def Phase.pastOverlap : Phase → Bool
  | .iFloat => true
  | .iFill => true
  | .iStatus _ => true
  | ph => ph.inLoop

/-- The phases that follow the memory fill (R114). -/
def Phase.pastFill : Phase → Bool
  | .iStatus _ => true
  | ph => ph.inLoop

/-- How many entries of `CFG_LIST` have been configured before a phase (R109). -/
def Phase.configured (c : Config) : Phase → Nat
  | .iCheck => 0
  | .iCfg k _ => k
  | .halted => 0
  | _ => (cfgList c).length

/-- A phase of the table of R27 for the machine's parameters. -/
def Phase.InTable (c : Config) : Phase → Prop
  | .iCfg k _ => k < (cfgList c).length
  | .iPull k _ => k < (pullList c).length
  | _ => True

/-- The masks `I_MASKS` caches (R111). -/
def cachedMasks (c : Config) : Masks :=
  ⟨maskWord c.addrStart c.addrBits, maskWord c.dataStart c.dataBits, bitWord c.csPin, bitWord c.statusPin⟩

/-- The invariant of the Sequencer's control: the machine has an admitted configuration and no Test Master, its phase is one of the
table, every latch and mask its phase reads has been written, and the memory array is canonical, and filled after `I_FILL`. -/
structure ControlInv (s : State) : Prop where
  admitted : s.cfg.Admitted
  sequencer : s.master = .sequencer
  idle : s.pending = []
  romCanonical : Memory.wf s.rom
  halted_iff : s.phase = .halted ↔ ∃ e, s.status = .halt e
  rangeOk : s.phase.pastCheck = true → pinRangeError s.cfg = false
  inTable : s.phase.InTable s.cfg
  padLatch : ∀ k, s.phase = .iPull k 1 → ∃ q, (pullList s.cfg)[k]? = some q ∧ s.padL = some (s.padWord q)
  masksCached : s.phase.pastMasks = true → s.masks = some (cachedMasks s.cfg)
  disjoint : s.phase.pastOverlap = true → (cachedMasks s.cfg).addr &&& (cachedMasks s.cfg).data = 0
  romFilled : s.phase.pastFill = true → ∀ i, i < s.cfg.memLen → s.romAt i = some (imageByte s.cfg i)
  csLatch : s.phase = .lDir → ∃ cs, s.csL = some cs
  addrLatch : s.phase = .lRdout ∨ s.phase = .lXor → ∃ i, i < s.cfg.memLen ∧ s.addrL = some i
  outLatch : s.phase = .lXor → s.outL = some s.outWord

/-- A pin as `configure` leaves it for the bus (R95): routed to the simple I/O function, input enabled, driver not disabled. -/
def State.BusPin (s : State) (p : Nat) : Prop :=
  funcsel (s.ctrlWord p) = s.cfg.fSio ∧ padOd (s.padWord p) = false ∧ padIe (s.padWord p) = true

/-- The invariant of the pins under the Sequencer: outside the loop every output driver is off, in the loop only data pins and the
indicator can be enabled, every pin is routed to the simple I/O function or to nothing, and the configured entries of `CFG_LIST`
are as `configure` leaves them. -/
structure BusInv (s : State) : Prop where
  floats : s.phase.inLoop = false → s.oeWord = 0
  drivers : s.oeWord &&& ~~~((cachedMasks s.cfg).data ||| (cachedMasks s.cfg).status) = 0
  routed : ∀ p, p < s.cfg.pinCount → funcsel (s.ctrlWord p) = s.cfg.fSio ∨ funcsel (s.ctrlWord p) = s.cfg.fNull
  configured : ∀ i p, i < s.phase.configured s.cfg → (cfgList s.cfg)[i]? = some p → s.BusPin p
  half : ∀ k p, s.phase = .iCfg k 3 → (cfgList s.cfg)[k]? = some p → padOd (s.padWord p) = false ∧ padIe (s.padWord p) = true

/-- The Host holds the address pins at the raw address `raw` (R52, R140). -/
def State.AddressHeld (s : State) (raw : Nat) : Prop :=
  raw < 2 ^ s.cfg.addrBits ∧
  ∀ j, j < s.cfg.addrBits → s.extAt (s.cfg.addrStart + j) = if raw.testBit j then .high else .low

/-- Turns of the bus master and of a Host that leaves the pins of a list alone. -/
def Turn.Spares (keep : List Nat) : Turn → Prop
  | .master => True
  | .host sets => ∀ pe ∈ sets, pe.1 ∉ keep
  | .powerOn => False

/-- How many turns of a list are the bus master's. -/
def masterTurns (ts : List Turn) : Nat := ts.countP (fun t => t == .master)

/-- A run without contention: "a claim that the bus was never fought over takes no `CONTENTION` record as a premise" (R41). -/
def State.NoContention (s : State) : Prop := s.events = []

/-- Whether the Sequencer has an enabled step (R106, R131). -/
def State.SequencerEnabled (s : State) : Prop := s.master = .sequencer ∧ s.phase ≠ .halted

/-- What every machine's stored registers and memory array look like, whoever its bus master is: hardwired and reserved bits are 0
(R31, R32, R34, R36) and the array is canonical and inside `[0, L)` (R43). -/
structure StoredInv (s : State) : Prop where
  out : s.out &&& ~~~validMask s.cfg = 0
  oe : s.oe &&& ~~~validMask s.cfg = 0
  pad : ∀ w ∈ s.pad.toList, w &&& ~~~padFields = 0
  ctrl : ∀ w ∈ s.ctrl.toList, w &&& ~~~ctrlFields = 0
  romCanonical : Memory.wf s.rom
  romBounded : ∀ c ∈ s.rom, c.1 < s.cfg.memLen

/-- The Decoder-Mux's own state is the same in both: parameters, memory array, phase, status, latches and masks. -/
structure SameSequencer (s t : State) : Prop where
  cfg : t.cfg = s.cfg
  rom : t.rom = s.rom
  phase : t.phase = s.phase
  status : t.status = s.status
  csL : t.csL = s.csL
  addrL : t.addrL = s.addrL
  outL : t.outL = s.outL
  padL : t.padL = s.padL
  masks : t.masks = s.masks

/-- `k` steps of the machine, stopping at the first fault or refusal. -/
def runSteps : Nat → State → Answer
  | 0, s => .next s
  | k + 1, s => andThen (step s) (runSteps k)

/-- A Test Master machine about to run a list of lines, with nothing pending and the schedule `ts` ahead (R24). -/
structure Loaded (s : State) (lines : List Item) (ts later : List Turn) : Prop where
  admitted : s.cfg.Admitted
  idle : s.pending = []
  master : s.master = .testMaster lines
  schedule : s.schedule = ts ++ later
  noReset : ∀ x ∈ ts, Turn.Spares [] x

end Sys2Proof.Machine
end

