-- ==== Sys2Proof/Certificates/Slice0/Obligations.lean ====
section
/-! DEFINITION. The statements for the provers, one definition each; OBLIGATIONS.json lists them. -/

open Sys2Proof Sys2Proof.Machine

/-! ### Encoding -/

/-- Words written out from R71's keys decode to their operations, at the default bases. R71's table gives the 33-bit key alone: that a
write's `D` stands above it, at bits 40 to 71, is the model's layout (log 11), and so is that the bits above the word are zero
(log 20). -/
def Obligations.WordsOfTheTableDecode : Prop :=
  decodeTableWord 40 0x0D0000004 = some .rdIn ∧
  decodeTableWord 72 0x00000030_01_D0000014 = some (.wrOutSet 0x30) ∧
  decodeTableWord 72 0x00218000_01_D000001C = some (.wrOutXor 0x218000) ∧
  decodeTableWord 40 0x1D0000028 = some (.wrOeClr 0) ∧
  decodeTableWord 40 0x04001C004 = some (.rdPad 0) ∧
  decodeTableWord 72 0x00000053_01_4001C078 = some (.wrPad 29 0x53) ∧
  decodeTableWord 40 0x04001C07C = none ∧
  decodeTableWord 72 0x00000005_01_400140EC = some (.wrCtrl 29 5) ∧
  decodeTableWord 40 0x0400140F4 = none

/-- For every admitted configuration, a well-formed instruction that has an encoding is what its bytes decode to. -/
def Obligations.DecodeOfEncodeIsTheInstruction : Prop :=
  ∀ (c : Config) (i : Instr) (bytes : List Byte), c.Admitted → i.WellFormed c = true → encode c i = some bytes →
    decode c bytes = .ok i

/-- A request that decodes to an instruction is that instruction's encoding: same key, and for a write the same data (R67). So no
two keys stand for one operation. -/
def Obligations.RequestIsTheEncodingOfItsInstruction : Prop :=
  ∀ (c : Config) (r : Request) (i : Instr), c.Admitted → decodeRequest c r = .ok i →
    ∃ r', encodeRequest c i = some r' ∧ r'.key = r.key ∧ (r.write = true → r'.data = r.data)

/-- The refusals of the decoder (R72, R50, R51, R55): an unaligned or narrow access, a wrong direction, and any address the map does
not list. -/
def Obligations.DecoderRefusesByName : Prop :=
  ∀ (c : Config) (r : Request), c.Admitted →
    ((r.width ≠ 32 ∨ r.addr.toNat % 4 ≠ 0) → decodeRequest c r = .error .badAccess) ∧
    (r.width = 32 → r.addr.toNat % 4 = 0 →
      ((r.write = true ∧ r.addr.toNat = c.sioBase.toNat + 0x004) ∨
        (r.write = false ∧ ∃ o ∈ [0x014, 0x018, 0x01C, 0x024, 0x028, 0x02C], r.addr.toNat = c.sioBase.toNat + o)) →
      decodeRequest c r = .error .wrongDirection) ∧
    (r.width = 32 → r.addr.toNat % 4 = 0 →
      (∀ o ∈ [0x004, 0x010, 0x014, 0x018, 0x01C, 0x020, 0x024, 0x028, 0x02C], r.addr.toNat ≠ c.sioBase.toNat + o) →
      (∀ p, p < c.pinCount → r.addr.toNat ≠ c.padsBase.toNat + 0x004 + 4 * p ∧
        r.addr.toNat ≠ c.ioctrlBase.toNat + 0x004 + 8 * p) →
      decodeRequest c r = .error .unmapped)

/-! ### Steps, reset and agents -/

/-- A step of a Test Master machine runs the transaction its next request decodes to, and then records contention; a request the decoder
rejects is refused under the decoder's reason; and a step after a word has been placed with `withFetchWord` runs the instruction of that
word (how a word is placed is the model's choice, log 20). -/
def Obligations.StepRunsTheDecodedTransaction : Prop :=
  (∀ (s : State) (r : Request) (rest : List Item) (i : Instr), s.cfg.Admitted → s.schedule = [] → s.pending = [] →
    s.master = .testMaster (.bus r :: rest) → decodeRequest s.cfg r = .ok i →
    step s = andThen (exec i { s with master := .testMaster rest }) (fun t => .next (settle t))) ∧
  (∀ (s : State) (r : Request) (rest : List Item) (e : Reject), s.cfg.Admitted → s.schedule = [] → s.pending = [] →
    s.master = .testMaster (.bus r :: rest) → decodeRequest s.cfg r = .error e → step s = .refused (rejected e)) ∧
  (∀ (s : State) (nbits w : Nat) (i : Instr), s.cfg = Config.default → decodeTableWord nbits w = some i →
    step (s.withFetchWord nbits w) =
      andThen (exec i { s with master := .testMaster [], pending := [], schedule := [] }) (fun t => .next (settle t)))

/-- A step of the Sequencer runs the instruction of its phase, and then records contention (R27, R106). -/
def Obligations.StepRunsThePhase : Prop :=
  ∀ (s : State), s.cfg.Admitted → s.schedule = [] → s.pending = [] → s.master = .sequencer → s.phase ≠ .halted →
    step s = andThen (exec (phaseInstr s.phase) s) (fun t => .next (settle t))

/-- The machine right after reset holds the values of R46. -/
def Obligations.ResetHoldsTheSpecsValues : Prop :=
  State.reset.outWord = 0 ∧ State.reset.oeWord = 0 ∧
  (∀ p, p < State.reset.cfg.pinCount → State.reset.padWord p = 0x56 ∧ State.reset.ctrlWord p = 0x1F) ∧
  (∀ i, State.reset.romAt i = none) ∧ State.reset.phase = .iCheck ∧ State.reset.status = .run ∧
  State.reset.csL = none ∧ State.reset.addrL = none ∧ State.reset.outL = none ∧ State.reset.padL = none ∧
  State.reset.masks = none ∧ State.reset.events = []

/-- Power-on, from any state of an admitted machine, `HALTED` among them, leaves the values of R46; what the Host applies stays. For
an `F_NULL` other than 31 the reset of `CTRL[p]` is the model's reading (log 16), and that a power-on is a turn of the machine
is log 10. -/
def Obligations.PowerOnLeavesTheResetValues : Prop :=
  ∀ (s : State) (rest : List Turn), s.cfg.Admitted → s.schedule = .powerOn :: rest →
    ∃ t, step s = .next t ∧ t.outWord = 0 ∧ t.oeWord = 0 ∧
      (∀ p, p < s.cfg.pinCount → t.padWord p = 0x56 ∧ t.ctrlWord p = s.cfg.fNull.zeroExtend 32) ∧
      (∀ i, t.romAt i = none) ∧ t.phase = .iCheck ∧ t.status = .run ∧
      t.csL = none ∧ t.addrL = none ∧ t.outL = none ∧ t.padL = none ∧ t.masks = none ∧ t.events = [] ∧
      t.cfg = s.cfg ∧ t.ext = s.ext ∧ t.schedule = rest

/-- A Host step sets the pins it names, the last setting of a pin winning, and touches nothing else; the records of the step follow
(R139, R41). That a pin that does not exist is passed over is the model's choice (log 23); so are the schedule and the evaluation
count (log 9, log 5). -/
def Obligations.HostStepTouchesOnlyThePins : Prop :=
  ∀ (s : State) (sets : List (Nat × Ext)) (rest : List Turn), s.cfg.Admitted → s.schedule = .host sets :: rest →
    ∃ t, step s = .next t ∧
      (∀ p, p < s.cfg.pinCount →
        t.extAt p = match sets.reverse.find? (fun pe => pe.1 == p) with
          | some pe => pe.2
          | none => s.extAt p) ∧
      t = { s with ext := t.ext, events := t.events, draws := s.draws + 1, schedule := rest }

/-- The records of a step (R41): after a step of the Host or of a Sequencer that has one, a record is appended, in ascending order of
pins (log 18), for exactly the contended pins; of a pin routed to a peripheral nothing is said, since its drive is drawn. -/
def Obligations.StepRecordsExactlyTheContendedPins : Prop :=
  ∀ (s t : State), step s = .next t →
    ((∃ sets rest, s.schedule = .host sets :: rest) ∨
      (s.schedule = [] ∧ s.master = .sequencer ∧ s.pending = [] ∧ s.phase ≠ .halted)) →
    ∃ l : List Nat, t.events = s.events ++ l.map Event.contention ∧ l.Pairwise (· < ·) ∧
      ∀ p, (funcsel (t.ctrlWord p) = t.cfg.fSio ∨ funcsel (t.ctrlWord p) = t.cfg.fNull) →
        (p ∈ l ↔ p < t.cfg.pinCount ∧ funcsel (t.ctrlWord p) = t.cfg.fSio ∧ t.oeWord.getLsbD p = true ∧
          padOd (t.padWord p) = false ∧
          ((t.extAt p = .low ∧ t.outWord.getLsbD p = true) ∨ (t.extAt p = .high ∧ t.outWord.getLsbD p = false)))

/-- A configuration that fails a condition of R18 or R49 is refused, not run (R135); that each step refuses it is the model's way of
saying so (log 27). -/
def Obligations.IllFormedConfigurationIsRefused : Prop :=
  ∀ (s : State),
    (s.cfg.pinCount = 0 ∨ 32 < s.cfg.pinCount ∨ s.cfg.dataBits = 0 ∨ 8 < s.cfg.dataBits ∨ s.cfg.memLen = 0 ∨
      s.cfg.fSio = s.cfg.fNull ∨ s.cfg.csPin = s.cfg.statusPin ∨
      (∃ p, (p = s.cfg.csPin ∨ p = s.cfg.statusPin) ∧
        ((s.cfg.addrStart ≤ p ∧ p < s.cfg.addrStart + s.cfg.addrBits) ∨ s.cfg.DataPin p)) ∨
      (∃ b, (b = s.cfg.sioBase ∨ b = s.cfg.padsBase ∨ b = s.cfg.ioctrlBase) ∧ b.toNat % 4 ≠ 0) ∨
      (∃ a, s.cfg.sioBase.toNat ≤ a ∧ a < s.cfg.sioBase.toNat + 0x030 ∧ s.cfg.padsBase.toNat ≤ a ∧
        a < s.cfg.padsBase.toNat + (0x004 + 4 * s.cfg.pinCount)) ∨
      (∃ a, s.cfg.sioBase.toNat ≤ a ∧ a < s.cfg.sioBase.toNat + 0x030 ∧ s.cfg.ioctrlBase.toNat ≤ a ∧
        a < s.cfg.ioctrlBase.toNat + 8 * s.cfg.pinCount) ∨
      (∃ a, s.cfg.padsBase.toNat ≤ a ∧ a < s.cfg.padsBase.toNat + (0x004 + 4 * s.cfg.pinCount) ∧
        s.cfg.ioctrlBase.toNat ≤ a ∧ a < s.cfg.ioctrlBase.toNat + 8 * s.cfg.pinCount)) →
    step s = .refused .config

/-! ### Register transactions -/

/-- `RD_IN` (R77): every bit of the response, and nothing stored changes but the response and the evaluation count, which is the model's
own (log 5). -/
def Obligations.RdInSamplesEveryPin : Prop :=
  ∀ (s : State), ∃ t, exec .rdIn s = .next t ∧
    (∀ p, p < 32 → t.response.getLsbD p =
      if p < s.cfg.pinCount ∧ padIe (s.padWord p) = true then s.levelAt s.draws p else false) ∧
    t = { s with response := t.response, draws := s.draws + 1 }

/-- The drive and the level of a pin (R39, R40), at any evaluation, wherever the rules give a value. -/
def Obligations.PinLevelFollowsTheTable : Prop :=
  ∀ (s : State) (n p : Nat),
    (funcsel (s.ctrlWord p) = s.cfg.fSio →
      (s.drivesAt n p = true ↔ s.oeWord.getLsbD p = true ∧ padOd (s.padWord p) = false) ∧
      s.drivenValueAt n p = s.outWord.getLsbD p) ∧
    (funcsel (s.ctrlWord p) ≠ s.cfg.fSio → funcsel (s.ctrlWord p) = s.cfg.fNull → s.drivesAt n p = false) ∧
    (s.drivesAt n p = true → s.extAt p = .z → s.levelAt n p = s.drivenValueAt n p) ∧
    (s.drivesAt n p = true → s.extAt p = .high → s.drivenValueAt n p = true → s.levelAt n p = true) ∧
    (s.drivesAt n p = true → s.extAt p = .low → s.drivenValueAt n p = false → s.levelAt n p = false) ∧
    (s.drivesAt n p = false → s.extAt p = .high → s.levelAt n p = true) ∧
    (s.drivesAt n p = false → s.extAt p = .low → s.levelAt n p = false) ∧
    (s.drivesAt n p = false → s.extAt p = .z → padPue (s.padWord p) = true → padPde (s.padWord p) = false →
      s.levelAt n p = true) ∧
    (s.drivesAt n p = false → s.extAt p = .z → padPue (s.padWord p) = false → padPde (s.padWord p) = true →
      s.levelAt n p = false)

/-- `RD_OUT` and `RD_OE` (R78, R83): the response is the register, whether or not the pins drive, bits of absent pins 0, and nothing
else changes. -/
def Obligations.RdOutAndRdOeReadTheRegister : Prop :=
  ∀ (s : State),
    exec .rdOut s = .next { s with response := s.outWord } ∧ exec .rdOe s = .next { s with response := s.oeWord } ∧
    (∀ p, s.cfg.pinCount ≤ p → s.outWord.getLsbD p = false ∧ s.oeWord.getLsbD p = false)

/-- `WR_OUT`, `WR_OUT_SET`, `WR_OUT_CLR`, `WR_OUT_XOR` (R79 to R82): the new `OUT`, and nothing else changes. -/
def Obligations.OutWritesGiveTheNewLevels : Prop :=
  ∀ (s : State) (d : Word),
    (∃ t, exec (.wrOut d) s = .next t ∧ t.outWord = d &&& validMask s.cfg ∧ t = { s with out := t.out }) ∧
    (∃ t, exec (.wrOutSet d) s = .next t ∧ t.outWord = (s.outWord ||| d) &&& validMask s.cfg ∧ t = { s with out := t.out }) ∧
    (∃ t, exec (.wrOutClr d) s = .next t ∧ t.outWord = s.outWord &&& ~~~d ∧ t = { s with out := t.out }) ∧
    (∃ t, exec (.wrOutXor d) s = .next t ∧ t.outWord = (s.outWord ^^^ d) &&& validMask s.cfg ∧ t = { s with out := t.out })

/-- `WR_OE`, `WR_OE_SET`, `WR_OE_CLR`, `WR_OE_XOR` (R84 to R87): the new `OE`, and nothing else changes. -/
def Obligations.OeWritesGiveTheNewEnables : Prop :=
  ∀ (s : State) (d : Word),
    (∃ t, exec (.wrOe d) s = .next t ∧ t.oeWord = d &&& validMask s.cfg ∧ t = { s with oe := t.oe }) ∧
    (∃ t, exec (.wrOeSet d) s = .next t ∧ t.oeWord = (s.oeWord ||| d) &&& validMask s.cfg ∧ t = { s with oe := t.oe }) ∧
    (∃ t, exec (.wrOeClr d) s = .next t ∧ t.oeWord = s.oeWord &&& ~~~d ∧ t = { s with oe := t.oe }) ∧
    (∃ t, exec (.wrOeXor d) s = .next t ∧ t.oeWord = (s.oeWord ^^^ d) &&& validMask s.cfg ∧ t = { s with oe := t.oe })

/-- Lane by lane (R93): what a masked write leaves in lane `p` depends on lane `p` of its operand and of the old register only. -/
def Obligations.LanesAreIndependent : Prop :=
  ∀ (s s' : State) (d d' : Word) (p : Nat), s.cfg = s'.cfg → d.getLsbD p = d'.getLsbD p →
    s.outWord.getLsbD p = s'.outWord.getLsbD p → s.oeWord.getLsbD p = s'.oeWord.getLsbD p →
    ∀ i ∈ [(Instr.wrOut d, Instr.wrOut d'), (.wrOutSet d, .wrOutSet d'), (.wrOutClr d, .wrOutClr d'), (.wrOutXor d, .wrOutXor d'),
        (.wrOe d, .wrOe d'), (.wrOeSet d, .wrOeSet d'), (.wrOeClr d, .wrOeClr d'), (.wrOeXor d, .wrOeXor d')],
      ∃ t t', exec i.1 s = .next t ∧ exec i.2 s' = .next t' ∧ t.outWord.getLsbD p = t'.outWord.getLsbD p ∧
        t.oeWord.getLsbD p = t'.oeWord.getLsbD p

/-- `RD_PAD` and `WR_PAD` on an existing pin (R88, R89). -/
def Obligations.PadTransactionsReadAndWrite : Prop :=
  ∀ (s : State) (p : Nat) (d : Word), s.cfg.PinOk p →
    exec (.rdPad p) s = .next { s with response := s.padWord p } ∧ s.padWord p >>> 8 = 0 ∧
    (d >>> 8 = 0 → ∃ t, exec (.wrPad p d) s = .next t ∧ t.padWord p = d ∧ (∀ q, q ≠ p → t.padWord q = s.padWord q) ∧
      t = { s with pad := t.pad }) ∧
    (d >>> 8 ≠ 0 → exec (.wrPad p d) s = .refused .reservedBits)

/-- `RD_CTRL` and `WR_CTRL` on an existing pin (R90, R91). -/
def Obligations.CtrlTransactionsReadAndWrite : Prop :=
  ∀ (s : State) (p : Nat) (d : Word), s.cfg.PinOk p →
    exec (.rdCtrl p) s = .next { s with response := s.ctrlWord p } ∧ s.ctrlWord p >>> 5 = 0 ∧
    (d >>> 5 = 0 → ∃ t, exec (.wrCtrl p d) s = .next t ∧ t.ctrlWord p = d ∧ (∀ q, q ≠ p → t.ctrlWord q = s.ctrlWord q) ∧
      t = { s with ctrl := t.ctrl }) ∧
    (d >>> 5 ≠ 0 → exec (.wrCtrl p d) s = .refused .reservedBits)

/-- A per-pin transaction of a pin that does not exist is refused (R50). -/
def Obligations.AbsentPinTransactionsAreRefused : Prop :=
  ∀ (s : State) (p : Nat) (d : Word), s.cfg.pinCount ≤ p →
    exec (.rdPad p) s = .refused .unmapped ∧ exec (.wrPad p d) s = .refused .unmapped ∧
    exec (.rdCtrl p) s = .refused .unmapped ∧ exec (.wrCtrl p d) s = .refused .unmapped

/-- The stored registers and the memory array keep their form at every step of every machine, whoever the bus master is: hardwired
and reserved bits stay 0, the array stays canonical and inside `[0, L)` (R31, R32, R34, R36, R43). -/
def Obligations.StepKeepsTheStoredForm : Prop :=
  ∀ (s t : State), StoredInv s → step s = .next t → StoredInv t

/-! ### Pin Bank operations -/

/-- `mask(s, n)`: the value and the domain are R92's, which gives a function only; that it runs as an instruction, leaving its value in
`result` and changing nothing else, is the model's choice (log 29). -/
def Obligations.MaskIsTheContiguousRange : Prop :=
  ∀ (s : State) (a n : Nat),
    (a + n ≤ 32 → ∃ w, exec (.mask a n) s = .next { s with result := .word w } ∧
      (∀ i, i < 32 → (w.getLsbD i = true ↔ a ≤ i ∧ i < a + n)) ∧ popcount w = n) ∧
    (32 < a + n → exec (.mask a n) s = .refused .badRange)

/-- A pin or a mask outside an operation's precondition is refused before its first transaction (R94). -/
def Obligations.OperationsRefuseOutsideTheirPrecondition : Prop :=
  ∀ (s : State) (p f : Nat) (m v : Word),
    (s.cfg.pinCount ≤ p →
      exec (.configure p) s = .refused .precondition ∧ exec (.routeToPeripheral p f) s = .refused .precondition ∧
      exec (.enablePulldown p) s = .refused .precondition ∧ exec (.get p) s = .refused .precondition) ∧
    ((∃ i, s.cfg.pinCount ≤ i ∧ m.getLsbD i = true) →
      exec (.set m) s = .refused .precondition ∧ exec (.clear m) s = .refused .precondition ∧
      exec (.putMasked m v) s = .refused .precondition ∧ exec (.setDirectionOutMasked m) s = .refused .precondition ∧
      exec (.setDirectionDisabledMasked m) s = .refused .precondition ∧ exec (.getMasked m) s = .refused .precondition)

/-- `set m` and `clear m` (R98, R99). -/
def Obligations.SetAndClearForceTheLevels : Prop :=
  ∀ (s : State) (m : Word), s.cfg.MaskOk m →
    (∃ t, exec (.set m) s = .next t ∧ t.outWord = s.outWord ||| m ∧ t = { s with out := t.out }) ∧
    (∃ t, exec (.clear m) s = .next t ∧ t.outWord = s.outWord &&& ~~~m ∧ t = { s with out := t.out })

/-- `set_direction_out_masked m` and `set_direction_disabled_masked m` (R102, R103): the new `OE`, and what it means for the pins of
`m` that are routed to the simple I/O function. -/
def Obligations.DirectionOperationsDriveAndRelease : Prop :=
  ∀ (s : State) (m : Word), s.cfg.MaskOk m →
    (∃ t, exec (.setDirectionOutMasked m) s = .next t ∧ t.oeWord = s.oeWord ||| m ∧ t = { s with oe := t.oe } ∧
      ∀ n p, m.getLsbD p = true → funcsel (s.ctrlWord p) = s.cfg.fSio → padOd (s.padWord p) = false →
        t.drivesAt n p = true ∧ t.drivenValueAt n p = s.outWord.getLsbD p) ∧
    (∃ t, exec (.setDirectionDisabledMasked m) s = .next t ∧ t.oeWord = s.oeWord &&& ~~~m ∧ t = { s with oe := t.oe } ∧
      ∀ n p, m.getLsbD p = true → (funcsel (s.ctrlWord p) = s.cfg.fSio ∨ funcsel (s.ctrlWord p) = s.cfg.fNull) →
        t.drivesAt n p = false)

/-- `configure p` stops the pin driving before anything else changes, and leaves its other three transactions to the bus master's next
turns, in order (R95; the granularity is log 8). -/
def Obligations.ConfigureIssuesItsFirstTransaction : Prop :=
  ∀ (s : State) (p : Nat), s.cfg.PinOk p →
    ∃ t, exec (.configure p) s = .next t ∧ t.oeWord = s.oeWord &&& ~~~bitWord p ∧
      t.pending = [.write .outClr (.bit p), .write (.pad p) (.const 0x53),
        .write (.ctrl p) (.const (s.cfg.fSio.zeroExtend 32))] ++ s.pending ∧
      t = { s with oe := t.oe, pending := t.pending }

/-- The result of `configure p` (R95), with any Host steps between its four transactions (the granularity is log 8). -/
def Obligations.ConfigureSetsTheDefaultInputState : Prop :=
  ∀ (s : State) (p : Nat) (lines : List Item) (ts later : List Turn), Loaded s (.op none (.configure p) :: lines) ts later →
    p < s.cfg.pinCount → masterTurns ts = 4 →
    ∃ t, runSteps ts.length s = .next t ∧ Loaded t lines [] later ∧
      t.oeWord = s.oeWord &&& ~~~bitWord p ∧ t.outWord = s.outWord &&& ~~~bitWord p ∧
      t.padWord p = 0x53 ∧ t.ctrlWord p = s.cfg.fSio.zeroExtend 32 ∧
      (∀ q, q ≠ p → t.padWord q = s.padWord q ∧ t.ctrlWord q = s.ctrlWord q) ∧ SameSequencer s t

/-- `configure p` twice leaves what once leaves (R95, DOC §8): the registers after eight transactions are those after four (log 8). -/
def Obligations.ConfigureIsIdempotent : Prop :=
  ∀ (s : State) (p : Nat) (lines : List Item),
    Loaded s (.op none (.configure p) :: .op none (.configure p) :: lines) [] [] → p < s.cfg.pinCount →
    ∃ t u, runSteps 4 s = .next t ∧ runSteps 8 s = .next u ∧ u.outWord = t.outWord ∧ u.oeWord = t.oeWord ∧
      (∀ q, u.padWord q = t.padWord q ∧ u.ctrlWord q = t.ctrlWord q) ∧ t.padWord p = 0x53

/-- `route_to_peripheral p, f` (R96): the function number written, nothing else changed; a function number it does not take is refused. -/
def Obligations.RouteToPeripheralRebindsThePin : Prop :=
  ∀ (s : State) (p f : Nat), s.cfg.PinOk p →
    (f ≤ 31 → f ≠ s.cfg.fSio.toNat →
      ∃ t, exec (.routeToPeripheral p f) s = .next t ∧ t.ctrlWord p = BitVec.ofNat 32 f ∧
        (funcsel (t.ctrlWord p)).toNat = f ∧ t.ctrlWord p >>> 5 = 0 ∧ (∀ q, q ≠ p → t.ctrlWord q = s.ctrlWord q) ∧
        t = { s with ctrl := t.ctrl }) ∧
    ((31 < f ∨ f = s.cfg.fSio.toNat) → exec (.routeToPeripheral p f) s = .refused .precondition)

/-- `enable_pulldown p` reads the pad first and leaves the write to the bus master's next turn (R97; log 8). -/
def Obligations.EnablePulldownReadsThePadFirst : Prop :=
  ∀ (s : State) (p : Nat), s.cfg.PinOk p →
    exec (.enablePulldown p) s = .next { s with
      response := s.padWord p,
      pending := .write (.pad p) (.or .response (.const 0x04)) :: s.pending }

/-- The result of `enable_pulldown p` (R97), with any Host steps between its two transactions (log 8). -/
def Obligations.EnablePulldownSetsOneField : Prop :=
  ∀ (s : State) (p : Nat) (lines : List Item) (ts later : List Turn), Loaded s (.op none (.enablePulldown p) :: lines) ts later →
    p < s.cfg.pinCount → masterTurns ts = 2 →
    ∃ t, runSteps ts.length s = .next t ∧ Loaded t lines [] later ∧ t.padWord p = s.padWord p ||| 0x04 ∧
      padPde (t.padWord p) = true ∧ (∀ q, q ≠ p → t.padWord q = s.padWord q) ∧ (∀ q, t.ctrlWord q = s.ctrlWord q) ∧
      t.outWord = s.outWord ∧ t.oeWord = s.oeWord ∧ SameSequencer s t

/-- `put_masked m, v` reads `OUT` first and leaves the toggle write of exactly the bits that must flip to the bus master's next turn
(R100; log 8). -/
def Obligations.PutMaskedReadsTheLevelsFirst : Prop :=
  ∀ (s : State) (m v : Word), s.cfg.MaskOk m →
    ∃ e, exec (.putMasked m v) s = .next { s with response := s.outWord, pending := .write .outXor e :: s.pending } ∧
      ∀ n k env q, evalExpr n env q k e = .ok ((q ^^^ v) &&& m)

/-- The result of `put_masked m, v` (R100), with any Host steps between its two transactions (log 8). -/
def Obligations.PutMaskedUpdatesExactlyTheMask : Prop :=
  ∀ (s : State) (m v : Word) (lines : List Item) (ts later : List Turn), Loaded s (.op none (.putMasked m v) :: lines) ts later →
    s.cfg.MaskOk m → masterTurns ts = 2 →
    ∃ t, runSteps ts.length s = .next t ∧ Loaded t lines [] later ∧ t.outWord = (s.outWord &&& ~~~m) ||| (v &&& m) ∧
      t.oeWord = s.oeWord ∧ (∀ q, t.padWord q = s.padWord q ∧ t.ctrlWord q = s.ctrlWord q) ∧ SameSequencer s t

/-- The laws of `put_masked` (R101): confinement, composition over disjoint masks in either order, and idempotence. -/
def Obligations.PutMaskedLaws : Prop :=
  ∀ (s : State) (m₁ m₂ a b : Word) (lines : List Item),
    Loaded s (.op none (.putMasked m₁ a) :: .op none (.putMasked m₂ b) :: lines) [] [] → s.cfg.MaskOk m₁ → s.cfg.MaskOk m₂ →
    (∃ t, runSteps 2 s = .next t ∧ ∀ i, m₁.getLsbD i = false → t.outWord.getLsbD i = s.outWord.getLsbD i) ∧
    (m₁ &&& m₂ = 0 → ∃ t u, runSteps 4 s = .next t ∧
      runSteps 4 { s with master := .testMaster (.op none (.putMasked m₂ b) :: .op none (.putMasked m₁ a) :: lines) } = .next u ∧
      t.outWord = (s.outWord &&& ~~~m₁ &&& ~~~m₂) ||| (a &&& m₁) ||| (b &&& m₂) ∧ u.outWord = t.outWord) ∧
    (m₁ = m₂ → a = b → ∃ t u, runSteps 2 s = .next t ∧ runSteps 4 s = .next u ∧ flips t.outWord a m₁ = 0 ∧
      u.outWord = t.outWord)

/-- `get p` and `get_masked m` (R104, R105): one read of `IN`, its response restricted to the operand, nothing else changed. -/
def Obligations.GetAndGetMaskedSampleOnce : Prop :=
  ∀ (s : State) (p : Nat) (m : Word),
    (s.cfg.PinOk p → ∃ t, exec (.get p) s = .next t ∧ exec .rdIn s = .next { t with result := s.result } ∧
      t.result = .bool (t.response.getLsbD p) ∧ t = { s with response := t.response, result := t.result, draws := s.draws + 1 }) ∧
    (s.cfg.MaskOk m → ∃ t, exec (.getMasked m) s = .next t ∧ exec .rdIn s = .next { t with result := s.result } ∧
      t.result = .word (t.response &&& m) ∧ t = { s with response := t.response, result := t.result, draws := s.draws + 1 })

/-! ### The Sequencer's phases -/

/-- `I_CHECK` (R108). -/
def Obligations.CheckHaltsOnAPinOutOfRange : Prop :=
  ∀ (s : State),
    ((s.cfg.addrStart + s.cfg.addrBits > s.cfg.pinCount ∨ s.cfg.dataStart + s.cfg.dataBits > s.cfg.pinCount ∨
        s.cfg.csPin ≥ s.cfg.pinCount ∨ s.cfg.statusPin ≥ s.cfg.pinCount ∨ ∃ q ∈ s.cfg.pulldownPins, q ≥ s.cfg.pinCount) →
      exec .iCheck s = .next { s with status := .halt .pinRange, phase := .halted }) ∧
    (s.cfg.addrStart + s.cfg.addrBits ≤ s.cfg.pinCount → s.cfg.dataStart + s.cfg.dataBits ≤ s.cfg.pinCount →
      s.cfg.csPin < s.cfg.pinCount → s.cfg.statusPin < s.cfg.pinCount → (∀ q ∈ s.cfg.pulldownPins, q < s.cfg.pinCount) →
      exec .iCheck s = .next { s with phase := .iCfg 0 0 })

/-- `I_CFG(k, j)` (R109): the four transactions of `configure CFG_LIST[k]`, one a phase, and the successors. -/
def Obligations.CfgPhasesConfigureTheListedPin : Prop :=
  ∀ (s : State) (k p : Nat), (cfgList s.cfg)[k]? = some p → s.cfg.PinOk p →
    (∃ t, exec (.iCfg k 0) s = .next t ∧ t.oeWord = s.oeWord &&& ~~~bitWord p ∧ t.phase = .iCfg k 1 ∧
      t = { s with oe := t.oe, phase := t.phase }) ∧
    (∃ t, exec (.iCfg k 1) s = .next t ∧ t.outWord = s.outWord &&& ~~~bitWord p ∧ t.phase = .iCfg k 2 ∧
      t = { s with out := t.out, phase := t.phase }) ∧
    (∃ t, exec (.iCfg k 2) s = .next t ∧ t.padWord p = 0x53 ∧ (∀ q, q ≠ p → t.padWord q = s.padWord q) ∧ t.phase = .iCfg k 3 ∧
      t = { s with pad := t.pad, phase := t.phase }) ∧
    (∃ t, exec (.iCfg k 3) s = .next t ∧ t.ctrlWord p = s.cfg.fSio.zeroExtend 32 ∧ (∀ q, q ≠ p → t.ctrlWord q = s.ctrlWord q) ∧
      t.phase = (if k + 1 < (cfgList s.cfg).length then .iCfg (k + 1) 0
        else if s.cfg.pulldownPins ≠ [] then .iPull 0 0 else .iMasks) ∧
      t = { s with ctrl := t.ctrl, phase := t.phase })

/-- `I_PULL(k, j)` (R110): the two transactions of `enable_pulldown` on the `k`-th pin of `PULLDOWN_PINS`, taken in ascending order. That
the read of `j = 0` also leaves its `Q` in `response` is the model's choice (log 30). -/
def Obligations.PullPhasesEnableThePullDown : Prop :=
  (∀ c : Config, (pullList c).Pairwise (· < ·) ∧ ∀ q, q ∈ pullList c ↔ q ∈ c.pulldownPins) ∧
  ∀ (s : State) (k q : Nat), (pullList s.cfg)[k]? = some q → s.cfg.PinOk q →
    exec (.iPull k 0) s = .next { s with padL := some (s.padWord q), response := s.padWord q, phase := .iPull k 1 } ∧
    (∀ w, s.padL = some w → w >>> 8 = 0 →
      ∃ t, exec (.iPull k 1) s = .next t ∧ t.padWord q = w ||| 0x04 ∧ (∀ p, p ≠ q → t.padWord p = s.padWord p) ∧
        t.phase = (if k + 1 < (pullList s.cfg).length then .iPull (k + 1) 0 else .iMasks) ∧
        t = { s with pad := t.pad, phase := t.phase })

/-- `I_MASKS` (R111): the four masks, bit by bit. -/
def Obligations.MasksPhaseCachesTheMasks : Prop :=
  ∀ (s : State), s.cfg.addrStart + s.cfg.addrBits ≤ 32 → s.cfg.dataStart + s.cfg.dataBits ≤ 32 →
    ∃ m, exec .iMasks s = .next { s with masks := some m, phase := .iOverlap } ∧
      ∀ p, p < 32 →
        (m.addr.getLsbD p = true ↔ s.cfg.addrStart ≤ p ∧ p < s.cfg.addrStart + s.cfg.addrBits) ∧
        (m.data.getLsbD p = true ↔ s.cfg.DataPin p) ∧
        (m.cs.getLsbD p = true ↔ p = s.cfg.csPin) ∧ (m.status.getLsbD p = true ↔ p = s.cfg.statusPin)

/-- `I_OVERLAP` (R112). -/
def Obligations.OverlapPhaseHaltsOrGoesOn : Prop :=
  ∀ (s : State) (m : Masks), s.masks = some m →
    (m.addr &&& m.data ≠ 0 → exec .iOverlap s = .next { s with status := .halt .overlap, phase := .halted }) ∧
    (m.addr &&& m.data = 0 → exec .iOverlap s = .next { s with phase := .iFloat })

/-- `I_FLOAT` (R113). -/
def Obligations.FloatPhaseReleasesTheDataBus : Prop :=
  ∀ (s : State) (m : Masks), s.masks = some m →
    ∃ t, exec .iFloat s = .next t ∧ t.oeWord = s.oeWord &&& ~~~m.data ∧ t.phase = .iFill ∧
      t = { s with oe := t.oe, phase := t.phase }

/-- `I_FILL` (R114): every byte of the array, from a canonical array; cells outside `[0, L)` stay without a value. -/
def Obligations.FillPhasePopulatesTheArray : Prop :=
  ∀ (s : State), Memory.wf s.rom →
    ∃ t, exec .iFill s = .next t ∧
      (∀ i, i < s.cfg.memLen → t.romAt i = some (if h : i < s.cfg.image.length then s.cfg.image[i] else s.cfg.fillByte)) ∧
      (∀ i, s.cfg.memLen ≤ i → t.romAt i = none) ∧ t.phase = .iStatus 0 ∧ t = { s with rom := t.rom, phase := t.phase }

/-- `I_STATUS(j)` (R115): `configure STATUS_PIN`, then the level, then the driver. -/
def Obligations.StatusPhasesLightTheIndicator : Prop :=
  ∀ (s : State) (m : Masks), s.masks = some m → s.cfg.PinOk s.cfg.statusPin →
    (∃ t, exec (.iStatus 0) s = .next t ∧ t.oeWord = s.oeWord &&& ~~~bitWord s.cfg.statusPin ∧ t.phase = .iStatus 1 ∧
      t = { s with oe := t.oe, phase := t.phase }) ∧
    (∃ t, exec (.iStatus 1) s = .next t ∧ t.outWord = s.outWord &&& ~~~bitWord s.cfg.statusPin ∧ t.phase = .iStatus 2 ∧
      t = { s with out := t.out, phase := t.phase }) ∧
    (∃ t, exec (.iStatus 2) s = .next t ∧ t.padWord s.cfg.statusPin = 0x53 ∧
      (∀ q, q ≠ s.cfg.statusPin → t.padWord q = s.padWord q) ∧ t.phase = .iStatus 3 ∧
      t = { s with pad := t.pad, phase := t.phase }) ∧
    (∃ t, exec (.iStatus 3) s = .next t ∧ t.ctrlWord s.cfg.statusPin = s.cfg.fSio.zeroExtend 32 ∧
      (∀ q, q ≠ s.cfg.statusPin → t.ctrlWord q = s.ctrlWord q) ∧ t.phase = .iStatus 4 ∧
      t = { s with ctrl := t.ctrl, phase := t.phase }) ∧
    (∃ t, exec (.iStatus 4) s = .next t ∧ t.outWord = (s.outWord ||| m.status) &&& validMask s.cfg ∧ t.phase = .iStatus 5 ∧
      t = { s with out := t.out, phase := t.phase }) ∧
    (∃ t, exec (.iStatus 5) s = .next t ∧ t.oeWord = (s.oeWord ||| m.status) &&& validMask s.cfg ∧ t.phase = .lCs ∧
      t = { s with oe := t.oe, phase := t.phase })

/-- `L_CS` (R116): one read of `IN`, and the chip-select bits of its response. -/
def Obligations.CsPhaseSamplesChipSelect : Prop :=
  ∀ (s : State) (m : Masks), s.masks = some m →
    ∃ t q, exec .lCs s = .next t ∧ exec .rdIn s = .next { s with response := q, draws := s.draws + 1 } ∧
      t = { s with response := q, draws := s.draws + 1, csL := some (q &&& m.cs), phase := .lDir }

/-- `L_DIR` (R118, R117): the direction follows this iteration's sample alone. -/
def Obligations.DirPhaseFollowsChipSelect : Prop :=
  ∀ (s : State) (m : Masks) (cs : Word), s.masks = some m → s.csL = some cs →
    ∃ t, exec .lDir s = .next t ∧
      t.oeWord = (if cs ≠ 0 then (s.oeWord ||| m.data) &&& validMask s.cfg else s.oeWord &&& ~~~m.data) ∧
      t.phase = .lAddr ∧ t = { s with oe := t.oe, phase := t.phase }

/-- `L_ADDR` (R119, R120): one read of `IN`, the address bits of its response shifted to a number and reduced modulo `L`. -/
def Obligations.AddrPhaseCapturesTheReducedAddress : Prop :=
  ∀ (s : State) (m : Masks), s.masks = some m →
    ∃ t q, exec .lAddr s = .next t ∧ exec .rdIn s = .next { s with response := q, draws := s.draws + 1 } ∧
      t = { s with response := q, draws := s.draws + 1, phase := .lRdout,
                   addrL := some (((q &&& m.addr) >>> s.cfg.addrStart).toNat % s.cfg.memLen) } ∧
      (1 ≤ s.cfg.memLen → ∃ i, t.addrL = some i ∧ i < s.cfg.memLen)

/-- `L_RDOUT` and `L_XOR` (R121, R122): the read, the lookup, the toggle write, and what the pair leaves on the data bits when the
latch still is the output register. That the read of `L_RDOUT` also leaves its `Q` in `response` is the model's choice (log 30). -/
def Obligations.LookupPhasesPutTheByteOnTheBus : Prop :=
  (∀ s : State, exec .lRdout s = .next { s with response := s.outWord, outL := some s.outWord, phase := .lXor }) ∧
  ∀ (s : State) (m : Masks) (i : Nat) (o : Word) (b : Byte), s.masks = some m → s.addrL = some i → s.outL = some o →
    s.romAt i = some b →
    ∃ t, exec .lXor s = .next t ∧
      t.outWord = (s.outWord ^^^ ((o ^^^ (b.zeroExtend 32 <<< s.cfg.dataStart)) &&& m.data)) &&& validMask s.cfg ∧
      t.phase = .lCs ∧ t = { s with out := t.out, phase := t.phase } ∧
      (o = s.outWord → m.data &&& ~~~validMask s.cfg = 0 →
        t.outWord &&& m.data = (b.zeroExtend 32 <<< s.cfg.dataStart) &&& m.data ∧
        t.outWord &&& ~~~m.data = s.outWord &&& ~~~m.data)

/-- A read of a latch no phase has written is a fault (R29). The cached masks hold no value before `I_MASKS` (R30), but no rule makes a
read of one a fault: each reads as a free value then, whatever it is, and is not written by the read (log 6). -/
def Obligations.UnwrittenLatchFaultsUnwrittenMaskIsFree : Prop :=
  ∀ (s : State),
    (s.csL = none → exec .lDir s = .fault .latchEmpty) ∧
    ((s.addrL = none ∨ s.outL = none) → exec .lXor s = .fault .latchEmpty) ∧
    (∀ k, k < (pullList s.cfg).length → s.padL = none → exec (.iPull k 1) s = .fault .latchEmpty) ∧
    (s.masks = none →
      ∀ i ∈ [Instr.iOverlap, .iFloat, .iStatus 4, .iStatus 5, .lCs, .lDir, .lAddr, .lXor],
        exec i s = andThen (exec i { s with masks := some s.heldMasks }) (fun t => .next { t with masks := none }))

/-! ### The machine under the Sequencer -/

/-- `HALTED` has no step (R131): its turn changes nothing. And the machine stays halted, with every register, latch and the code as they
are, through any turns of the Sequencer and the Host; only power-on leaves it (R134). -/
def Obligations.HaltedStaysHalted : Prop :=
  (∀ s : State, exec .halted s = .next s) ∧
  ∀ (s : State) (ts later : List Turn), s.cfg.Admitted → s.master = .sequencer → s.pending = [] → s.phase = .halted →
    s.schedule = ts ++ later → (∀ x ∈ ts, Turn.Spares [] x) →
    ∃ t, runSteps ts.length s = .next t ∧
      t = { s with ext := t.ext, events := t.events, draws := t.draws, schedule := later }

/-- The loop has no exit (R123), and its phases come in order, the direction write before the data write (R150). -/
def Obligations.LoopNeverExits : Prop :=
  ∀ (s t : State) (rest : List Turn), s.master = .sequencer → s.pending = [] → s.phase.inLoop = true → step s = .next t →
    (∀ sets, s.schedule = .host sets :: rest → t.phase = s.phase ∧ t.status = s.status) ∧
    ((s.schedule = [] ∨ s.schedule = .master :: rest) → t.status = s.status ∧
      (s.phase = .lCs → t.phase = .lDir) ∧ (s.phase = .lDir → t.phase = .lAddr) ∧ (s.phase = .lAddr → t.phase = .lRdout) ∧
      (s.phase = .lRdout → t.phase = .lXor) ∧ (s.phase = .lXor → t.phase = .lCs))

/-- The memory array is written at `I_FILL` only and the cached masks at `I_MASKS` only, and neither phase comes twice: the step that
writes leads past its phase, and no step but power-on leads back (R60, R30); power-on empties both. -/
def Obligations.ArrayAndMasksAreWrittenOnce : Prop :=
  ∀ (s t : State), s.master = .sequencer → s.pending = [] → step s = .next t → (∀ rest, s.schedule ≠ .powerOn :: rest) →
    (s.phase ≠ .iFill → t.rom = s.rom) ∧
    (s.phase = .iFill → (t.phase = .iFill ∧ t.rom = s.rom) ∨ t.phase.pastFill = true) ∧
    (s.phase.pastFill = true → t.phase.pastFill = true) ∧
    (s.phase ≠ .iMasks → t.masks = s.masks) ∧
    (s.phase = .iMasks → (t.phase = .iMasks ∧ t.masks = s.masks) ∨ t.phase.pastMasks = true) ∧
    (s.phase.pastMasks = true ∨ s.phase = .halted → t.phase.pastMasks = true ∨ t.phase = .halted)

/-- The reset state meets every invariant: of the stored registers, of the Sequencer's control and of the pins. -/
def Obligations.ResetMeetsTheInvariants : Prop :=
  StoredInv State.reset ∧ ControlInv State.reset ∧ BusInv State.reset

/-- Every step of a Sequencer machine keeps the control invariant: phases of the table, latches written before they are read, masks
cached, array filled (R27, R29, R30, R43). -/
def Obligations.StepKeepsTheControlInvariant : Prop :=
  ∀ (s t : State), ControlInv s → step s = .next t → ControlInv t

/-- Under the control invariant every step answers a next state: no error condition exists at run time, and the Sequencer causes no
refusal on an admitted configuration (R127, R135, R106). -/
def Obligations.SequencerAlwaysSteps : Prop :=
  ∀ (s : State), ControlInv s → ∃ t, step s = .next t

/-- Every step of a Sequencer machine keeps the pin invariant (R39, R95, R109, R113, R118). -/
def Obligations.StepKeepsThePinInvariant : Prop :=
  ∀ (s t : State), ControlInv s → BusInv s → step s = .next t → BusInv t

/-- In `HALTED` no pin drives (R132): neither error leaves a driver on. -/
def Obligations.NoPinDrivesWhenHalted : Prop :=
  ∀ (s : State) (n p : Nat), ControlInv s → BusInv s → s.phase = .halted → p < s.cfg.pinCount →
    s.drivesAt n p = false ∧ s.observed p = none

/-- No data pin starts driving but at an `L_DIR` whose sample said asserted (R147): every other step leaves a floating data bus
floating. -/
def Obligations.DataBusFloatsUntilSelected : Prop :=
  ∀ (s t : State), ControlInv s → BusInv s → step s = .next t → (∀ p, s.cfg.DataPin p → s.oeWord.getLsbD p = false) →
    ¬ (s.phase = .lDir ∧ ∃ cs, s.csL = some cs ∧ cs ≠ 0) →
    ∀ p, s.cfg.DataPin p → p < s.cfg.pinCount → t.oeWord.getLsbD p = false ∧ ∀ n, t.drivesAt n p = false

/-- Lookup (R124, R126): once in the loop, with chip-select and the address held by the Host through at least seven turns of the
Sequencer, and whatever else the Host does to other pins, every data pin is driven with its bit of the addressed byte. -/
def Obligations.HeldSelectionPresentsTheByte : Prop :=
  ∀ (s : State) (raw : Nat) (ts later : List Turn), ControlInv s → BusInv s → s.phase.inLoop = true →
    s.extAt s.cfg.csPin = .high → s.AddressHeld raw → s.schedule = ts ++ later →
    (∀ x ∈ ts, Turn.Spares s.cfg.inputPins x) → 7 ≤ masterTurns ts →
    ∃ t, runSteps ts.length s = .next t ∧
      ∀ j, j < s.cfg.dataBits →
        t.observed (s.cfg.dataStart + j) = some ((imageByte s.cfg (raw % s.cfg.memLen)).getLsbD j)

/-- Bus release (R125): once in the loop, with chip-select held low by the Host, after at least six turns of the Sequencer no data pin
drives, whatever the address, and none does again while it is held. -/
def Obligations.DeselectionReleasesTheBus : Prop :=
  ∀ (s : State) (ts later : List Turn), ControlInv s → BusInv s → s.phase.inLoop = true →
    s.extAt s.cfg.csPin = .low → s.schedule = ts ++ later → (∀ x ∈ ts, Turn.Spares [s.cfg.csPin] x) → 6 ≤ masterTurns ts →
    ∃ t, runSteps ts.length s = .next t ∧ ∀ p, s.cfg.DataPin p → t.observed p = none

/-- Bus assertion (R126): once in the loop, with chip-select held high by the Host, after at least six turns of the Sequencer every data
pin drives, whatever the address. -/
def Obligations.SelectionDrivesTheBus : Prop :=
  ∀ (s : State) (ts later : List Turn), ControlInv s → BusInv s → s.phase.inLoop = true →
    s.extAt s.cfg.csPin = .high → s.schedule = ts ++ later → (∀ x ∈ ts, Turn.Spares [s.cfg.csPin] x) → 6 ≤ masterTurns ts →
    ∃ t, runSteps ts.length s = .next t ∧ ∀ p, s.cfg.DataPin p → t.observed p ≠ none
end

