-- ==== Sys2Proof/Laws/Decode.lean ====
section
/-! SUPPORT. The address map register by register (R48, R68): what a request at each register's address decodes to, and so what a
bus master's line on a register it names runs. -/

namespace Sys2Proof

/-- The SIO group's addresses decode to their registers or to a wrong direction, whatever the base (R68). -/
theorem decodeAddr_sio (c : Config) (w : Bool) (d : Word) :
    decodeAddr c w (c.sioBase.toNat + 0x004) d = (if w then .error .wrongDirection else .ok .rdIn) ∧
    decodeAddr c w (c.sioBase.toNat + 0x010) d = (if w then .ok (.wrOut d) else .ok .rdOut) ∧
    decodeAddr c w (c.sioBase.toNat + 0x014) d = (if w then .ok (.wrOutSet d) else .error .wrongDirection) ∧
    decodeAddr c w (c.sioBase.toNat + 0x018) d = (if w then .ok (.wrOutClr d) else .error .wrongDirection) ∧
    decodeAddr c w (c.sioBase.toNat + 0x01C) d = (if w then .ok (.wrOutXor d) else .error .wrongDirection) ∧
    decodeAddr c w (c.sioBase.toNat + 0x020) d = (if w then .ok (.wrOe d) else .ok .rdOe) ∧
    decodeAddr c w (c.sioBase.toNat + 0x024) d = (if w then .ok (.wrOeSet d) else .error .wrongDirection) ∧
    decodeAddr c w (c.sioBase.toNat + 0x028) d = (if w then .ok (.wrOeClr d) else .error .wrongDirection) ∧
    decodeAddr c w (c.sioBase.toNat + 0x02C) d = (if w then .ok (.wrOeXor d) else .error .wrongDirection) := by
  cases w <;> simp [decodeAddr, sioRows]

/-- Every SIO register lies in the SIO window (R47, R48). -/
theorem sioRows_lt (d : Word) : ∀ row ∈ sioRows d, row.1 < 0x030 := by
  simp [sioRows]

/-- An address that no SIO register has goes to the per-pin registers (R68). -/
theorem decodeAddr_pins (c : Config) (w : Bool) (a : Nat) (d : Word)
    (h : ∀ row ∈ sioRows d, a ≠ c.sioBase.toNat + row.1) : decodeAddr c w a d = decodePins c w a d := by
  have e : (sioRows d).find? (fun row => a == c.sioBase.toNat + row.1) = none := by
    simpa only [List.find?_eq_none, beq_iff_eq] using h
  simp only [decodeAddr, e]

/-- An address outside the SIO window goes to the per-pin registers (R47, R68). -/
theorem decodeAddr_outside (c : Config) (w : Bool) (a : Nat) (d : Word)
    (h : a < c.sioBase.toNat ∨ c.sioBase.toNat + 0x030 ≤ a) : decodeAddr c w a d = decodePins c w a d := by
  apply decodeAddr_pins
  intro row hr
  have := sioRows_lt d row hr
  omega

/-- The pad group's addresses decode to their pins (R68). -/
theorem decodeAddr_pad (c : Config) (h : c.Admitted) (w : Bool) (p : Nat) (hp : p < c.pinCount) (d : Word) :
    decodeAddr c w (c.padsBase.toNat + 0x004 + 4 * p) d = .ok (if w then .wrPad p d else .rdPad p) := by
  obtain ⟨-, -, -, -, -, -, -, h1, -, -⟩ := h
  unfold Config.Disjoint at h1
  have e : (c.padsBase.toNat + 4 + 4 * p - c.padsBase.toNat - 4) / 4 = p := by omega
  rw [decodeAddr_outside c w _ d (by omega)]
  simp only [decodePins, e]
  exact if_pos (by omega)

/-- The function-select group's addresses decode to their pins (R68). -/
theorem decodeAddr_ctrl (c : Config) (h : c.Admitted) (w : Bool) (p : Nat) (hp : p < c.pinCount) (d : Word) :
    decodeAddr c w (c.ioctrlBase.toNat + 0x004 + 8 * p) d = .ok (if w then .wrCtrl p d else .rdCtrl p) := by
  obtain ⟨-, -, -, -, -, -, -, -, h2, h3⟩ := h
  unfold Config.Disjoint at h2 h3
  have e : (c.ioctrlBase.toNat + 4 + 8 * p - c.ioctrlBase.toNat - 4) / 8 = p := by omega
  have notPad : ¬ (c.padsBase.toNat + 4 ≤ c.ioctrlBase.toNat + 4 + 8 * p ∧
      c.ioctrlBase.toNat + 4 + 8 * p < c.padsBase.toNat + 4 + 4 * c.pinCount) := by omega
  rw [decodeAddr_outside c w _ d (by omega)]
  simp only [decodePins, e, notPad, if_false]
  exact if_pos (by omega)

/-- Everything the address map can answer with an operation, and for which addresses (R68): a register of the SIO table at its own
address in its own direction, or the pad or function-select word of an existing pin. -/
theorem decodeAddr_cases {c : Config} {w : Bool} {a : Nat} {d : Word} {i : Instr} (h : decodeAddr c w a d = .ok i) :
    (∃ row ∈ sioRows d, a = c.sioBase.toNat + row.1 ∧ (if w then row.2.2 else row.2.1) = some i) ∨
    (∃ p, p < c.pinCount ∧ c.padsBase.toNat + 0x004 + 4 * p ≤ a ∧ a < c.padsBase.toNat + 0x008 + 4 * p ∧
      i = if w then .wrPad p d else .rdPad p) ∨
    (∃ p, p < c.pinCount ∧ a = c.ioctrlBase.toNat + 0x004 + 8 * p ∧ i = if w then .wrCtrl p d else .rdCtrl p) := by
  unfold decodeAddr at h
  split at h
  · rename_i row hf
    have ha := List.find?_some hf
    split at h
    · rename_i j hj
      cases h
      exact .inl ⟨row, List.mem_of_find?_eq_some hf, by simpa only [beq_iff_eq] using ha, hj⟩
    · cases h
  · right
    unfold decodePins at h
    split at h
    · cases h
      exact .inl ⟨_, by omega, by omega, by omega, rfl⟩
    · split at h
      · cases h
        exact .inr ⟨_, by omega, by omega, rfl⟩
      · cases h

namespace Machine

/-- A line on a register the assembler names runs what the address map gives for the register's address: the address is an aligned
word of the 32-bit space (R49, R75). -/
theorem issue_eq (s : State) (h : s.cfg.Admitted) (w : Bool) (reg : Reg) (a : Nat) (d : Word) (i : Instr)
    (ha : regAddr s.cfg reg = some a) (hd : decodeAddr s.cfg w a d = .ok i) : issue w reg d s = runInstr i s := by
  obtain ⟨-, h1, h2, h3, h4, h5, h6, -⟩ := h
  have key : a % 4 = 0 ∧ a < 2 ^ 32 := by
    cases reg with
    | pad n =>
      simp only [regAddr] at ha
      split at ha
      · rename_i hp
        simp only [hasPin, Bool.and_eq_true, decide_eq_true_eq] at hp
        cases ha; omega
      · cases ha
    | ctrl n =>
      simp only [regAddr] at ha
      split at ha
      · rename_i hp
        simp only [hasPin, Bool.and_eq_true, decide_eq_true_eq] at hp
        cases ha; omega
      · cases ha
    | _ => simp only [regAddr, Option.some.injEq] at ha; omega
  have e : (BitVec.ofNat 32 a).toNat = a := by
    rw [BitVec.toNat_ofNat]; exact Nat.mod_eq_of_lt key.2
  have hr : decodeRequest s.cfg { width := 32, write := w, addr := BitVec.ofNat 32 a, data := d } = .ok i := by
    unfold decodeRequest
    rw [if_neg (by simp only [e]; omega)]
    simp only [e]
    exact hd
  simp only [issue, ha, runRequest, hr]

/-- A write the bus master makes to a register it names runs that register's write transaction (R75). -/
theorem issue_write (s : State) (h : s.cfg.Admitted) (d : Word) :
    issue true .out d s = runInstr (.wrOut d) s ∧ issue true .outSet d s = runInstr (.wrOutSet d) s ∧
    issue true .outClr d s = runInstr (.wrOutClr d) s ∧ issue true .outXor d s = runInstr (.wrOutXor d) s ∧
    issue true .oe d s = runInstr (.wrOe d) s ∧ issue true .oeSet d s = runInstr (.wrOeSet d) s ∧
    issue true .oeClr d s = runInstr (.wrOeClr d) s ∧ issue true .oeXor d s = runInstr (.wrOeXor d) s := by
  obtain ⟨h0, h1, h2, h3, h4, h5, h6, h7, h8⟩ := decodeAddr_sio s.cfg true d
  exact ⟨issue_eq s h true _ _ d _ rfl h1, issue_eq s h true _ _ d _ rfl h2, issue_eq s h true _ _ d _ rfl h3,
    issue_eq s h true _ _ d _ rfl h4, issue_eq s h true _ _ d _ rfl h5, issue_eq s h true _ _ d _ rfl h6,
    issue_eq s h true _ _ d _ rfl h7, issue_eq s h true _ _ d _ rfl h8⟩

/-- A read the bus master makes of a register it names runs that register's read transaction (R75). -/
theorem issue_read (s : State) (h : s.cfg.Admitted) (d : Word) :
    issue false .in_ d s = runInstr .rdIn s ∧ issue false .out d s = runInstr .rdOut s ∧
    issue false .oe d s = runInstr .rdOe s := by
  obtain ⟨h0, h1, h2, h3, h4, h5, h6, h7, h8⟩ := decodeAddr_sio s.cfg false d
  exact ⟨issue_eq s h false _ _ d _ rfl h0, issue_eq s h false _ _ d _ rfl h1, issue_eq s h false _ _ d _ rfl h5⟩

/-- A line on an existing pin's pad register runs `RD_PAD` or `WR_PAD` (R75). -/
theorem issue_pad (s : State) (h : s.cfg.Admitted) (w : Bool) (p : Nat) (hp : hasPin s.cfg p = true) (d : Word) :
    issue w (.pad p) d s = runInstr (if w then .wrPad p d else .rdPad p) s := by
  have hp' : p < s.cfg.pinCount := by
    simp only [hasPin, Bool.and_eq_true, decide_eq_true_eq] at hp; exact hp.1
  refine issue_eq s h w _ (s.cfg.padsBase.toNat + 0x004 + 4 * p) d _ (by simp only [regAddr, hp, if_true]) ?_
  exact decodeAddr_pad s.cfg h w p hp' d

/-- A line on an existing pin's function-select register runs `RD_CTRL` or `WR_CTRL` (R75). -/
theorem issue_ctrl (s : State) (h : s.cfg.Admitted) (w : Bool) (p : Nat) (hp : hasPin s.cfg p = true) (d : Word) :
    issue w (.ctrl p) d s = runInstr (if w then .wrCtrl p d else .rdCtrl p) s := by
  have hp' : p < s.cfg.pinCount := by
    simp only [hasPin, Bool.and_eq_true, decide_eq_true_eq] at hp; exact hp.1
  refine issue_eq s h w _ (s.cfg.ioctrlBase.toNat + 0x004 + 8 * p) d _ (by simp only [regAddr, hp, if_true]) ?_
  exact decodeAddr_ctrl s.cfg h w p hp' d

end Machine

end Sys2Proof
end

