-- ==== Sys2Proof/Laws/State.lean ====
section
/-! SUPPORT. Each named update of the state, field by field: the field it writes, and every other field as before. -/

namespace Sys2Proof.Machine

/-! ### `setOut` -/

@[simp] theorem setOut_cfg (s : State) (v : Word) : (s.setOut v).cfg = s.cfg := rfl
@[simp] theorem setOut_out (s : State) (v : Word) : (s.setOut v).out = v &&& validMask s.cfg := rfl
@[simp] theorem setOut_oe (s : State) (v : Word) : (s.setOut v).oe = s.oe := rfl
@[simp] theorem setOut_pad (s : State) (v : Word) : (s.setOut v).pad = s.pad := rfl
@[simp] theorem setOut_ctrl (s : State) (v : Word) : (s.setOut v).ctrl = s.ctrl := rfl
@[simp] theorem setOut_ext (s : State) (v : Word) : (s.setOut v).ext = s.ext := rfl
@[simp] theorem setOut_rom (s : State) (v : Word) : (s.setOut v).rom = s.rom := rfl
@[simp] theorem setOut_phase (s : State) (v : Word) : (s.setOut v).phase = s.phase := rfl
@[simp] theorem setOut_status (s : State) (v : Word) : (s.setOut v).status = s.status := rfl
@[simp] theorem setOut_csL (s : State) (v : Word) : (s.setOut v).csL = s.csL := rfl
@[simp] theorem setOut_addrL (s : State) (v : Word) : (s.setOut v).addrL = s.addrL := rfl
@[simp] theorem setOut_outL (s : State) (v : Word) : (s.setOut v).outL = s.outL := rfl
@[simp] theorem setOut_padL (s : State) (v : Word) : (s.setOut v).padL = s.padL := rfl
@[simp] theorem setOut_masks (s : State) (v : Word) : (s.setOut v).masks = s.masks := rfl
@[simp] theorem setOut_events (s : State) (v : Word) : (s.setOut v).events = s.events := rfl
@[simp] theorem setOut_master (s : State) (v : Word) : (s.setOut v).master = s.master := rfl
@[simp] theorem setOut_pending (s : State) (v : Word) : (s.setOut v).pending = s.pending := rfl
@[simp] theorem setOut_response (s : State) (v : Word) : (s.setOut v).response = s.response := rfl
@[simp] theorem setOut_result (s : State) (v : Word) : (s.setOut v).result = s.result := rfl
@[simp] theorem setOut_names (s : State) (v : Word) : (s.setOut v).names = s.names := rfl
@[simp] theorem setOut_schedule (s : State) (v : Word) : (s.setOut v).schedule = s.schedule := rfl
@[simp] theorem setOut_draws (s : State) (v : Word) : (s.setOut v).draws = s.draws := rfl

/-! ### `setOe` -/

@[simp] theorem setOe_cfg (s : State) (v : Word) : (s.setOe v).cfg = s.cfg := rfl
@[simp] theorem setOe_out (s : State) (v : Word) : (s.setOe v).out = s.out := rfl
@[simp] theorem setOe_oe (s : State) (v : Word) : (s.setOe v).oe = v &&& validMask s.cfg := rfl
@[simp] theorem setOe_pad (s : State) (v : Word) : (s.setOe v).pad = s.pad := rfl
@[simp] theorem setOe_ctrl (s : State) (v : Word) : (s.setOe v).ctrl = s.ctrl := rfl
@[simp] theorem setOe_ext (s : State) (v : Word) : (s.setOe v).ext = s.ext := rfl
@[simp] theorem setOe_rom (s : State) (v : Word) : (s.setOe v).rom = s.rom := rfl
@[simp] theorem setOe_phase (s : State) (v : Word) : (s.setOe v).phase = s.phase := rfl
@[simp] theorem setOe_status (s : State) (v : Word) : (s.setOe v).status = s.status := rfl
@[simp] theorem setOe_csL (s : State) (v : Word) : (s.setOe v).csL = s.csL := rfl
@[simp] theorem setOe_addrL (s : State) (v : Word) : (s.setOe v).addrL = s.addrL := rfl
@[simp] theorem setOe_outL (s : State) (v : Word) : (s.setOe v).outL = s.outL := rfl
@[simp] theorem setOe_padL (s : State) (v : Word) : (s.setOe v).padL = s.padL := rfl
@[simp] theorem setOe_masks (s : State) (v : Word) : (s.setOe v).masks = s.masks := rfl
@[simp] theorem setOe_events (s : State) (v : Word) : (s.setOe v).events = s.events := rfl
@[simp] theorem setOe_master (s : State) (v : Word) : (s.setOe v).master = s.master := rfl
@[simp] theorem setOe_pending (s : State) (v : Word) : (s.setOe v).pending = s.pending := rfl
@[simp] theorem setOe_response (s : State) (v : Word) : (s.setOe v).response = s.response := rfl
@[simp] theorem setOe_result (s : State) (v : Word) : (s.setOe v).result = s.result := rfl
@[simp] theorem setOe_names (s : State) (v : Word) : (s.setOe v).names = s.names := rfl
@[simp] theorem setOe_schedule (s : State) (v : Word) : (s.setOe v).schedule = s.schedule := rfl
@[simp] theorem setOe_draws (s : State) (v : Word) : (s.setOe v).draws = s.draws := rfl

/-! ### `setPad` -/

@[simp] theorem setPad_cfg (s : State) (p : Nat) (v : Word) : (s.setPad p v).cfg = s.cfg := rfl
@[simp] theorem setPad_out (s : State) (p : Nat) (v : Word) : (s.setPad p v).out = s.out := rfl
@[simp] theorem setPad_oe (s : State) (p : Nat) (v : Word) : (s.setPad p v).oe = s.oe := rfl
@[simp] theorem setPad_pad (s : State) (p : Nat) (v : Word) : (s.setPad p v).pad = s.pad.setIfInBounds p v := rfl
@[simp] theorem setPad_ctrl (s : State) (p : Nat) (v : Word) : (s.setPad p v).ctrl = s.ctrl := rfl
@[simp] theorem setPad_ext (s : State) (p : Nat) (v : Word) : (s.setPad p v).ext = s.ext := rfl
@[simp] theorem setPad_rom (s : State) (p : Nat) (v : Word) : (s.setPad p v).rom = s.rom := rfl
@[simp] theorem setPad_phase (s : State) (p : Nat) (v : Word) : (s.setPad p v).phase = s.phase := rfl
@[simp] theorem setPad_status (s : State) (p : Nat) (v : Word) : (s.setPad p v).status = s.status := rfl
@[simp] theorem setPad_csL (s : State) (p : Nat) (v : Word) : (s.setPad p v).csL = s.csL := rfl
@[simp] theorem setPad_addrL (s : State) (p : Nat) (v : Word) : (s.setPad p v).addrL = s.addrL := rfl
@[simp] theorem setPad_outL (s : State) (p : Nat) (v : Word) : (s.setPad p v).outL = s.outL := rfl
@[simp] theorem setPad_padL (s : State) (p : Nat) (v : Word) : (s.setPad p v).padL = s.padL := rfl
@[simp] theorem setPad_masks (s : State) (p : Nat) (v : Word) : (s.setPad p v).masks = s.masks := rfl
@[simp] theorem setPad_events (s : State) (p : Nat) (v : Word) : (s.setPad p v).events = s.events := rfl
@[simp] theorem setPad_master (s : State) (p : Nat) (v : Word) : (s.setPad p v).master = s.master := rfl
@[simp] theorem setPad_pending (s : State) (p : Nat) (v : Word) : (s.setPad p v).pending = s.pending := rfl
@[simp] theorem setPad_response (s : State) (p : Nat) (v : Word) : (s.setPad p v).response = s.response := rfl
@[simp] theorem setPad_result (s : State) (p : Nat) (v : Word) : (s.setPad p v).result = s.result := rfl
@[simp] theorem setPad_names (s : State) (p : Nat) (v : Word) : (s.setPad p v).names = s.names := rfl
@[simp] theorem setPad_schedule (s : State) (p : Nat) (v : Word) : (s.setPad p v).schedule = s.schedule := rfl
@[simp] theorem setPad_draws (s : State) (p : Nat) (v : Word) : (s.setPad p v).draws = s.draws := rfl

/-! ### `setCtrl` -/

@[simp] theorem setCtrl_cfg (s : State) (p : Nat) (v : Word) : (s.setCtrl p v).cfg = s.cfg := rfl
@[simp] theorem setCtrl_out (s : State) (p : Nat) (v : Word) : (s.setCtrl p v).out = s.out := rfl
@[simp] theorem setCtrl_oe (s : State) (p : Nat) (v : Word) : (s.setCtrl p v).oe = s.oe := rfl
@[simp] theorem setCtrl_pad (s : State) (p : Nat) (v : Word) : (s.setCtrl p v).pad = s.pad := rfl
@[simp] theorem setCtrl_ctrl (s : State) (p : Nat) (v : Word) : (s.setCtrl p v).ctrl = s.ctrl.setIfInBounds p v := rfl
@[simp] theorem setCtrl_ext (s : State) (p : Nat) (v : Word) : (s.setCtrl p v).ext = s.ext := rfl
@[simp] theorem setCtrl_rom (s : State) (p : Nat) (v : Word) : (s.setCtrl p v).rom = s.rom := rfl
@[simp] theorem setCtrl_phase (s : State) (p : Nat) (v : Word) : (s.setCtrl p v).phase = s.phase := rfl
@[simp] theorem setCtrl_status (s : State) (p : Nat) (v : Word) : (s.setCtrl p v).status = s.status := rfl
@[simp] theorem setCtrl_csL (s : State) (p : Nat) (v : Word) : (s.setCtrl p v).csL = s.csL := rfl
@[simp] theorem setCtrl_addrL (s : State) (p : Nat) (v : Word) : (s.setCtrl p v).addrL = s.addrL := rfl
@[simp] theorem setCtrl_outL (s : State) (p : Nat) (v : Word) : (s.setCtrl p v).outL = s.outL := rfl
@[simp] theorem setCtrl_padL (s : State) (p : Nat) (v : Word) : (s.setCtrl p v).padL = s.padL := rfl
@[simp] theorem setCtrl_masks (s : State) (p : Nat) (v : Word) : (s.setCtrl p v).masks = s.masks := rfl
@[simp] theorem setCtrl_events (s : State) (p : Nat) (v : Word) : (s.setCtrl p v).events = s.events := rfl
@[simp] theorem setCtrl_master (s : State) (p : Nat) (v : Word) : (s.setCtrl p v).master = s.master := rfl
@[simp] theorem setCtrl_pending (s : State) (p : Nat) (v : Word) : (s.setCtrl p v).pending = s.pending := rfl
@[simp] theorem setCtrl_response (s : State) (p : Nat) (v : Word) : (s.setCtrl p v).response = s.response := rfl
@[simp] theorem setCtrl_result (s : State) (p : Nat) (v : Word) : (s.setCtrl p v).result = s.result := rfl
@[simp] theorem setCtrl_names (s : State) (p : Nat) (v : Word) : (s.setCtrl p v).names = s.names := rfl
@[simp] theorem setCtrl_schedule (s : State) (p : Nat) (v : Word) : (s.setCtrl p v).schedule = s.schedule := rfl
@[simp] theorem setCtrl_draws (s : State) (p : Nat) (v : Word) : (s.setCtrl p v).draws = s.draws := rfl

/-! ### `respond` -/

@[simp] theorem respond_cfg (s : State) (q : Word) : (s.respond q).cfg = s.cfg := rfl
@[simp] theorem respond_out (s : State) (q : Word) : (s.respond q).out = s.out := rfl
@[simp] theorem respond_oe (s : State) (q : Word) : (s.respond q).oe = s.oe := rfl
@[simp] theorem respond_pad (s : State) (q : Word) : (s.respond q).pad = s.pad := rfl
@[simp] theorem respond_ctrl (s : State) (q : Word) : (s.respond q).ctrl = s.ctrl := rfl
@[simp] theorem respond_ext (s : State) (q : Word) : (s.respond q).ext = s.ext := rfl
@[simp] theorem respond_rom (s : State) (q : Word) : (s.respond q).rom = s.rom := rfl
@[simp] theorem respond_phase (s : State) (q : Word) : (s.respond q).phase = s.phase := rfl
@[simp] theorem respond_status (s : State) (q : Word) : (s.respond q).status = s.status := rfl
@[simp] theorem respond_csL (s : State) (q : Word) : (s.respond q).csL = s.csL := rfl
@[simp] theorem respond_addrL (s : State) (q : Word) : (s.respond q).addrL = s.addrL := rfl
@[simp] theorem respond_outL (s : State) (q : Word) : (s.respond q).outL = s.outL := rfl
@[simp] theorem respond_padL (s : State) (q : Word) : (s.respond q).padL = s.padL := rfl
@[simp] theorem respond_masks (s : State) (q : Word) : (s.respond q).masks = s.masks := rfl
@[simp] theorem respond_events (s : State) (q : Word) : (s.respond q).events = s.events := rfl
@[simp] theorem respond_master (s : State) (q : Word) : (s.respond q).master = s.master := rfl
@[simp] theorem respond_pending (s : State) (q : Word) : (s.respond q).pending = s.pending := rfl
@[simp] theorem respond_response (s : State) (q : Word) : (s.respond q).response = q := rfl
@[simp] theorem respond_result (s : State) (q : Word) : (s.respond q).result = s.result := rfl
@[simp] theorem respond_names (s : State) (q : Word) : (s.respond q).names = s.names := rfl
@[simp] theorem respond_schedule (s : State) (q : Word) : (s.respond q).schedule = s.schedule := rfl
@[simp] theorem respond_draws (s : State) (q : Word) : (s.respond q).draws = s.draws := rfl

/-! ### `answer` -/

@[simp] theorem answer_cfg (s : State) (v : OpValue) : (s.answer v).cfg = s.cfg := rfl
@[simp] theorem answer_out (s : State) (v : OpValue) : (s.answer v).out = s.out := rfl
@[simp] theorem answer_oe (s : State) (v : OpValue) : (s.answer v).oe = s.oe := rfl
@[simp] theorem answer_pad (s : State) (v : OpValue) : (s.answer v).pad = s.pad := rfl
@[simp] theorem answer_ctrl (s : State) (v : OpValue) : (s.answer v).ctrl = s.ctrl := rfl
@[simp] theorem answer_ext (s : State) (v : OpValue) : (s.answer v).ext = s.ext := rfl
@[simp] theorem answer_rom (s : State) (v : OpValue) : (s.answer v).rom = s.rom := rfl
@[simp] theorem answer_phase (s : State) (v : OpValue) : (s.answer v).phase = s.phase := rfl
@[simp] theorem answer_status (s : State) (v : OpValue) : (s.answer v).status = s.status := rfl
@[simp] theorem answer_csL (s : State) (v : OpValue) : (s.answer v).csL = s.csL := rfl
@[simp] theorem answer_addrL (s : State) (v : OpValue) : (s.answer v).addrL = s.addrL := rfl
@[simp] theorem answer_outL (s : State) (v : OpValue) : (s.answer v).outL = s.outL := rfl
@[simp] theorem answer_padL (s : State) (v : OpValue) : (s.answer v).padL = s.padL := rfl
@[simp] theorem answer_masks (s : State) (v : OpValue) : (s.answer v).masks = s.masks := rfl
@[simp] theorem answer_events (s : State) (v : OpValue) : (s.answer v).events = s.events := rfl
@[simp] theorem answer_master (s : State) (v : OpValue) : (s.answer v).master = s.master := rfl
@[simp] theorem answer_pending (s : State) (v : OpValue) : (s.answer v).pending = s.pending := rfl
@[simp] theorem answer_response (s : State) (v : OpValue) : (s.answer v).response = s.response := rfl
@[simp] theorem answer_result (s : State) (v : OpValue) : (s.answer v).result = v := rfl
@[simp] theorem answer_names (s : State) (v : OpValue) : (s.answer v).names = s.names := rfl
@[simp] theorem answer_schedule (s : State) (v : OpValue) : (s.answer v).schedule = s.schedule := rfl
@[simp] theorem answer_draws (s : State) (v : OpValue) : (s.answer v).draws = s.draws := rfl

/-! ### `goto` -/

@[simp] theorem goto_cfg (s : State) (ph : Phase) : (s.goto ph).cfg = s.cfg := rfl
@[simp] theorem goto_out (s : State) (ph : Phase) : (s.goto ph).out = s.out := rfl
@[simp] theorem goto_oe (s : State) (ph : Phase) : (s.goto ph).oe = s.oe := rfl
@[simp] theorem goto_pad (s : State) (ph : Phase) : (s.goto ph).pad = s.pad := rfl
@[simp] theorem goto_ctrl (s : State) (ph : Phase) : (s.goto ph).ctrl = s.ctrl := rfl
@[simp] theorem goto_ext (s : State) (ph : Phase) : (s.goto ph).ext = s.ext := rfl
@[simp] theorem goto_rom (s : State) (ph : Phase) : (s.goto ph).rom = s.rom := rfl
@[simp] theorem goto_phase (s : State) (ph : Phase) : (s.goto ph).phase = ph := rfl
@[simp] theorem goto_status (s : State) (ph : Phase) : (s.goto ph).status = s.status := rfl
@[simp] theorem goto_csL (s : State) (ph : Phase) : (s.goto ph).csL = s.csL := rfl
@[simp] theorem goto_addrL (s : State) (ph : Phase) : (s.goto ph).addrL = s.addrL := rfl
@[simp] theorem goto_outL (s : State) (ph : Phase) : (s.goto ph).outL = s.outL := rfl
@[simp] theorem goto_padL (s : State) (ph : Phase) : (s.goto ph).padL = s.padL := rfl
@[simp] theorem goto_masks (s : State) (ph : Phase) : (s.goto ph).masks = s.masks := rfl
@[simp] theorem goto_events (s : State) (ph : Phase) : (s.goto ph).events = s.events := rfl
@[simp] theorem goto_master (s : State) (ph : Phase) : (s.goto ph).master = s.master := rfl
@[simp] theorem goto_pending (s : State) (ph : Phase) : (s.goto ph).pending = s.pending := rfl
@[simp] theorem goto_response (s : State) (ph : Phase) : (s.goto ph).response = s.response := rfl
@[simp] theorem goto_result (s : State) (ph : Phase) : (s.goto ph).result = s.result := rfl
@[simp] theorem goto_names (s : State) (ph : Phase) : (s.goto ph).names = s.names := rfl
@[simp] theorem goto_schedule (s : State) (ph : Phase) : (s.goto ph).schedule = s.schedule := rfl
@[simp] theorem goto_draws (s : State) (ph : Phase) : (s.goto ph).draws = s.draws := rfl

/-! ### `queue` -/

@[simp] theorem queue_cfg (s : State) (l : List Item) : (s.queue l).cfg = s.cfg := rfl
@[simp] theorem queue_out (s : State) (l : List Item) : (s.queue l).out = s.out := rfl
@[simp] theorem queue_oe (s : State) (l : List Item) : (s.queue l).oe = s.oe := rfl
@[simp] theorem queue_pad (s : State) (l : List Item) : (s.queue l).pad = s.pad := rfl
@[simp] theorem queue_ctrl (s : State) (l : List Item) : (s.queue l).ctrl = s.ctrl := rfl
@[simp] theorem queue_ext (s : State) (l : List Item) : (s.queue l).ext = s.ext := rfl
@[simp] theorem queue_rom (s : State) (l : List Item) : (s.queue l).rom = s.rom := rfl
@[simp] theorem queue_phase (s : State) (l : List Item) : (s.queue l).phase = s.phase := rfl
@[simp] theorem queue_status (s : State) (l : List Item) : (s.queue l).status = s.status := rfl
@[simp] theorem queue_csL (s : State) (l : List Item) : (s.queue l).csL = s.csL := rfl
@[simp] theorem queue_addrL (s : State) (l : List Item) : (s.queue l).addrL = s.addrL := rfl
@[simp] theorem queue_outL (s : State) (l : List Item) : (s.queue l).outL = s.outL := rfl
@[simp] theorem queue_padL (s : State) (l : List Item) : (s.queue l).padL = s.padL := rfl
@[simp] theorem queue_masks (s : State) (l : List Item) : (s.queue l).masks = s.masks := rfl
@[simp] theorem queue_events (s : State) (l : List Item) : (s.queue l).events = s.events := rfl
@[simp] theorem queue_master (s : State) (l : List Item) : (s.queue l).master = s.master := rfl
@[simp] theorem queue_pending (s : State) (l : List Item) : (s.queue l).pending = l ++ s.pending := rfl
@[simp] theorem queue_response (s : State) (l : List Item) : (s.queue l).response = s.response := rfl
@[simp] theorem queue_result (s : State) (l : List Item) : (s.queue l).result = s.result := rfl
@[simp] theorem queue_names (s : State) (l : List Item) : (s.queue l).names = s.names := rfl
@[simp] theorem queue_schedule (s : State) (l : List Item) : (s.queue l).schedule = s.schedule := rfl
@[simp] theorem queue_draws (s : State) (l : List Item) : (s.queue l).draws = s.draws := rfl

/-! ### `evaluated` -/

@[simp] theorem evaluated_cfg (s : State) : (s.evaluated).cfg = s.cfg := rfl
@[simp] theorem evaluated_out (s : State) : (s.evaluated).out = s.out := rfl
@[simp] theorem evaluated_oe (s : State) : (s.evaluated).oe = s.oe := rfl
@[simp] theorem evaluated_pad (s : State) : (s.evaluated).pad = s.pad := rfl
@[simp] theorem evaluated_ctrl (s : State) : (s.evaluated).ctrl = s.ctrl := rfl
@[simp] theorem evaluated_ext (s : State) : (s.evaluated).ext = s.ext := rfl
@[simp] theorem evaluated_rom (s : State) : (s.evaluated).rom = s.rom := rfl
@[simp] theorem evaluated_phase (s : State) : (s.evaluated).phase = s.phase := rfl
@[simp] theorem evaluated_status (s : State) : (s.evaluated).status = s.status := rfl
@[simp] theorem evaluated_csL (s : State) : (s.evaluated).csL = s.csL := rfl
@[simp] theorem evaluated_addrL (s : State) : (s.evaluated).addrL = s.addrL := rfl
@[simp] theorem evaluated_outL (s : State) : (s.evaluated).outL = s.outL := rfl
@[simp] theorem evaluated_padL (s : State) : (s.evaluated).padL = s.padL := rfl
@[simp] theorem evaluated_masks (s : State) : (s.evaluated).masks = s.masks := rfl
@[simp] theorem evaluated_events (s : State) : (s.evaluated).events = s.events := rfl
@[simp] theorem evaluated_master (s : State) : (s.evaluated).master = s.master := rfl
@[simp] theorem evaluated_pending (s : State) : (s.evaluated).pending = s.pending := rfl
@[simp] theorem evaluated_response (s : State) : (s.evaluated).response = s.response := rfl
@[simp] theorem evaluated_result (s : State) : (s.evaluated).result = s.result := rfl
@[simp] theorem evaluated_names (s : State) : (s.evaluated).names = s.names := rfl
@[simp] theorem evaluated_schedule (s : State) : (s.evaluated).schedule = s.schedule := rfl
@[simp] theorem evaluated_draws (s : State) : (s.evaluated).draws = s.draws + 1 := rfl

/-! ### `hostSet` -/

@[simp] theorem hostSet_cfg (sets : List (Nat × Ext)) (s : State) : (hostSet sets s).cfg = s.cfg := rfl
@[simp] theorem hostSet_out (sets : List (Nat × Ext)) (s : State) : (hostSet sets s).out = s.out := rfl
@[simp] theorem hostSet_oe (sets : List (Nat × Ext)) (s : State) : (hostSet sets s).oe = s.oe := rfl
@[simp] theorem hostSet_pad (sets : List (Nat × Ext)) (s : State) : (hostSet sets s).pad = s.pad := rfl
@[simp] theorem hostSet_ctrl (sets : List (Nat × Ext)) (s : State) : (hostSet sets s).ctrl = s.ctrl := rfl
@[simp] theorem hostSet_rom (sets : List (Nat × Ext)) (s : State) : (hostSet sets s).rom = s.rom := rfl
@[simp] theorem hostSet_phase (sets : List (Nat × Ext)) (s : State) : (hostSet sets s).phase = s.phase := rfl
@[simp] theorem hostSet_status (sets : List (Nat × Ext)) (s : State) : (hostSet sets s).status = s.status := rfl
@[simp] theorem hostSet_csL (sets : List (Nat × Ext)) (s : State) : (hostSet sets s).csL = s.csL := rfl
@[simp] theorem hostSet_addrL (sets : List (Nat × Ext)) (s : State) : (hostSet sets s).addrL = s.addrL := rfl
@[simp] theorem hostSet_outL (sets : List (Nat × Ext)) (s : State) : (hostSet sets s).outL = s.outL := rfl
@[simp] theorem hostSet_padL (sets : List (Nat × Ext)) (s : State) : (hostSet sets s).padL = s.padL := rfl
@[simp] theorem hostSet_masks (sets : List (Nat × Ext)) (s : State) : (hostSet sets s).masks = s.masks := rfl
@[simp] theorem hostSet_events (sets : List (Nat × Ext)) (s : State) : (hostSet sets s).events = s.events := rfl
@[simp] theorem hostSet_master (sets : List (Nat × Ext)) (s : State) : (hostSet sets s).master = s.master := rfl
@[simp] theorem hostSet_pending (sets : List (Nat × Ext)) (s : State) : (hostSet sets s).pending = s.pending := rfl
@[simp] theorem hostSet_response (sets : List (Nat × Ext)) (s : State) : (hostSet sets s).response = s.response := rfl
@[simp] theorem hostSet_result (sets : List (Nat × Ext)) (s : State) : (hostSet sets s).result = s.result := rfl
@[simp] theorem hostSet_names (sets : List (Nat × Ext)) (s : State) : (hostSet sets s).names = s.names := rfl
@[simp] theorem hostSet_schedule (sets : List (Nat × Ext)) (s : State) : (hostSet sets s).schedule = s.schedule := rfl
@[simp] theorem hostSet_draws (sets : List (Nat × Ext)) (s : State) : (hostSet sets s).draws = s.draws := rfl

/-! ### `settle` -/

@[simp] theorem settle_cfg (s : State) : (settle s).cfg = s.cfg := rfl
@[simp] theorem settle_out (s : State) : (settle s).out = s.out := rfl
@[simp] theorem settle_oe (s : State) : (settle s).oe = s.oe := rfl
@[simp] theorem settle_pad (s : State) : (settle s).pad = s.pad := rfl
@[simp] theorem settle_ctrl (s : State) : (settle s).ctrl = s.ctrl := rfl
@[simp] theorem settle_ext (s : State) : (settle s).ext = s.ext := rfl
@[simp] theorem settle_rom (s : State) : (settle s).rom = s.rom := rfl
@[simp] theorem settle_phase (s : State) : (settle s).phase = s.phase := rfl
@[simp] theorem settle_status (s : State) : (settle s).status = s.status := rfl
@[simp] theorem settle_csL (s : State) : (settle s).csL = s.csL := rfl
@[simp] theorem settle_addrL (s : State) : (settle s).addrL = s.addrL := rfl
@[simp] theorem settle_outL (s : State) : (settle s).outL = s.outL := rfl
@[simp] theorem settle_padL (s : State) : (settle s).padL = s.padL := rfl
@[simp] theorem settle_masks (s : State) : (settle s).masks = s.masks := rfl
@[simp] theorem settle_master (s : State) : (settle s).master = s.master := rfl
@[simp] theorem settle_pending (s : State) : (settle s).pending = s.pending := rfl
@[simp] theorem settle_response (s : State) : (settle s).response = s.response := rfl
@[simp] theorem settle_result (s : State) : (settle s).result = s.result := rfl
@[simp] theorem settle_names (s : State) : (settle s).names = s.names := rfl
@[simp] theorem settle_schedule (s : State) : (settle s).schedule = s.schedule := rfl
@[simp] theorem settle_draws (s : State) : (settle s).draws = s.draws + 1 := rfl

/-! ### `heldMasks` -/

/-- Once `I_MASKS` has run, the masks a phase reads are the cached ones (R30). -/
theorem heldMasks_of_some {s : State} {m : Masks} (h : s.masks = some m) : s.heldMasks = m := by simp [State.heldMasks, h]

end Sys2Proof.Machine
end

