-- ==== Sys2Proof/Laws/Memory.lean ====
section
/-! SUPPORT. The memory array (R43): reading after writing, and that every operation on it keeps the canonical form. -/

namespace Sys2Proof.Machine

/-- A read after a write: the byte written at that index, any other index as before. -/
theorem Memory.read_write (m : List Host.Cell) (h : Memory.wf m) (i j : Nat) (b : Byte) :
    Memory.read (Memory.write i b m) j = if i = j then some b else Memory.read m j := by
  induction m with
  | nil => simp [Memory.write, Memory.read]
  | cons c m ih =>
    obtain ⟨a, x⟩ := c
    have hm : Memory.wf m := (List.pairwise_cons.mp h).2
    unfold Memory.write
    split
    · simp [Memory.read]
    · split
      · rename_i h1 h2
        subst h2
        simp only [Memory.read]
        split <;> rfl
      · rename_i h1 h2
        simp only [Memory.read, ih hm]
        by_cases e : a = j
        · subst e
          simp [h2]
        · simp [e]

/-- The indices a write leaves listed. -/
theorem Memory.mem_write (i j : Nat) (b : Byte) (m : List Host.Cell) :
    j ∈ (Memory.write i b m).map Prod.fst ↔ j = i ∨ j ∈ m.map Prod.fst := by
  induction m with
  | nil => simp [Memory.write]
  | cons c m ih =>
    obtain ⟨a, x⟩ := c
    unfold Memory.write
    split
    · simp only [List.map_cons, List.mem_cons]
    · split
      · rename_i h1 h2; subst h2; simp only [List.map_cons, List.mem_cons]; tauto
      · simp only [List.map_cons, List.mem_cons, ih]; tauto

/-- A write keeps the canonical form. -/
theorem Memory.write_wf (i : Nat) (b : Byte) (m : List Host.Cell) (h : Memory.wf m) : Memory.wf (Memory.write i b m) := by
  induction m with
  | nil => simp [Memory.write, Memory.wf]
  | cons c m ih =>
    obtain ⟨a, x⟩ := c
    have hc := List.pairwise_cons.mp h
    unfold Memory.write
    split
    · rename_i hi
      refine List.pairwise_cons.mpr ⟨?_, h⟩
      intro k hk
      rcases List.mem_cons.mp hk with rfl | hk
      · exact hi
      · exact lt_trans hi (hc.1 k hk)
    · split
      · rename_i h1 h2
        subst h2
        exact List.pairwise_cons.mpr ⟨hc.1, hc.2⟩
      · rename_i h1 h2
        refine List.pairwise_cons.mpr ⟨?_, ih hc.2⟩
        intro k hk
        rcases (Memory.mem_write i k b m).mp hk with rfl | hk
        · have : a ≠ k := fun e => h2 e.symm
          simp only at h1 ⊢
          omega
        · exact hc.1 k hk

/-- The start-up fill keeps the canonical form (R114). -/
theorem fillRom_wf (c : Config) (n : Nat) (m : List Host.Cell) (h : Memory.wf m) : Memory.wf (fillRom c n m) := by
  induction n with
  | zero => exact h
  | succ n ih => exact Memory.write_wf _ _ _ ih

/-- After the start-up fill every index below its length holds the image's byte or the fill byte, any other index is as before
(R114). -/
theorem read_fillRom (c : Config) (n : Nat) (m : List Host.Cell) (h : Memory.wf m) (i : Nat) :
    Memory.read (fillRom c n m) i = if i < n then some (imageByte c i) else Memory.read m i := by
  induction n with
  | zero => simp [fillRom]
  | succ n ih =>
    simp only [fillRom, Memory.read_write _ (fillRom_wf c n m h), ih]
    by_cases e : n = i
    · subst e; simp
    · simp only [e, if_false]
      by_cases l : i < n
      · simp [l, Nat.lt_succ_of_lt l]
      · have : ¬ i < n + 1 := by omega
        simp [l, this]

/-- Reset memory is canonical: nothing is listed. -/
theorem reset_rom_wf : Memory.wf State.reset.rom := by decide

end Sys2Proof.Machine
end

