-- ==== Sys2Proof/Laws/PerInstr.lean ====
section
/-! SUPPORT. A statement about every instruction as syntax, and its lemma for each constructor: what an instruction's encoding is when
it has one. -/

namespace Sys2Proof.Laws.Encoding

/-- The request of an instruction that has an encoding is a 32-bit transaction (R54), and the direction and data are those of the
instruction: a read carries no data (R67, R71). -/
def Statement (i : Instr) : Prop :=
  ∀ (c : Config) (r : Request), encodeRequest c i = some r → r.width = 32 ∧ (r.write = false → r.data = 0)

theorem rdIn : Statement .rdIn := by
  intro c r h
  cases h
  exact ⟨rfl, fun _ => rfl⟩

theorem rdOut : Statement .rdOut := by
  intro c r h
  cases h
  exact ⟨rfl, fun _ => rfl⟩

theorem wrOut (d : Word) : Statement (.wrOut d) := by
  intro c r h
  cases h
  exact ⟨rfl, fun e => nomatch e⟩

theorem wrOutSet (d : Word) : Statement (.wrOutSet d) := by
  intro c r h
  cases h
  exact ⟨rfl, fun e => nomatch e⟩

theorem wrOutClr (d : Word) : Statement (.wrOutClr d) := by
  intro c r h
  cases h
  exact ⟨rfl, fun e => nomatch e⟩

theorem wrOutXor (d : Word) : Statement (.wrOutXor d) := by
  intro c r h
  cases h
  exact ⟨rfl, fun e => nomatch e⟩

theorem rdOe : Statement .rdOe := by
  intro c r h
  cases h
  exact ⟨rfl, fun _ => rfl⟩

theorem wrOe (d : Word) : Statement (.wrOe d) := by
  intro c r h
  cases h
  exact ⟨rfl, fun e => nomatch e⟩

theorem wrOeSet (d : Word) : Statement (.wrOeSet d) := by
  intro c r h
  cases h
  exact ⟨rfl, fun e => nomatch e⟩

theorem wrOeClr (d : Word) : Statement (.wrOeClr d) := by
  intro c r h
  cases h
  exact ⟨rfl, fun e => nomatch e⟩

theorem wrOeXor (d : Word) : Statement (.wrOeXor d) := by
  intro c r h
  cases h
  exact ⟨rfl, fun e => nomatch e⟩

theorem rdPad (p : Nat) : Statement (.rdPad p) := by
  intro c r h
  cases h
  exact ⟨rfl, fun _ => rfl⟩

theorem wrPad (p : Nat) (d : Word) : Statement (.wrPad p d) := by
  intro c r h
  cases h
  exact ⟨rfl, fun e => nomatch e⟩

theorem rdCtrl (p : Nat) : Statement (.rdCtrl p) := by
  intro c r h
  cases h
  exact ⟨rfl, fun _ => rfl⟩

theorem wrCtrl (p : Nat) (d : Word) : Statement (.wrCtrl p d) := by
  intro c r h
  cases h
  exact ⟨rfl, fun e => nomatch e⟩

theorem configure (p : Nat) : Statement (.configure p) := fun _ _ h => nomatch h

theorem routeToPeripheral (p : Nat) (f : Nat) : Statement (.routeToPeripheral p f) := fun _ _ h => nomatch h

theorem enablePulldown (p : Nat) : Statement (.enablePulldown p) := fun _ _ h => nomatch h

theorem set (m : Word) : Statement (.set m) := fun _ _ h => nomatch h

theorem clear (m : Word) : Statement (.clear m) := fun _ _ h => nomatch h

theorem putMasked (m : Word) (v : Word) : Statement (.putMasked m v) := fun _ _ h => nomatch h

theorem setDirectionOutMasked (m : Word) : Statement (.setDirectionOutMasked m) := fun _ _ h => nomatch h

theorem setDirectionDisabledMasked (m : Word) : Statement (.setDirectionDisabledMasked m) := fun _ _ h => nomatch h

theorem get (p : Nat) : Statement (.get p) := fun _ _ h => nomatch h

theorem getMasked (m : Word) : Statement (.getMasked m) := fun _ _ h => nomatch h

theorem mask (a : Nat) (n : Nat) : Statement (.mask a n) := fun _ _ h => nomatch h

theorem iCheck : Statement .iCheck := fun _ _ h => nomatch h

theorem iCfg (k : Nat) (j : Fin 4) : Statement (.iCfg k j) := fun _ _ h => nomatch h

theorem iPull (k : Nat) (j : Fin 2) : Statement (.iPull k j) := fun _ _ h => nomatch h

theorem iMasks : Statement .iMasks := fun _ _ h => nomatch h

theorem iOverlap : Statement .iOverlap := fun _ _ h => nomatch h

theorem iFloat : Statement .iFloat := fun _ _ h => nomatch h

theorem iFill : Statement .iFill := fun _ _ h => nomatch h

theorem iStatus (j : Fin 6) : Statement (.iStatus j) := fun _ _ h => nomatch h

theorem lCs : Statement .lCs := fun _ _ h => nomatch h

theorem lDir : Statement .lDir := fun _ _ h => nomatch h

theorem lAddr : Statement .lAddr := fun _ _ h => nomatch h

theorem lRdout : Statement .lRdout := fun _ _ h => nomatch h

theorem lXor : Statement .lXor := fun _ _ h => nomatch h

theorem halted : Statement .halted := fun _ _ h => nomatch h

end Sys2Proof.Laws.Encoding
end

