-- ==== Sys2Proof/Laws/Words.lean ====
section
/-! SUPPORT. Bit by bit: what `bit(p)`, `mask(s, n)`, `VALID`, a word put together lane by lane, and the pin lists hold. -/

namespace Sys2Proof.Machine

/-- `bit(p)` has bit `p` and no other (R20). -/
@[simp] theorem getLsbD_bitWord (p i : Nat) : (bitWord p).getLsbD i = (decide (i = p) && decide (p < 32)) := by
  unfold bitWord
  split
  · rename_i h
    simp only [BitVec.getLsbD_ofNat, Nat.testBit_two_pow]
    by_cases e : i = p
    · subst e; simp [h]
    · have e' : ¬ p = i := fun q => e q.symm
      simp [e, e']
  · rename_i h
    simp [h]

/-- `mask(s, n)` has exactly the bits `s .. s+n-1` (R92), those of a 32-bit word. -/
@[simp] theorem getLsbD_maskWord (s n i : Nat) :
    (maskWord s n).getLsbD i = (decide (i < 32) && (decide (s ≤ i) && decide (i < s + n))) := by
  unfold maskWord
  rw [BitVec.getLsbD_ofNat, Nat.testBit_mul_two_pow, Nat.testBit_two_pow_sub_one]
  congr 1
  by_cases h : s ≤ i
  · simp [h]; omega
  · simp [h]

/-- `VALID` has the bits of the pins that exist. -/
@[simp] theorem getLsbD_validMask (c : Config) (i : Nat) :
    (validMask c).getLsbD i = (decide (i < 32) && decide (i < c.pinCount)) := by
  simp [validMask]

/-- A word put together lane by lane has in each lane what its function says (R93). -/
@[simp] theorem getLsbD_wordOf (f : Nat → Bool) (n i : Nat) :
    (wordOf f n).getLsbD i = (decide (i < n) && (decide (i < 32) && f i)) := by
  induction n with
  | zero => simp [wordOf]
  | succ n ih =>
    by_cases hf : f n
    · simp only [wordOf, hf, if_true, BitVec.getLsbD_or, ih, getLsbD_bitWord]
      by_cases h : i = n
      · subst h; simp [hf]
      · have : (i < n + 1) ↔ i < n := by omega
        simp [h, this]
    · simp only [wordOf, hf, Bool.false_eq_true, if_false, ih]
      by_cases h : i = n
      · subst h; simp [hf]
      · have : (i < n + 1) ↔ i < n := by omega
        simp [this]

/-- Two words with the same 32 bits are equal. -/
theorem word_ext {a b : Word} (h : ∀ i, i < 32 → a.getLsbD i = b.getLsbD i) : a = b :=
  BitVec.eq_of_getLsbD_eq h

/-- A pin exists when it is below `PIN_COUNT` and has a bit in a mask. -/
@[simp] theorem hasPin_iff (c : Config) (p : Nat) : hasPin c p = true ↔ p < c.pinCount ∧ p < 32 := by
  simp [hasPin]

/-- A mask operand passes when each of its bits is an existing pin (R94). -/
theorem hasPins_iff (c : Config) (m : Word) :
    hasPins c m = true ↔ ∀ i, i < 32 → m.getLsbD i = true → i < c.pinCount := by
  unfold hasPins
  rw [beq_iff_eq]
  constructor
  · intro h i hi hm
    have := congrArg (fun w => w.getLsbD i) h
    simpa only [BitVec.getLsbD_and, hm, BitVec.getLsbD_not, hi, getLsbD_validMask, decide_true, Bool.true_and,
      BitVec.getLsbD_zero, Bool.not_eq_false', decide_eq_true_eq, BitVec.ofNat_eq_ofNat] using this
  · intro h
    apply word_ext
    intro i hi
    have := h i hi
    cases hm : m.getLsbD i <;>
      simp_all only [BitVec.getLsbD_and, BitVec.getLsbD_not, getLsbD_validMask, decide_true, Bool.true_and, forall_true_left,
        BitVec.getLsbD_zero, Bool.not_true, Bool.false_and, BitVec.ofNat_eq_ofNat]

/-- Dropping the bits of pins that do not exist twice is dropping them once (R31). -/
@[simp] theorem and_validMask_self (w : Word) (c : Config) : w &&& validMask c &&& validMask c = w &&& validMask c := by
  rw [BitVec.and_assoc, BitVec.and_self]

/-- The members of a range of pins. -/
@[simp] theorem mem_pinRange (start n p : Nat) : p ∈ pinRange start n ↔ start ≤ p ∧ p < start + n := by
  simp only [pinRange, List.mem_map, List.mem_range]
  constructor
  · rintro ⟨j, hj, rfl⟩; omega
  · rintro ⟨h1, h2⟩; exact ⟨p - start, by omega, by omega⟩

/-- The members of `CFG_LIST` (R107). -/
theorem mem_cfgList (c : Config) (p : Nat) :
    p ∈ cfgList c ↔ (c.addrStart ≤ p ∧ p < c.addrStart + c.addrBits) ∨ (c.dataStart ≤ p ∧ p < c.dataStart + c.dataBits) ∨
      p = c.csPin := by
  simp [cfgList]

/-- `CFG_LIST` has one entry for each address pin, each data pin and `CS_PIN` (R107). -/
@[simp] theorem length_cfgList (c : Config) : (cfgList c).length = c.cfgCount := by
  simp [cfgList, pinRange, Config.cfgCount]; omega

/-- The members of a set put in ascending order. -/
theorem mem_insertPin (p q : Nat) (l : List Nat) : q ∈ insertPin p l ↔ q = p ∨ q ∈ l := by
  induction l with
  | nil => simp [insertPin]
  | cons a l ih =>
    unfold insertPin
    split
    · simp
    · split
      · rename_i h1 h2; subst h2; simp
      · simp only [List.mem_cons, ih]; tauto

/-- Putting pins in ascending order keeps the set (R110). -/
@[simp] theorem mem_ascending (q : Nat) (l : List Nat) : q ∈ ascending l ↔ q ∈ l := by
  induction l with
  | nil => simp [ascending]
  | cons a l ih =>
    have h : ascending (a :: l) = insertPin a (ascending l) := rfl
    rw [h, mem_insertPin, ih, List.mem_cons]

/-- Insertion keeps a list strictly ascending. -/
theorem insertPin_sorted (p : Nat) (l : List Nat) (h : l.Pairwise (· < ·)) : (insertPin p l).Pairwise (· < ·) := by
  induction l with
  | nil => simp [insertPin]
  | cons a l ih =>
    rw [List.pairwise_cons] at h
    unfold insertPin
    split
    · rename_i hp
      rw [List.pairwise_cons, List.pairwise_cons]
      refine ⟨?_, h.1, h.2⟩
      intro b hb
      rcases List.mem_cons.mp hb with rfl | hb
      · exact hp
      · exact lt_trans hp (h.1 b hb)
    · split
      · exact List.pairwise_cons.mpr h
      · rename_i h1 h2
        rw [List.pairwise_cons]
        refine ⟨?_, ih h.2⟩
        intro b hb
        rcases (mem_insertPin p b l).mp hb with rfl | hb
        · omega
        · exact h.1 b hb

/-- `PULLDOWN_PINS` is taken in ascending order, each pin once (R110). -/
theorem pullList_sorted (c : Config) : (pullList c).Pairwise (· < ·) := by
  unfold pullList ascending
  induction c.pulldownPins with
  | nil => simp
  | cons a l ih => exact insertPin_sorted a _ ih

end Sys2Proof.Machine
end

