-- ==== Sys2Proof/Laws/Registers.lean ====
section
/-! SUPPORT. What the registers read after each accessor and each shared transaction: hardwired bits (R31, R32), reads that change
nothing stored (R59), and the frame of each write. -/

namespace Sys2Proof.Machine

/-! ### Accessors -/

/-- `OUT` after a write of it (R31). -/
@[simp] theorem outWord_setOut (s : State) (v : Word) : (s.setOut v).outWord = v &&& validMask s.cfg := by
  simp [State.outWord]

@[simp] theorem oeWord_setOut (s : State) (v : Word) : (s.setOut v).oeWord = s.oeWord := rfl
@[simp] theorem padWord_setOut (s : State) (v : Word) (p : Nat) : (s.setOut v).padWord p = s.padWord p := rfl
@[simp] theorem ctrlWord_setOut (s : State) (v : Word) (p : Nat) : (s.setOut v).ctrlWord p = s.ctrlWord p := rfl

/-- `OE` after a write of it (R32). -/
@[simp] theorem oeWord_setOe (s : State) (v : Word) : (s.setOe v).oeWord = v &&& validMask s.cfg := by
  simp [State.oeWord]

@[simp] theorem outWord_setOe (s : State) (v : Word) : (s.setOe v).outWord = s.outWord := rfl
@[simp] theorem padWord_setOe (s : State) (v : Word) (p : Nat) : (s.setOe v).padWord p = s.padWord p := rfl
@[simp] theorem ctrlWord_setOe (s : State) (v : Word) (p : Nat) : (s.setOe v).ctrlWord p = s.ctrlWord p := rfl

/-- One entry of a vector after an entry is set, read with a default. -/
theorem getD_toList_setIfInBounds {α : Type} (v : Vector α 32) (p q : Nat) (x d : α) :
    (v.setIfInBounds p x).toList.getD q d = if p = q ∧ p < 32 then x else v.toList.getD q d := by
  simp only [List.getD_eq_getElem?_getD, Vector.toList_setIfInBounds, List.getElem?_set, Vector.length_toList]
  by_cases h : p = q
  · subst h
    by_cases hp : p < 32
    · simp [hp]
    · simp [hp]
  · simp [h]

/-- `PAD[q]` after a write of `PAD[p]` (R34). -/
theorem padWord_setPad (s : State) (p q : Nat) (v : Word) :
    (s.setPad p v).padWord q = if p = q ∧ p < 32 then v &&& padFields else s.padWord q := by
  unfold State.padWord
  rw [setPad_pad, getD_toList_setIfInBounds]
  split <;> rfl

@[simp] theorem outWord_setPad (s : State) (p : Nat) (v : Word) : (s.setPad p v).outWord = s.outWord := rfl
@[simp] theorem oeWord_setPad (s : State) (p : Nat) (v : Word) : (s.setPad p v).oeWord = s.oeWord := rfl
@[simp] theorem ctrlWord_setPad (s : State) (p q : Nat) (v : Word) : (s.setPad p v).ctrlWord q = s.ctrlWord q := rfl

/-- `CTRL[q]` after a write of `CTRL[p]` (R36). -/
theorem ctrlWord_setCtrl (s : State) (p q : Nat) (v : Word) :
    (s.setCtrl p v).ctrlWord q = if p = q ∧ p < 32 then v &&& ctrlFields else s.ctrlWord q := by
  unfold State.ctrlWord
  rw [setCtrl_ctrl, getD_toList_setIfInBounds]
  split <;> rfl

@[simp] theorem outWord_setCtrl (s : State) (p : Nat) (v : Word) : (s.setCtrl p v).outWord = s.outWord := rfl
@[simp] theorem oeWord_setCtrl (s : State) (p : Nat) (v : Word) : (s.setCtrl p v).oeWord = s.oeWord := rfl
@[simp] theorem padWord_setCtrl (s : State) (p q : Nat) (v : Word) : (s.setCtrl p v).padWord q = s.padWord q := rfl

/-- A pad word holds no reserved bit (R34). -/
theorem padWord_fields (s : State) (p : Nat) : s.padWord p &&& ~~~padFields = 0 := by
  unfold State.padWord
  rw [BitVec.and_assoc]
  have : padFields &&& ~~~padFields = 0#32 := by decide
  rw [this, BitVec.and_zero]
  rfl

/-- A function-select word holds no reserved bit (R36). -/
theorem ctrlWord_fields (s : State) (p : Nat) : s.ctrlWord p &&& ~~~ctrlFields = 0 := by
  unfold State.ctrlWord
  rw [BitVec.and_assoc]
  have : ctrlFields &&& ~~~ctrlFields = 0#32 := by decide
  rw [this, BitVec.and_zero]
  rfl

/-- `OUT` reads 0 in the bits of pins that do not exist (R31). -/
theorem outWord_hardwired (s : State) (i : Nat) (h : s.cfg.pinCount ≤ i) : s.outWord.getLsbD i = false := by
  simp only [State.outWord, BitVec.getLsbD_and, getLsbD_validMask, Bool.and_eq_false_iff]
  exact .inr (.inr (by simpa using h))

/-- `OE` reads 0 in the bits of pins that do not exist (R32). -/
theorem oeWord_hardwired (s : State) (i : Nat) (h : s.cfg.pinCount ≤ i) : s.oeWord.getLsbD i = false := by
  simp only [State.oeWord, BitVec.getLsbD_and, getLsbD_validMask, Bool.and_eq_false_iff]
  exact .inr (.inr (by simpa using h))

/-- Dropping absent pins' bits does nothing to `OUT` as read. -/
@[simp] theorem outWord_and_valid (s : State) : s.outWord &&& validMask s.cfg = s.outWord := by
  simp [State.outWord]

/-- Dropping absent pins' bits does nothing to `OE` as read. -/
@[simp] theorem oeWord_and_valid (s : State) : s.oeWord &&& validMask s.cfg = s.oeWord := by
  simp [State.oeWord]

/-! ### Shared transactions -/

/-- `OUT` after `WR_OUT_CLR` (R81): no bit of an absent pin can appear. -/
@[simp] theorem outWord_outClr (s : State) (d : Word) : (s.outClr d).outWord = s.outWord &&& ~~~d := by
  apply word_ext
  intro i hi
  have h := congrArg (fun w => w.getLsbD i) (outWord_and_valid s)
  simp only [BitVec.getLsbD_and] at h
  simp only [State.outClr, outWord_setOut, BitVec.getLsbD_and]
  rw [Bool.and_assoc, Bool.and_comm ((~~~d).getLsbD i), ← Bool.and_assoc, h]

/-- `OE` after `WR_OE_CLR` (R86). -/
@[simp] theorem oeWord_oeClr (s : State) (d : Word) : (s.oeClr d).oeWord = s.oeWord &&& ~~~d := by
  apply word_ext
  intro i hi
  have h := congrArg (fun w => w.getLsbD i) (oeWord_and_valid s)
  simp only [BitVec.getLsbD_and] at h
  simp only [State.oeClr, oeWord_setOe, BitVec.getLsbD_and]
  rw [Bool.and_assoc, Bool.and_comm ((~~~d).getLsbD i), ← Bool.and_assoc, h]

@[simp] theorem outWord_outSet (s : State) (d : Word) : (s.outSet d).outWord = (s.outWord ||| d) &&& validMask s.cfg := by
  simp [State.outSet]

@[simp] theorem outWord_outXor (s : State) (d : Word) : (s.outXor d).outWord = (s.outWord ^^^ d) &&& validMask s.cfg := by
  simp [State.outXor]

@[simp] theorem oeWord_oeSet (s : State) (d : Word) : (s.oeSet d).oeWord = (s.oeWord ||| d) &&& validMask s.cfg := by
  simp [State.oeSet]

@[simp] theorem oeWord_oeXor (s : State) (d : Word) : (s.oeXor d).oeWord = (s.oeWord ^^^ d) &&& validMask s.cfg := by
  simp [State.oeXor]

/-- Everything the write transaction of `PAD[p]` can do (R89, R50): write, or refuse by name. -/
theorem writePad_cases (p : Nat) (d : Word) (s : State) :
    (hasPin s.cfg p = true ∧ d &&& ~~~padFields = 0 ∧ writePad p d s = .next (s.setPad p d)) ∨
    (hasPin s.cfg p = true ∧ d &&& ~~~padFields ≠ 0 ∧ writePad p d s = .refused .reservedBits) ∨
    (hasPin s.cfg p = false ∧ writePad p d s = .refused .unmapped) := by
  unfold writePad
  by_cases h : hasPin s.cfg p = true
  · by_cases r : d &&& ~~~padFields = 0
    · left; exact ⟨h, r, by rw [if_pos h, if_pos r]⟩
    · right; left; exact ⟨h, r, by rw [if_pos h, if_neg r]⟩
  · right; right; exact ⟨Bool.eq_false_iff.mpr h, by rw [if_neg h]⟩

/-- Everything the write transaction of `CTRL[p]` can do (R91, R50). -/
theorem writeCtrl_cases (p : Nat) (d : Word) (s : State) :
    (hasPin s.cfg p = true ∧ d &&& ~~~ctrlFields = 0 ∧ writeCtrl p d s = .next (s.setCtrl p d)) ∨
    (hasPin s.cfg p = true ∧ d &&& ~~~ctrlFields ≠ 0 ∧ writeCtrl p d s = .refused .reservedBits) ∨
    (hasPin s.cfg p = false ∧ writeCtrl p d s = .refused .unmapped) := by
  unfold writeCtrl
  by_cases h : hasPin s.cfg p = true
  · by_cases r : d &&& ~~~ctrlFields = 0
    · left; exact ⟨h, r, by rw [if_pos h, if_pos r]⟩
    · right; left; exact ⟨h, r, by rw [if_pos h, if_neg r]⟩
  · right; right; exact ⟨Bool.eq_false_iff.mpr h, by rw [if_neg h]⟩

/-- The word `configure` writes to `CTRL[p]` has no reserved bit (R95). -/
@[simp] theorem ctrlSio_fields (c : Config) : ctrlSio c &&& ~~~ctrlFields = 0 := by
  unfold ctrlSio
  generalize c.fSio = f
  revert f
  decide

/-- The word `configure` writes to `PAD[p]` has no reserved bit (R95). -/
@[simp] theorem padConfigured_fields : padConfigured &&& ~~~padFields = 0 := by decide

/-- Everything a transaction of `configure` on an existing pin does (R95): a next state, by its number. -/
theorem configureTransaction_next (p : Nat) (s : State) (h : hasPin s.cfg p = true) :
    configureTransaction p 0 s = .next (s.oeClr (bitWord p)) ∧
    configureTransaction p 1 s = .next (s.outClr (bitWord p)) ∧
    configureTransaction p 2 s = .next (s.setPad p padConfigured) ∧
    configureTransaction p 3 s = .next (s.setCtrl p (ctrlSio s.cfg)) := by
  refine ⟨rfl, rfl, ?_, ?_⟩
  · simp [configureTransaction, writePad, h]
  · simp [configureTransaction, writeCtrl, h]

end Sys2Proof.Machine
end

