-- ==== Sys2Proof/Laws/Pins.lean ====
section
/-! SUPPORT. The pins: what the registers and pins read after the updates that touch none of them, `IN` bit by bit (R33), the
sample under a mask, and a Host step (R139). -/

namespace Sys2Proof.Machine

/-! ### Accessors after an update that leaves them alone -/

@[simp] theorem outWord_respond (s : State) (q : Word) : (s.respond q).outWord = s.outWord := rfl
@[simp] theorem oeWord_respond (s : State) (q : Word) : (s.respond q).oeWord = s.oeWord := rfl
@[simp] theorem padWord_respond (s : State) (q : Word) (p : Nat) : (s.respond q).padWord p = s.padWord p := rfl
@[simp] theorem ctrlWord_respond (s : State) (q : Word) (p : Nat) : (s.respond q).ctrlWord p = s.ctrlWord p := rfl
@[simp] theorem extAt_respond (s : State) (q : Word) (p : Nat) : (s.respond q).extAt p = s.extAt p := rfl
@[simp] theorem romAt_respond (s : State) (q : Word) (i : Nat) : (s.respond q).romAt i = s.romAt i := rfl

@[simp] theorem outWord_answer (s : State) (v : OpValue) : (s.answer v).outWord = s.outWord := rfl
@[simp] theorem oeWord_answer (s : State) (v : OpValue) : (s.answer v).oeWord = s.oeWord := rfl
@[simp] theorem padWord_answer (s : State) (v : OpValue) (p : Nat) : (s.answer v).padWord p = s.padWord p := rfl
@[simp] theorem ctrlWord_answer (s : State) (v : OpValue) (p : Nat) : (s.answer v).ctrlWord p = s.ctrlWord p := rfl
@[simp] theorem extAt_answer (s : State) (v : OpValue) (p : Nat) : (s.answer v).extAt p = s.extAt p := rfl
@[simp] theorem romAt_answer (s : State) (v : OpValue) (i : Nat) : (s.answer v).romAt i = s.romAt i := rfl

@[simp] theorem outWord_goto (s : State) (ph : Phase) : (s.goto ph).outWord = s.outWord := rfl
@[simp] theorem oeWord_goto (s : State) (ph : Phase) : (s.goto ph).oeWord = s.oeWord := rfl
@[simp] theorem padWord_goto (s : State) (ph : Phase) (p : Nat) : (s.goto ph).padWord p = s.padWord p := rfl
@[simp] theorem ctrlWord_goto (s : State) (ph : Phase) (p : Nat) : (s.goto ph).ctrlWord p = s.ctrlWord p := rfl
@[simp] theorem extAt_goto (s : State) (ph : Phase) (p : Nat) : (s.goto ph).extAt p = s.extAt p := rfl
@[simp] theorem romAt_goto (s : State) (ph : Phase) (i : Nat) : (s.goto ph).romAt i = s.romAt i := rfl

@[simp] theorem outWord_queue (s : State) (l : List Item) : (s.queue l).outWord = s.outWord := rfl
@[simp] theorem oeWord_queue (s : State) (l : List Item) : (s.queue l).oeWord = s.oeWord := rfl
@[simp] theorem padWord_queue (s : State) (l : List Item) (p : Nat) : (s.queue l).padWord p = s.padWord p := rfl
@[simp] theorem ctrlWord_queue (s : State) (l : List Item) (p : Nat) : (s.queue l).ctrlWord p = s.ctrlWord p := rfl
@[simp] theorem extAt_queue (s : State) (l : List Item) (p : Nat) : (s.queue l).extAt p = s.extAt p := rfl
@[simp] theorem romAt_queue (s : State) (l : List Item) (i : Nat) : (s.queue l).romAt i = s.romAt i := rfl

@[simp] theorem outWord_evaluated (s : State) : (s.evaluated).outWord = s.outWord := rfl
@[simp] theorem oeWord_evaluated (s : State) : (s.evaluated).oeWord = s.oeWord := rfl
@[simp] theorem padWord_evaluated (s : State) (p : Nat) : (s.evaluated).padWord p = s.padWord p := rfl
@[simp] theorem ctrlWord_evaluated (s : State) (p : Nat) : (s.evaluated).ctrlWord p = s.ctrlWord p := rfl
@[simp] theorem extAt_evaluated (s : State) (p : Nat) : (s.evaluated).extAt p = s.extAt p := rfl
@[simp] theorem romAt_evaluated (s : State) (i : Nat) : (s.evaluated).romAt i = s.romAt i := rfl

@[simp] theorem outWord_settle (s : State) : (settle s).outWord = s.outWord := rfl
@[simp] theorem oeWord_settle (s : State) : (settle s).oeWord = s.oeWord := rfl
@[simp] theorem padWord_settle (s : State) (p : Nat) : (settle s).padWord p = s.padWord p := rfl
@[simp] theorem ctrlWord_settle (s : State) (p : Nat) : (settle s).ctrlWord p = s.ctrlWord p := rfl
@[simp] theorem extAt_settle (s : State) (p : Nat) : (settle s).extAt p = s.extAt p := rfl
@[simp] theorem romAt_settle (s : State) (i : Nat) : (settle s).romAt i = s.romAt i := rfl

@[simp] theorem outWord_hostSet (s : State) (sets : List (Nat × Ext)) : (hostSet sets s).outWord = s.outWord := rfl
@[simp] theorem oeWord_hostSet (s : State) (sets : List (Nat × Ext)) : (hostSet sets s).oeWord = s.oeWord := rfl
@[simp] theorem padWord_hostSet (s : State) (sets : List (Nat × Ext)) (p : Nat) : (hostSet sets s).padWord p = s.padWord p := rfl
@[simp] theorem ctrlWord_hostSet (s : State) (sets : List (Nat × Ext)) (p : Nat) : (hostSet sets s).ctrlWord p = s.ctrlWord p := rfl
@[simp] theorem romAt_hostSet (s : State) (sets : List (Nat × Ext)) (i : Nat) : (hostSet sets s).romAt i = s.romAt i := rfl

@[simp] theorem extAt_setOut (s : State) (v : Word) (p : Nat) : (s.setOut v).extAt p = s.extAt p := rfl
@[simp] theorem extAt_setOe (s : State) (v : Word) (p : Nat) : (s.setOe v).extAt p = s.extAt p := rfl
@[simp] theorem extAt_setPad (s : State) (q : Nat) (v : Word) (p : Nat) : (s.setPad q v).extAt p = s.extAt p := rfl
@[simp] theorem extAt_setCtrl (s : State) (q : Nat) (v : Word) (p : Nat) : (s.setCtrl q v).extAt p = s.extAt p := rfl
@[simp] theorem romAt_setOut (s : State) (v : Word) (i : Nat) : (s.setOut v).romAt i = s.romAt i := rfl
@[simp] theorem romAt_setOe (s : State) (v : Word) (i : Nat) : (s.setOe v).romAt i = s.romAt i := rfl
@[simp] theorem romAt_setPad (s : State) (q : Nat) (v : Word) (i : Nat) : (s.setPad q v).romAt i = s.romAt i := rfl
@[simp] theorem romAt_setCtrl (s : State) (q : Nat) (v : Word) (i : Nat) : (s.setCtrl q v).romAt i = s.romAt i := rfl

/-! ### `IN` -/

/-- `IN` bit by bit (R33): `IN[p] = (p < PIN_COUNT and PAD[p].IE == 1) ? Level(p) : 0`. -/
theorem getLsbD_inWord (s : State) (p : Nat) : s.inWord.getLsbD p = s.inBitAt s.draws p := by
  unfold State.inWord
  rw [getLsbD_wordOf]
  by_cases h : p < 32
  · simp [h]
  · simp [h, State.inBitAt, hasPin]

/-- The sample under a mask is `IN & m` (R105, R116, R119). -/
theorem sampleIn_eq (s : State) (m : Word) : s.sampleIn m = s.inWord &&& m := by
  apply word_ext
  intro i hi
  rw [BitVec.getLsbD_and, getLsbD_inWord]
  unfold State.sampleIn
  rw [getLsbD_wordOf]
  simp only [hi, decide_true, Bool.true_and]
  exact Bool.and_comm _ _

/-- A read of `IN` changes nothing stored (R59): it leaves a response and uses up an evaluation. -/
theorem readIn_eq (s : State) : s.readIn = { s with response := s.inWord, draws := s.draws + 1 } := rfl

/-- The level of a pin that does not drive and that the Host drives is the Host's (R40). -/
theorem levelAt_of_host (s : State) (n p : Nat) (b : Bool) (hd : s.drivesAt n p = false)
    (he : s.extAt p = if b then .high else .low) : s.levelAt n p = b := by
  unfold State.levelAt
  rw [hd, he]
  cases b <;> rfl

/-- A pin routed to the simple I/O function does not drive when its output enable is 0 (R39). -/
theorem drivesAt_of_oe (s : State) (n p : Nat) (hf : funcsel (s.ctrlWord p) = s.cfg.fSio)
    (ho : s.oeWord.getLsbD p = false) : s.drivesAt n p = false := by
  unfold State.drivesAt
  rw [if_pos hf, ho, Bool.false_and]

/-! ### A Host step -/

/-- What the Host applies to a pin after one step: the last of its settings for that pin, if the pin exists (R139). -/
theorem extAt_hostSet_of_not_mem (s : State) (sets : List (Nat × Ext)) (p : Nat) (h : ∀ pe ∈ sets, pe.1 ≠ p) :
    (hostSet sets s).extAt p = s.extAt p := by
  unfold State.extAt hostSet
  simp only
  generalize s.ext = v
  induction sets generalizing v with
  | nil => rfl
  | cons pe sets ih =>
    rw [List.foldl_cons, ih (fun x hx => h x (List.mem_cons_of_mem _ hx))]
    split
    · rw [getD_toList_setIfInBounds, if_neg]
      rintro ⟨e, -⟩
      exact h pe List.mem_cons_self e
    · rfl

end Sys2Proof.Machine
end

