-- ==== Sys2Proof/Laws/Step.lean ====
section
/-! SUPPORT. What an instruction and a turn can do: the frame every instruction has, and each kind of turn spelt out once. -/

namespace Sys2Proof.Machine

/-- What no instruction changes: the parameters, the pins the Host holds, the records, the bus master, the bound names and the
schedule (R24, R25, R138). -/
structure SameOutside (s t : State) : Prop where
  cfg : t.cfg = s.cfg
  ext : t.ext = s.ext
  events : t.events = s.events
  master : t.master = s.master
  names : t.names = s.names
  schedule : t.schedule = s.schedule

/-- A transaction of `configure` keeps everything outside (R95). -/
theorem configureTransaction_outside {p : Nat} {j : Fin 4} {s t : State} (h : configureTransaction p j s = .next t) :
    SameOutside s t := by
  unfold configureTransaction at h
  split at h
  · cases h; exact ⟨rfl, rfl, rfl, rfl, rfl, rfl⟩
  · cases h; exact ⟨rfl, rfl, rfl, rfl, rfl, rfl⟩
  · rcases writePad_cases p padConfigured s with ⟨-, -, e⟩ | ⟨-, -, e⟩ | ⟨-, e⟩ <;> rw [e] at h <;> cases h
    exact ⟨rfl, rfl, rfl, rfl, rfl, rfl⟩
  · rcases writeCtrl_cases p (ctrlSio s.cfg) s with ⟨-, -, e⟩ | ⟨-, -, e⟩ | ⟨-, e⟩ <;> rw [e] at h <;> cases h
    exact ⟨rfl, rfl, rfl, rfl, rfl, rfl⟩

/-- What it takes for a sequence to answer a next state. -/
theorem andThen_next {o : Answer} {f : State → Answer} {t : State} :
    andThen o f = .next t ↔ ∃ u, o = .next u ∧ f u = .next t := by
  cases o <;> simp [andThen]

/-- What it takes for a latch read to go on. -/
theorem withLatch_next {α : Type} {o : Option α} {f : α → Answer} {t : State} :
    withLatch o f = .next t ↔ ∃ a, o = some a ∧ f a = .next t := by
  cases o <;> simp [withLatch]

/-- No instruction changes what lies outside the block and its operation in progress. -/
theorem exec_outside {i : Instr} {s t : State} (h : exec i s = .next t) : SameOutside s t := by
  have pad : ∀ p d, writePad p d s = .next t → SameOutside s t := by
    intro p d h
    rcases writePad_cases p d s with ⟨-, -, e⟩ | ⟨-, -, e⟩ | ⟨-, e⟩ <;> rw [e] at h <;> cases h
    exact ⟨rfl, rfl, rfl, rfl, rfl, rfl⟩
  have ctrl : ∀ p d, writeCtrl p d s = .next t → SameOutside s t := by
    intro p d h
    rcases writeCtrl_cases p d s with ⟨-, -, e⟩ | ⟨-, -, e⟩ | ⟨-, e⟩ <;> rw [e] at h <;> cases h
    exact ⟨rfl, rfl, rfl, rfl, rfl, rfl⟩
  have status : ∀ (j : Fin 4) (ph : Phase), andThen (configureTransaction s.cfg.statusPin j s) (fun u => .next (u.goto ph)) = .next t →
      SameOutside s t := by
    intro j ph h
    obtain ⟨u, hu, hf⟩ := andThen_next.mp h
    cases hf
    have := configureTransaction_outside hu
    exact ⟨this.cfg, this.ext, this.events, this.master, this.names, this.schedule⟩
  cases i with
  | wrPad p d => exact pad p d h
  | wrCtrl p d => exact ctrl p d h
  | rdPad p =>
    simp only [exec, execRdPad, readPad] at h
    split at h <;> cases h
    exact ⟨rfl, rfl, rfl, rfl, rfl, rfl⟩
  | rdCtrl p =>
    simp only [exec, execRdCtrl, readCtrl] at h
    split at h <;> cases h
    exact ⟨rfl, rfl, rfl, rfl, rfl, rfl⟩
  | routeToPeripheral p f =>
    simp only [exec, execRouteToPeripheral] at h
    split at h
    · exact ctrl p _ h
    · cases h
  | configure p => simp only [exec, execConfigure] at h; split at h <;> cases h; exact ⟨rfl, rfl, rfl, rfl, rfl, rfl⟩
  | enablePulldown p => simp only [exec, execEnablePulldown] at h; split at h <;> cases h; exact ⟨rfl, rfl, rfl, rfl, rfl, rfl⟩
  | set m => simp only [exec, execSet] at h; split at h <;> cases h; exact ⟨rfl, rfl, rfl, rfl, rfl, rfl⟩
  | clear m => simp only [exec, execClear] at h; split at h <;> cases h; exact ⟨rfl, rfl, rfl, rfl, rfl, rfl⟩
  | putMasked m v => simp only [exec, execPutMasked] at h; split at h <;> cases h; exact ⟨rfl, rfl, rfl, rfl, rfl, rfl⟩
  | setDirectionOutMasked m =>
    simp only [exec, execSetDirectionOutMasked] at h; split at h <;> cases h; exact ⟨rfl, rfl, rfl, rfl, rfl, rfl⟩
  | setDirectionDisabledMasked m =>
    simp only [exec, execSetDirectionDisabledMasked] at h; split at h <;> cases h; exact ⟨rfl, rfl, rfl, rfl, rfl, rfl⟩
  | get p => simp only [exec, execGet] at h; split at h <;> cases h; exact ⟨rfl, rfl, rfl, rfl, rfl, rfl⟩
  | getMasked m => simp only [exec, execGetMasked] at h; split at h <;> cases h; exact ⟨rfl, rfl, rfl, rfl, rfl, rfl⟩
  | mask a n => simp only [exec, execMask] at h; split at h <;> cases h; exact ⟨rfl, rfl, rfl, rfl, rfl, rfl⟩
  | iCheck =>
    simp only [exec, execICheck, raiseConfigError] at h
    split at h <;> cases h <;> exact ⟨rfl, rfl, rfl, rfl, rfl, rfl⟩
  | iCfg k j =>
    simp only [exec, execICfg] at h
    split at h
    · cases h
    · obtain ⟨u, hu, hf⟩ := andThen_next.mp h
      cases hf
      have := configureTransaction_outside hu
      exact ⟨this.cfg, this.ext, this.events, this.master, this.names, this.schedule⟩
  | iPull k j =>
    simp only [exec, execIPull] at h
    split at h
    · cases h
    · obtain ⟨u, hu, hf⟩ := andThen_next.mp h
      simp only [readPad] at hu
      split at hu <;> cases hu
      cases hf
      exact ⟨rfl, rfl, rfl, rfl, rfl, rfl⟩
    · rename_i q _
      obtain ⟨w, -, hf⟩ := withLatch_next.mp h
      obtain ⟨u, hu, hf⟩ := andThen_next.mp hf
      rcases writePad_cases q (w ||| padPdeBit) s with ⟨-, -, e⟩ | ⟨-, -, e⟩ | ⟨-, e⟩ <;> rw [e] at hu <;> cases hu
      cases hf
      exact ⟨rfl, rfl, rfl, rfl, rfl, rfl⟩
  | iMasks => simp only [exec, execIMasks] at h; split at h <;> cases h; exact ⟨rfl, rfl, rfl, rfl, rfl, rfl⟩
  | iOverlap =>
    simp only [exec, execIOverlap, raiseConfigError] at h
    split at h <;> cases h <;> exact ⟨rfl, rfl, rfl, rfl, rfl, rfl⟩
  | iStatus j =>
    simp only [exec, execIStatus] at h
    split at h
    · exact status _ _ h
    · exact status _ _ h
    · exact status _ _ h
    · exact status _ _ h
    · cases h; exact ⟨rfl, rfl, rfl, rfl, rfl, rfl⟩
    · cases h; exact ⟨rfl, rfl, rfl, rfl, rfl, rfl⟩
  | lDir =>
    obtain ⟨cs, -, hf⟩ := withLatch_next.mp h
    cases hf
    cases csAsserted cs <;> exact ⟨rfl, rfl, rfl, rfl, rfl, rfl⟩
  | lXor =>
    obtain ⟨a, -, hf⟩ := withLatch_next.mp h
    obtain ⟨o, -, hf⟩ := withLatch_next.mp hf
    split at hf <;> cases hf
    exact ⟨rfl, rfl, rfl, rfl, rfl, rfl⟩
  | _ => cases h; exact ⟨rfl, rfl, rfl, rfl, rfl, rfl⟩

/-- A run of an instruction answers a next state when the instruction does; the records of the step come after it (R41). -/
theorem runInstr_next {i : Instr} {s t : State} :
    runInstr i s = .next t ↔ ∃ u, exec i s = .next u ∧ t = if takesStep i then settle u else u := by
  unfold runInstr
  rw [andThen_next]
  constructor
  · rintro ⟨u, hu, h⟩; cases h; exact ⟨u, hu, rfl⟩
  · rintro ⟨u, hu, rfl⟩; exact ⟨u, hu, rfl⟩

/-- Every kind of turn, once: what a step that answers a next state has done (R18, R24, R139, R146). -/
theorem step_cases {s t : State} (h : step s = .next t) :
    s.cfg.Admitted ∧
    ((s.schedule = [] ∧ masterTurn s = .next t) ∨
     (∃ rest, s.schedule = .master :: rest ∧ masterTurn { s with schedule := rest } = .next t) ∨
     (∃ sets rest, s.schedule = .host sets :: rest ∧ t = settle (hostSet sets { s with schedule := rest })) ∨
     (∃ rest, s.schedule = .powerOn :: rest ∧ t = powerOn { s with schedule := rest })) := by
  unfold step takeTurn at h
  split at h
  · rename_i ha
    refine ⟨ha, ?_⟩
    split at h
    · rename_i e; exact .inl ⟨e, h⟩
    · rename_i rest e; exact .inr (.inl ⟨rest, e, h⟩)
    · rename_i sets rest e; cases h; exact .inr (.inr (.inl ⟨sets, rest, e, rfl⟩))
    · rename_i rest e; cases h; exact .inr (.inr (.inr ⟨rest, e, rfl⟩))
  · cases h

/-- The Sequencer's turn when nothing is pending: the instruction of its phase (R27, R106). -/
theorem masterTurn_sequencer (s : State) (hm : s.master = .sequencer) (hp : s.pending = []) :
    masterTurn s = runInstr (phaseInstr s.phase) s := by
  simp only [masterTurn, hm, hp]

end Sys2Proof.Machine
end

