-- ==== Sys2Proof/Tests/Slice0.lean ====
section
/-! SUPPORT. The model's own tests: ill-formed terms refused, words of the encoding table decoded, one small step of each instruction
with the value spec/95_test_vectors.md gives (V1 to V8, P1 to P5), and for each statement with hypotheses a concrete state
that meets them. -/

namespace Sys2Proof.Tests

open Sys2Proof Sys2Proof.Machine

/-! ### Small states -/

/-- The geometry of the spec's examples, with an image shorter than the array and two pulled pins. -/
def cfg : Config := { Config.default with image := [0x42, 0x43, 0x44], fillByte := 0xEE, pulldownPins := [3, 2] }

/-- No pin driven by the Host. -/
def silent : Vector Machine.Ext 32 := Vector.replicate 32 .z

/-- That machine after power-on, run by the Sequencer. -/
def base : State := State.initial cfg silent .sequencer

/-- The masks of V6's first row. -/
def masks : Masks := ⟨0x0000000C, 0x007F8000, 0x04000000, 0x02000000⟩

/-- That machine in a phase of its loop, its pins configured, the indicator lit, every latch written. -/
def looping (ph : Phase) : State :=
  { base with
    phase := ph
    out := 0x02000000
    oe := 0x02000000
    pad := Vector.replicate 32 0x53
    ctrl := Vector.replicate 32 5
    rom := [(0, 0x42), (1, 0x43), (2, 0x44), (3, 0xEE)]
    csL := some 0x04000000
    addrL := some 1
    outL := some 0x02000000
    masks := some masks }

/-- That machine with a Test Master in place of the Sequencer. -/
def bench (lines : List Item) (ts : List Turn) : State := { base with master := .testMaster lines, schedule := ts }

/-- A part of the next state, if there is one. -/
def after {α : Type} (f : State → α) : Answer → Option α
  | .next t => some (f t)
  | .fault _ => none
  | .refused _ => none

/-- The refusal, if it is one. -/
def refusal : Answer → Option Refusal
  | .refused r => some r
  | .next _ => none
  | .fault _ => none

/-- The fault, if it is one. -/
def fault : Answer → Option Fault
  | .fault r => some r
  | .next _ => none
  | .refused _ => none

/-! ### Ill-formed terms -/

theorem test_absent_pins_ill_formed :
    (Instr.rdPad 30).WellFormed cfg = false ∧ (Instr.rdCtrl 30).WellFormed cfg = false ∧
    (Instr.configure 30).WellFormed cfg = false ∧ (Instr.enablePulldown 30).WellFormed cfg = false ∧
    (Instr.get 30).WellFormed cfg = false ∧ (Instr.routeToPeripheral 30 2).WellFormed cfg = false := by decide

theorem test_reserved_bits_ill_formed :
    (Instr.wrPad 4 0x153).WellFormed cfg = false ∧ (Instr.wrPad 4 0xFF).WellFormed cfg = true ∧
    (Instr.wrPad 30 0).WellFormed cfg = false ∧ (Instr.wrCtrl 4 0x20).WellFormed cfg = false ∧
    (Instr.wrCtrl 4 0x1F).WellFormed cfg = true ∧ (Instr.wrCtrl 30 0).WellFormed cfg = false := by decide

theorem test_route_numbers_ill_formed :
    (Instr.routeToPeripheral 4 5).WellFormed cfg = false ∧ (Instr.routeToPeripheral 4 32).WellFormed cfg = false ∧
    (Instr.routeToPeripheral 4 31).WellFormed cfg = true := by decide

theorem test_masks_ill_formed :
    (Instr.set 0x40000000).WellFormed cfg = false ∧ (Instr.clear 0x40000000).WellFormed cfg = false ∧
    (Instr.putMasked 0x40000000 0).WellFormed cfg = false ∧ (Instr.getMasked 0x80000000).WellFormed cfg = false ∧
    (Instr.setDirectionOutMasked 0x40000000).WellFormed cfg = false ∧
    (Instr.setDirectionDisabledMasked 0x40000000).WellFormed cfg = false ∧ (Instr.set 0x3FFFFFFF).WellFormed cfg = true := by
  decide

theorem test_ranges_and_phases_ill_formed :
    (Instr.mask 31 2).WellFormed cfg = false ∧ (Instr.mask 0 32).WellFormed cfg = true ∧
    (Instr.iCfg 11 0).WellFormed cfg = false ∧ (Instr.iCfg 10 3).WellFormed cfg = true ∧
    (Instr.iPull 2 0).WellFormed cfg = false ∧ (Instr.iPull 1 1).WellFormed cfg = true := by decide

/-! ### Encodings: words written out from the table of R71 -/

theorem test_decode_sio_reads :
    decodeTableWord 40 0x0_D0000004 = some .rdIn ∧ decodeTableWord 40 0x0_D0000010 = some .rdOut ∧
    decodeTableWord 40 0x0_D0000020 = some .rdOe := by decide

theorem test_decode_out_writes :
    decodeTableWord 72 0x80000001_01_D0000010 = some (.wrOut 0x80000001) ∧
    decodeTableWord 72 0x00000030_01_D0000014 = some (.wrOutSet 0x30) ∧
    decodeTableWord 72 0x12345678_01_D0000018 = some (.wrOutClr 0x12345678) ∧
    decodeTableWord 72 0x00218000_01_D000001C = some (.wrOutXor 0x218000) := by decide

theorem test_decode_oe_writes :
    decodeTableWord 72 0x007F8000_01_D0000020 = some (.wrOe 0x7F8000) ∧
    decodeTableWord 72 0x007F8000_01_D0000024 = some (.wrOeSet 0x7F8000) ∧
    decodeTableWord 72 0x00000020_01_D0000028 = some (.wrOeClr 0x20) ∧
    decodeTableWord 72 0x00000006_01_D000002C = some (.wrOeXor 6) := by decide

theorem test_decode_pin_registers :
    decodeTableWord 40 0x0_4001C004 = some (.rdPad 0) ∧ decodeTableWord 72 0x00000053_01_4001C078 = some (.wrPad 29 0x53) ∧
    decodeTableWord 40 0x0_40014004 = some (.rdCtrl 0) ∧ decodeTableWord 72 0x00000005_01_400140EC = some (.wrCtrl 29 5) := by
  decide

/-- V2's wrong directions: a write of `IN`, a read of `OUT_SET` and of `OE_XOR`. -/
theorem test_decode_wrong_direction :
    decodeRequest cfg ⟨32, true, 0xD0000004, 0⟩ = .error .wrongDirection ∧
    decodeRequest cfg ⟨32, false, 0xD0000014, 0⟩ = .error .wrongDirection ∧
    decodeRequest cfg ⟨32, false, 0xD000002C, 0⟩ = .error .wrongDirection := by decide

/-- V2's unmapped words of the SIO window and below it. -/
theorem test_decode_unmapped_sio :
    decodeRequest cfg ⟨32, false, 0xD0000000, 0⟩ = .error .unmapped ∧
    decodeRequest cfg ⟨32, true, 0xD0000008, 0⟩ = .error .unmapped ∧
    decodeRequest cfg ⟨32, false, 0xD0000030, 0⟩ = .error .unmapped ∧
    decodeRequest cfg ⟨32, false, 0, 0⟩ = .error .unmapped := by decide

/-- V2's unmapped words of the pad and function-select windows. -/
theorem test_decode_unmapped_pins :
    decodeRequest cfg ⟨32, false, 0x4001C000, 0⟩ = .error .unmapped ∧
    decodeRequest cfg ⟨32, false, 0x4001C07C, 0⟩ = .error .unmapped ∧
    decodeRequest cfg ⟨32, false, 0x40014000, 0⟩ = .error .unmapped ∧
    decodeRequest cfg ⟨32, false, 0x400140F4, 0⟩ = .error .unmapped := by decide

/-- V2's unaligned access, and a narrow one (R55). -/
theorem test_decode_bad_access :
    decodeRequest cfg ⟨32, true, 0xD0000016, 0⟩ = .error .badAccess ∧
    decodeRequest cfg ⟨16, true, 0xD0000014, 0⟩ = .error .badAccess := by decide

/-- Byte strings that are no transaction (log 12). -/
theorem test_decode_malformed_bytes :
    decode cfg [] = .error .badAccess ∧ decode cfg [0x04, 0, 0, 0xD0, 0x02, 0, 0, 0, 0] = .error .badAccess ∧
    decode cfg [0x04, 0, 0, 0xD0, 0x00, 0, 0, 0, 0] = .ok .rdIn := by decide

theorem test_encode_is_the_table :
    encode cfg (.wrCtrl 5 5) = some [0x2C, 0x40, 0x01, 0x40, 0x01, 0x05, 0, 0, 0] ∧ encode cfg .lCs = none := by decide

/-! ### Register transactions (V3, V4) -/

/-- The Host drives pins 2 and 26 high; every pad and function is at reset (V4). -/
theorem test_rdIn :
    after State.response (exec .rdIn (hostSet [(2, .high), (26, .high)] base)) = some 0x04000004 := by decide

theorem test_rdOut : after State.response (exec .rdOut { base with out := 0x02000000 }) = some 0x02000000 := by decide

theorem test_wrOut : after State.outWord (exec (.wrOut 0xFFFFFFFF) { base with out := 0x2BCD0000 }) = some 0x3FFFFFFF := by decide

theorem test_wrOutSet :
    after State.outWord (exec (.wrOutSet 0x30) { base with out := 1 }) = some 0x31 ∧
    after State.outWord (exec (.wrOutSet 0xFFFFFFFF) base) = some 0x3FFFFFFF := by decide

theorem test_wrOutClr : after State.outWord (exec (.wrOutClr 0x11) { base with out := 0x31 }) = some 0x20 := by decide

theorem test_wrOutXor :
    after State.outWord (exec (.wrOutXor 0x218000) { base with out := 0x02000000 }) = some 0x02218000 ∧
    after State.outWord (exec (.wrOutXor 0xC0000000) base) = some 0 := by decide

theorem test_rdOe : after State.response (exec .rdOe { base with response := 7 }) = some 0 := by decide

theorem test_wrOe : after State.oeWord (exec (.wrOe 0x7F8000) { base with oe := 0x12345678 }) = some 0x7F8000 := by decide

theorem test_wrOeSet : after State.oeWord (exec (.wrOeSet 0x7F8000) { base with oe := 0x02000000 }) = some 0x027F8000 := by decide

theorem test_wrOeClr : after State.oeWord (exec (.wrOeClr 0x7F8000) { base with oe := 0x027F8000 }) = some 0x02000000 := by decide

theorem test_wrOeXor : after State.oeWord (exec (.wrOeXor 6) { base with oe := 3 }) = some 5 := by decide

theorem test_rdPad : after State.response (exec (.rdPad 4) base) = some 0x56 := by decide

theorem test_wrPad :
    after (fun t => (t.padWord 4, t.padWord 5)) (exec (.wrPad 4 0xFF) base) = some (0xFF, 0x56) ∧
    refusal (exec (.wrPad 4 0x153) base) = some .reservedBits := by decide

theorem test_rdCtrl : after State.response (exec (.rdCtrl 4) base) = some 0x1F := by decide

theorem test_wrCtrl :
    after (fun t => (t.ctrlWord 4, t.ctrlWord 3)) (exec (.wrCtrl 4 2) base) = some (2, 0x1F) ∧
    refusal (exec (.wrCtrl 4 0x20) base) = some .reservedBits := by decide

/-- V4's drive table: driving, `OD` on, `OE` off, `F_NULL`. -/
theorem test_drive_table :
    ({ looping .lCs with oe := 0x10 } : State).drivesAt 0 4 = true ∧
    (({ looping .lCs with oe := 0x10 } : State).setPad 4 0xD3).drivesAt 0 4 = false ∧
    ({ looping .lCs with oe := 0 } : State).drivesAt 0 4 = false ∧
    (({ looping .lCs with oe := 0x10 } : State).setCtrl 4 31).drivesAt 0 4 = false := by decide

/-- V4's level table: the block's own 1, the Host's 1, and the two pulls. -/
theorem test_level_table :
    ({ looping .lCs with oe := 0x10, out := 0x10 } : State).levelAt 0 4 = true ∧
    (hostSet [(4, .high)] (looping .lCs)).levelAt 0 4 = true ∧
    ((looping .lCs).setPad 4 0x5B).levelAt 0 4 = true ∧ ((looping .lCs).setPad 4 0x57).levelAt 0 4 = false := by decide

/-- A pin whose input is disabled reads 0 whatever the Host drives (V4). -/
theorem test_input_disabled :
    ((hostSet [(4, .high)] (looping .lCs)).setPad 4 0x13).sampleIn 0x10 = 0 := by decide

/-! ### Pin Bank operations (V1, V5) -/

theorem test_mask :
    after State.result (exec (.mask 15 8) base) = some (.word 0x7F8000) ∧
    after State.result (exec (.mask 0 32) base) = some (.word 0xFFFFFFFF) ∧
    refusal (exec (.mask 31 2) base) = some .badRange := by decide

theorem test_configure :
    after (fun t => (t.oeWord, t.outWord, t.pending.length)) (exec (.configure 5) { base with oe := 0x20, out := 0x20 }) =
      some (0, 0x20, 3) ∧
    refusal (exec (.configure 30) base) = some .precondition := by decide

theorem test_routeToPeripheral :
    after (fun t => (t.ctrlWord 4, t.padWord 4)) (exec (.routeToPeripheral 4 2) (looping .lCs)) = some (2, 0x53) ∧
    refusal (exec (.routeToPeripheral 4 5) base) = some .precondition := by decide

theorem test_enablePulldown :
    after (fun t => (t.response, t.padWord 3, t.pending.length)) (exec (.enablePulldown 3) (looping .lCs)) =
      some (0x53, 0x53, 1) := by decide

theorem test_set :
    after State.outWord (exec (.set 0x02000000) base) = some 0x02000000 ∧
    refusal (exec (.set 0x40000000) base) = some .precondition := by decide

theorem test_clear : after State.outWord (exec (.clear 1) { base with out := 0x02000001 }) = some 0x02000000 := by decide

/-- `OUT = 0xF0`, `put_masked 0x0F, 0x05`: the read answers `0xF0`, the toggle word is `0x05` (V5). -/
theorem test_putMasked :
    after (fun t => (t.response, t.outWord, t.pending.length)) (exec (.putMasked 0x0F 0x05) { base with out := 0xF0 }) =
      some (0xF0, 0xF0, 1) ∧
    flips 0xF0 0x05 0x0F = 0x05 ∧ flips 0 0xFFFF 0xFF00 = 0xFF00 ∧ flips 0xAA 0x55 0xFF = 0xFF := by decide

theorem test_setDirectionOutMasked :
    after State.oeWord (exec (.setDirectionOutMasked 0x7F8000) base) = some 0x7F8000 := by decide

theorem test_setDirectionDisabledMasked :
    after State.oeWord (exec (.setDirectionDisabledMasked 0x7F8000) { base with oe := 0x027F8000 }) = some 0x02000000 := by decide

theorem test_get :
    after State.result (exec (.get 26) (hostSet [(26, .high)] base)) = some (.bool true) ∧
    after State.result (exec (.get 26) ((hostSet [(26, .high)] base).setPad 26 0x16)) = some (.bool false) := by decide

theorem test_getMasked :
    after State.result (exec (.getMasked 0xC) (hostSet [(2, .high), (26, .high)] base)) = some (.word 4) := by decide

/-- P1 rows 1 to 4 from `configure 5` on: the four transactions of the operation, one turn each. -/
theorem test_configure_in_four_turns :
    after (fun t => (t.padWord 5, t.ctrlWord 5, t.pending)) (runSteps 4 (bench [.op none (.configure 5)] [])) =
      some (0x53, 5, []) := by decide

/-- `OUT = 0xF0`, `put_masked 0x0F, 0x05` in its two turns (V5). -/
theorem test_putMasked_in_two_turns :
    after State.outWord (runSteps 2 { bench [.op none (.putMasked 0x0F 0x05)] [] with out := 0xF0 }) = some 0xF5 := by decide

/-- The assembler's lines (R75): a bound read, an expression over its name, and an unbound name. -/
theorem test_lines_bind_names :
    after State.outWord (runSteps 2 (bench [.read (some 0) (.pad 4), .write .out (.shl (.name 0) (.const 4))] [])) = some 0x560 ∧
    refusal (step (bench [.write .out (.name 1)] [])) = some .unboundName ∧
    refusal (step (bench [.write (.pad 30) (.const 0)] [])) = some .unmapped := by decide

/-- `mod` of R20: 7 mod 4 is 3; a remainder by 0 has no stated value, and the write goes through (log 32). -/
theorem test_remainder :
    after State.outWord (step (bench [.write .out (.mod (.const 7) (.const 4))] [])) = some 3 ∧
    after State.master (step (bench [.write .out (.mod (.const 7) (.const 0))] [])) = some (.testMaster []) := by decide

/-- A name bound to an operation without a result: the operation has its effect, the name some value (log 34). -/
theorem test_binding_without_a_result :
    after State.outWord (step (bench [.op (some 0) (.set 0x30)] [])) = some 0x30 ∧
    after (fun t => t.names.map Prod.fst) (step (bench [.op (some 0) (.set 0x30)] [])) = some [0] := ⟨rfl, rfl⟩

/-! ### The Sequencer's phases (V6, V8) -/

theorem test_iCheck :
    after State.phase (exec .iCheck base) = some (.iCfg 0 0) ∧
    (∀ c ∈ [{ cfg with csPin := 30 }, { cfg with dataStart := 23 }, { cfg with pulldownPins := [30] },
        { cfg with csPin := 40, addrStart := 14 }],
      after State.status (exec .iCheck { base with cfg := c }) = some (.halt .pinRange)) := by decide

theorem test_iCfg :
    after (fun t => (t.padWord 26, t.phase)) (exec (.iCfg 10 2) base) = some (0x53, .iCfg 10 3) ∧
    after State.phase (exec (.iCfg 10 3) base) = some (.iPull 0 0) ∧
    fault (exec (.iCfg 11 0) base) = some .noSuchPhase := by decide

theorem test_iPull :
    after (fun t => (t.padL, t.phase)) (exec (.iPull 0 0) (looping .iMasks)) = some (some 0x53, .iPull 0 1) ∧
    after (fun t => (t.padWord 2, t.phase)) (exec (.iPull 0 1) { looping .iMasks with padL := some 0x53 }) =
      some (0x57, .iPull 1 0) := by decide

theorem test_iMasks : after State.masks (exec .iMasks base) = some (some masks) := by decide

theorem test_iOverlap :
    after State.phase (exec .iOverlap { base with masks := some masks }) = some .iFloat ∧
    after (fun t => (t.phase, t.status)) (exec .iOverlap { base with masks := some { masks with addr := 0xC000 } }) =
      some (.halted, .halt .overlap) := by decide

theorem test_iFloat :
    after State.oeWord (exec .iFloat { base with masks := some masks, oe := 0x027F8000 }) = some 0x02000000 := by decide

theorem test_iFill :
    after (fun t => (List.range 5).map t.romAt) (exec .iFill base) =
      some [some 0x42, some 0x43, some 0x44, some 0xEE, none] := by decide

theorem test_iStatus :
    after (fun t => (t.ctrlWord 25, t.phase)) (exec (.iStatus 3) base) = some (5, .iStatus 4) ∧
    after (fun t => (t.oeWord, t.phase)) (exec (.iStatus 5) { base with masks := some masks }) = some (0x02000000, .lCs) := by
  decide

theorem test_lCs :
    after (fun t => (t.csL, t.phase)) (exec .lCs (hostSet [(26, .high)] (looping .lCs))) = some (some 0x04000000, .lDir) ∧
    after State.csL (exec .lCs (hostSet [(26, .low)] (looping .lCs))) = some (some 0) := by decide

theorem test_lDir :
    after State.oeWord (exec .lDir (looping .lDir)) = some 0x027F8000 ∧
    after State.oeWord (exec .lDir { looping .lDir with csL := some 0, oe := 0x027F8000 }) = some 0x02000000 := by decide

theorem test_lAddr :
    after State.addrL (exec .lAddr (hostSet [(2, .high), (3, .low)] (looping .lAddr))) = some (some 1) ∧
    lookupIndex { cfg with memLen := 256 } 300 = 44 ∧ lookupIndex { cfg with memLen := 3 } 5 = 2 := by decide

theorem test_lRdout :
    after (fun t => (t.outL, t.phase)) (exec .lRdout { looping .lRdout with outL := none }) = some (some 0x02000000, .lXor) := by
  decide

/-- `ROM[1] = 0x43` over `out_l = 0x0200_0000` (V6); a cell without a value is a fault (R43). -/
theorem test_lXor :
    after State.outWord (exec .lXor (looping .lXor)) = some 0x02218000 ∧
    fault (exec .lXor { looping .lXor with rom := [] }) = some .romEmpty := by decide

theorem test_halted : exec .halted { base with phase := .halted } = .next { base with phase := .halted } := rfl

/-- A record for a contended pin after the Host's step, and none once the Host lets go (V7). -/
theorem test_contention :
    after State.events (step { looping .lRdout with schedule := [.host [(25, .low)]] }) = some [.contention 25] ∧
    after State.events (step { looping .lRdout with schedule := [.host [(25, .high)]] }) = some [] := by decide

/-- An inadmissible configuration is refused before anything runs: each bound of R18 and each clause of R49. -/
theorem test_configurations_refused :
    ∀ c ∈ [{ cfg with pinCount := 0 }, { cfg with pinCount := 33 }, { cfg with dataBits := 0 }, { cfg with dataBits := 9 },
        { cfg with memLen := 0 }, { cfg with fNull := 5 }, { cfg with csPin := 25 }, { cfg with csPin := 2 },
        { cfg with statusPin := 3 }, { cfg with csPin := 15 }, { cfg with statusPin := 22 }, { cfg with sioBase := 0xD0000002 },
        { cfg with padsBase := 0xD000002C }, { cfg with ioctrlBase := 0xCFFFFF14 }, { cfg with ioctrlBase := 0x4001C078 }],
      refusal (step { base with cfg := c }) = some .config := by decide

/-- Configurations on the bounds run: 32 pins, one data pin, no address pin, pins out of range. -/
theorem test_configurations_admitted :
    ∀ c ∈ [{ cfg with pinCount := 32 }, { cfg with dataBits := 1 }, { cfg with addrBits := 0 }, { cfg with csPin := 40 },
        { cfg with addrStart := 14 }],
      after State.cfg (step { base with cfg := c }) = some c := by decide

/-! ### What each statement's hypotheses are met by -/

theorem cfg_admitted : cfg.Admitted := by decide

theorem witness_DecodeOfEncodeIsTheInstruction :
    cfg.Admitted ∧ (Instr.wrPad 29 0xFF).WellFormed cfg = true ∧
    encode cfg (.wrPad 29 0xFF) = some [0x78, 0xC0, 0x01, 0x40, 0x01, 0xFF, 0, 0, 0] := by decide

theorem witness_RequestIsTheEncodingOfItsInstruction :
    cfg.Admitted ∧ decodeRequest cfg ⟨32, true, 0x400140EC, 0x1F⟩ = .ok (.wrCtrl 29 0x1F) := by decide

theorem witness_DecoderRefusesByName_access :
    ((⟨31, false, 0xD0000004, 0⟩ : Request).width ≠ 32) ∧ (⟨32, false, 0xD0000007, 0⟩ : Request).addr.toNat % 4 = 3 := by decide

theorem witness_DecoderRefusesByName_direction :
    (⟨32, true, 0xD0000004, 0⟩ : Request).addr.toNat = cfg.sioBase.toNat + 0x004 ∧
    (⟨32, false, 0xD0000014, 0⟩ : Request).addr.toNat = cfg.sioBase.toNat + 0x014 ∧
    (⟨32, false, 0xD000002C, 0⟩ : Request).addr.toNat = cfg.sioBase.toNat + 0x02C := by decide

/-- The first words after the SIO registers and after the last pin's pad and function-select words. -/
theorem witness_DecoderRefusesByName_unmapped :
    ∀ a ∈ [0xD0000030, 0x4001C07C, 0x400140F4, 0xFFFFFFFC],
      a % 4 = 0 ∧
      (∀ o ∈ [0x004, 0x010, 0x014, 0x018, 0x01C, 0x020, 0x024, 0x028, 0x02C], a ≠ cfg.sioBase.toNat + o) ∧
      (∀ p, p < cfg.pinCount → a ≠ cfg.padsBase.toNat + 0x004 + 4 * p ∧ a ≠ cfg.ioctrlBase.toNat + 0x004 + 8 * p) := by
  intro a ha
  simp only [List.mem_cons, List.not_mem_nil, or_false] at ha
  have h1 : cfg.sioBase.toNat = 0xD0000000 := rfl
  have h2 : cfg.padsBase.toNat = 0x4001C000 := rfl
  have h3 : cfg.ioctrlBase.toNat = 0x40014000 := rfl
  have h4 : cfg.pinCount = 30 := rfl
  rw [h1, h2, h3, h4]
  refine ⟨by omega, ?_, fun p hp => by omega⟩
  intro o ho
  simp only [List.mem_cons, List.not_mem_nil, or_false] at ho
  omega

/-- One read of `IN` as the Test Master's next line. -/
def oneRead : State := bench [.bus (readRequest 0xD0000004)] []

theorem witness_StepRunsTheDecodedTransaction_line :
    oneRead.cfg.Admitted ∧ oneRead.schedule = [] ∧ oneRead.pending = [] ∧
    oneRead.master = .testMaster (.bus (readRequest 0xD0000004) :: []) ∧
    decodeRequest oneRead.cfg (readRequest 0xD0000004) = .ok .rdIn := by decide

/-- A write of `IN` as the next line. -/
theorem witness_StepRunsTheDecodedTransaction_rejected :
    decodeRequest (bench [.bus (writeRequest 0xD0000004 0)] []).cfg (writeRequest 0xD0000004 0) = .error .wrongDirection ∧
    refusal (step (bench [.bus (writeRequest 0xD0000004 0)] [])) = some .wrongDirection := by decide

theorem witness_StepRunsTheDecodedTransaction_placed :
    State.reset.cfg = Config.default ∧ decodeTableWord 72 0x0000001F_01_400140EC = some (.wrCtrl 29 0x1F) := ⟨rfl, by decide⟩

theorem witness_StepRunsThePhase :
    base.cfg.Admitted ∧ base.schedule = [] ∧ base.pending = [] ∧ base.master = .sequencer ∧ base.phase ≠ .halted :=
  ⟨cfg_admitted, rfl, rfl, rfl, by decide⟩

theorem witness_PowerOnLeavesTheResetValues :
    ({ looping .lXor with phase := .halted, schedule := [.powerOn] } : State).cfg.Admitted ∧
    ({ looping .lXor with phase := .halted, schedule := [.powerOn] } : State).schedule = .powerOn :: [] := ⟨cfg_admitted, rfl⟩

/-- Pin 29, the last that exists, set twice, the last setting winning; pin 30 passed over. -/
theorem witness_HostStepTouchesOnlyThePins :
    base.cfg.Admitted ∧
    after (fun t => (t.extAt 29, t.extAt 30, t.extAt 0))
      (step { base with schedule := [.host [(29, .high), (30, .high), (29, .low)]] }) = some (.low, .z, .z) :=
  ⟨cfg_admitted, by decide⟩

theorem witness_StepRecordsExactlyTheContendedPins_host :
    ∃ t, step { looping .lRdout with schedule := [.host [(25, .low)]] } = .next t ∧ t.events = [.contention 25] :=
  ⟨_, rfl, by decide⟩

theorem witness_StepRecordsExactlyTheContendedPins_sequencer :
    (looping .lRdout).schedule = [] ∧ (looping .lRdout).pending = [] ∧ (looping .lRdout).phase ≠ .halted ∧
    ∃ t, step (looping .lRdout) = .next t := ⟨rfl, rfl, by decide, _, rfl⟩

/-- The first and the last address pin, and addresses shared by two windows. -/
theorem witness_IllFormedConfigurationIsRefused :
    (({ cfg with csPin := 3 } : Config).addrStart ≤ 3 ∧ 3 < ({ cfg with csPin := 3 } : Config).addrStart + 2) ∧
    (cfg.sioBase.toNat ≤ 0xD000002C ∧ ({ cfg with padsBase := 0xD000002C } : Config).padsBase.toNat ≤ 0xD000002C) ∧
    (({ cfg with padsBase := 0xD000002C } : Config).padsBase.toNat + 4 > 0xD000002F) := by decide

theorem witness_PinLevelFollowsTheTable_driven :
    ({ looping .lCs with oe := 0x10, out := 0x10 } : State).drivesAt 0 4 = true ∧
    ({ looping .lCs with oe := 0x10, out := 0x10 } : State).extAt 4 = .z ∧
    (hostSet [(4, .high)] { looping .lCs with oe := 0x10, out := 0x10 }).drivenValueAt 0 4 = true ∧
    (hostSet [(4, .low)] { looping .lCs with oe := 0x10 }).drivenValueAt 0 4 = false := by decide

theorem witness_PinLevelFollowsTheTable_undriven :
    (looping .lCs).drivesAt 0 4 = false ∧ funcsel (base.ctrlWord 4) = cfg.fNull ∧
    (padPue (((looping .lCs).setPad 4 0x5B).padWord 4) = true ∧ padPde (((looping .lCs).setPad 4 0x5B).padWord 4) = false) ∧
    (padPue (base.padWord 4) = false ∧ padPde (base.padWord 4) = true) := by decide

theorem witness_RdOutAndRdOeReadTheRegister : base.cfg.pinCount ≤ 30 := by decide

theorem witness_LanesAreIndependent :
    base.cfg = (looping .lCs).cfg ∧ (0x11#32).getLsbD 0 = (0x01#32).getLsbD 0 ∧
    base.outWord.getLsbD 0 = (looping .lCs).outWord.getLsbD 0 ∧ base.oeWord.getLsbD 0 = (looping .lCs).oeWord.getLsbD 0 :=
  ⟨rfl, by decide⟩

theorem witness_PadTransactionsReadAndWrite :
    base.cfg.PinOk 29 ∧ (0xFF#32) >>> 8 = 0 ∧ (0x100#32) >>> 8 ≠ 0 := by decide

theorem witness_CtrlTransactionsReadAndWrite :
    base.cfg.PinOk 29 ∧ (0x1F#32) >>> 5 = 0 ∧ (0x20#32) >>> 5 ≠ 0 := by decide

theorem witness_AbsentPinTransactionsAreRefused : base.cfg.pinCount ≤ 30 := by decide

theorem base_stored : StoredInv base := by
  constructor
  · decide
  · decide
  · intro w hw
    rw [show base.pad.toList = List.replicate 32 padReset from Vector.toList_replicate] at hw
    rw [List.eq_of_mem_replicate hw]
    decide
  · intro w hw
    rw [show base.ctrl.toList = List.replicate 32 (cfg.fNull.zeroExtend 32) from Vector.toList_replicate] at hw
    rw [List.eq_of_mem_replicate hw]
    decide
  · exact List.Pairwise.nil
  · intro c hc
    exact absurd hc List.not_mem_nil

theorem witness_StepKeepsTheStoredForm : StoredInv base ∧ ∃ t, step base = .next t := ⟨base_stored, _, rfl⟩

theorem witness_MaskIsTheContiguousRange : 0 + 32 ≤ 32 ∧ 32 + 0 ≤ 32 ∧ 32 < 0 + 33 := by decide

theorem witness_OperationsRefuseOutsideTheirPrecondition :
    base.cfg.pinCount ≤ 30 ∧ (0x40000000#32).getLsbD 30 = true := by decide

theorem witness_SetAndClearForceTheLevels : base.cfg.MaskOk 0x3FFFFFFF := by decide

theorem witness_DirectionOperationsDriveAndRelease :
    base.cfg.MaskOk 0x20000000 ∧ (0x20000000#32).getLsbD 29 = true ∧
    funcsel ((looping .lCs).ctrlWord 29) = (looping .lCs).cfg.fSio ∧ padOd ((looping .lCs).padWord 29) = false := by decide

theorem witness_ConfigureIssuesItsFirstTransaction : base.cfg.PinOk 29 := by decide

/-- A Test Master with one line to run, and turns of the Host among its own. -/
theorem bench_loaded (it : Item) (ts : List Turn) (h : ∀ x ∈ ts, Turn.Spares [] x) : Loaded (bench [it] ts) [it] ts [] :=
  ⟨cfg_admitted, rfl, rfl, (List.append_nil ts).symm, h⟩

theorem witness_ConfigureSetsTheDefaultInputState :
    Loaded (bench [.op none (.configure 29)] [.master, .host [(29, .high)], .master, .master, .master])
      [.op none (.configure 29)] [.master, .host [(29, .high)], .master, .master, .master] [] ∧
    29 < cfg.pinCount ∧ masterTurns [.master, .host [(29, .high)], .master, .master, .master] = 4 :=
  ⟨bench_loaded _ _ (by simp [Turn.Spares]), by decide, by decide⟩

theorem witness_ConfigureIsIdempotent :
    Loaded (bench [.op none (.configure 29), .op none (.configure 29)] [])
      [.op none (.configure 29), .op none (.configure 29)] [] [] ∧ 29 < cfg.pinCount :=
  ⟨⟨cfg_admitted, rfl, rfl, rfl, by simp⟩, by decide⟩

theorem witness_RouteToPeripheralRebindsThePin :
    base.cfg.PinOk 29 ∧ 31 ≤ 31 ∧ 31 ≠ base.cfg.fSio.toNat ∧ 31 < 32 ∧ 5 = base.cfg.fSio.toNat := by decide

theorem witness_EnablePulldownReadsThePadFirst : base.cfg.PinOk 29 := by decide

theorem witness_EnablePulldownSetsOneField :
    Loaded (bench [.op none (.enablePulldown 0)] [.master, .host [], .master]) [.op none (.enablePulldown 0)]
      [.master, .host [], .master] [] ∧ 0 < cfg.pinCount ∧ masterTurns [.master, .host [], .master] = 2 :=
  ⟨bench_loaded _ _ (by simp [Turn.Spares]), by decide, by decide⟩

theorem witness_PutMaskedReadsTheLevelsFirst : base.cfg.MaskOk 0x3FFFFFFF := by decide

theorem witness_PutMaskedUpdatesExactlyTheMask :
    Loaded (bench [.op none (.putMasked 0x3FFFFFFF 0xFFFFFFFF)] [.host [], .master, .master])
      [.op none (.putMasked 0x3FFFFFFF 0xFFFFFFFF)] [.host [], .master, .master] [] ∧
    cfg.MaskOk 0x3FFFFFFF ∧ masterTurns [.host [], .master, .master] = 2 :=
  ⟨bench_loaded _ _ (by simp [Turn.Spares]), by decide, by decide⟩

theorem witness_PutMaskedLaws_disjoint :
    Loaded (bench [.op none (.putMasked 0xFF 0x12), .op none (.putMasked 0xFF00 0x3400)] [])
      [.op none (.putMasked 0xFF 0x12), .op none (.putMasked 0xFF00 0x3400)] [] [] ∧
    cfg.MaskOk 0xFF ∧ cfg.MaskOk 0xFF00 ∧ (0xFF#32) &&& 0xFF00 = 0 :=
  ⟨⟨cfg_admitted, rfl, rfl, rfl, by simp⟩, by decide⟩

theorem witness_PutMaskedLaws_same :
    Loaded (bench [.op none (.putMasked 0xFF 0x12), .op none (.putMasked 0xFF 0x12)] [])
      [.op none (.putMasked 0xFF 0x12), .op none (.putMasked 0xFF 0x12)] [] [] ∧ cfg.MaskOk 0xFF :=
  ⟨⟨cfg_admitted, rfl, rfl, rfl, by simp⟩, by decide⟩

theorem witness_GetAndGetMaskedSampleOnce : base.cfg.PinOk 29 ∧ base.cfg.MaskOk 0x3FFFFFFF := by decide

/-- Each clause at its bound: a range ending at `PIN_COUNT`, the last pin, and one past each. -/
theorem witness_CheckHaltsOnAPinOutOfRange :
    (28 + cfg.addrBits ≤ cfg.pinCount ∧ 29 + cfg.addrBits > cfg.pinCount) ∧
    (22 + cfg.dataBits ≤ cfg.pinCount ∧ 23 + cfg.dataBits > cfg.pinCount) ∧
    (29 < cfg.pinCount ∧ 30 ≥ cfg.pinCount) ∧ pinRangeError cfg = false := by decide

theorem witness_CfgPhasesConfigureTheListedPin :
    (cfgList base.cfg)[0]? = some 2 ∧ (cfgList base.cfg)[10]? = some 26 ∧ base.cfg.PinOk 2 ∧ base.cfg.PinOk 26 := by decide

theorem witness_PullPhasesEnableThePullDown :
    (pullList base.cfg)[0]? = some 2 ∧ (pullList base.cfg)[1]? = some 3 ∧ base.cfg.PinOk 3 ∧ (0xFF#32) >>> 8 = 0 := by decide

theorem witness_MasksPhaseCachesTheMasks :
    ({ cfg with addrStart := 32, addrBits := 0 } : Config).addrStart + 0 ≤ 32 ∧
    ({ cfg with dataStart := 24 } : Config).dataStart + ({ cfg with dataStart := 24 } : Config).dataBits ≤ 32 := by decide

theorem witness_OverlapPhaseHaltsOrGoesOn :
    (looping .iOverlap).masks = some masks ∧ masks.addr &&& masks.data = 0 ∧
    ({ masks with addr := 0xC000 } : Masks).addr &&& masks.data ≠ 0 := by decide

theorem witness_FloatPhaseReleasesTheDataBus : (looping .iFloat).masks = some masks := rfl

theorem witness_FillPhasePopulatesTheArray : Memory.wf base.rom ∧ Memory.wf (looping .iFill).rom := by decide

theorem witness_StatusPhasesLightTheIndicator :
    (looping (.iStatus 0)).masks = some masks ∧ (looping (.iStatus 0)).cfg.PinOk (looping (.iStatus 0)).cfg.statusPin := by decide

theorem witness_CsPhaseSamplesChipSelect : (looping .lCs).masks = some masks := rfl

theorem witness_DirPhaseFollowsChipSelect :
    (looping .lDir).masks = some masks ∧ (looping .lDir).csL = some 0x04000000 ∧
    ({ looping .lDir with csL := some 0 } : State).csL = some 0 := ⟨rfl, rfl, rfl⟩

theorem witness_AddrPhaseCapturesTheReducedAddress :
    (looping .lAddr).masks = some masks ∧ 1 ≤ (looping .lAddr).cfg.memLen ∧ 1 ≤ ({ cfg with memLen := 1 } : Config).memLen := by
  decide

theorem witness_LookupPhasesPutTheByteOnTheBus :
    (looping .lXor).masks = some masks ∧ (looping .lXor).addrL = some 1 ∧
    (looping .lXor).outL = some (looping .lXor).outWord ∧ (looping .lXor).romAt 1 = some 0x43 := by decide

theorem witness_LookupPhasesPutTheByteOnTheBus_bus : masks.data &&& ~~~validMask cfg = 0 := by decide

theorem witness_UnwrittenLatchFaultsUnwrittenMaskIsFree :
    ({ looping .lDir with csL := none } : State).csL = none ∧ ({ looping .lXor with addrL := none } : State).addrL = none ∧
    ({ looping .lXor with outL := none } : State).outL = none := ⟨rfl, rfl, rfl⟩

theorem witness_UnwrittenLatchFaultsUnwrittenMaskIsFree_pull : 1 < (pullList base.cfg).length ∧ base.padL = none := by decide

/-- Without masks a phase goes on; `I_OVERLAP`, not listed, does too, to a phase the free masks choose. -/
theorem witness_UnwrittenLatchFaultsUnwrittenMaskIsFree_masks :
    ({ looping .lCs with masks := none } : State).masks = none ∧
    ∀ i ∈ [Instr.iFloat, .iStatus 4, .iStatus 5, .lCs, .lDir, .lAddr, .lXor],
      after State.masks (exec i { looping .lCs with masks := none }) = some none := by
  refine ⟨rfl, ?_⟩
  simp only [List.mem_cons, List.not_mem_nil, or_false]
  rintro i (rfl | rfl | rfl | rfl | rfl | rfl | rfl) <;> rfl

/-- A halted machine with turns of the Sequencer and the Host ahead. -/
def haltedAhead : State := { base with phase := .halted, schedule := [.master, .host [(3, .low)]] }

theorem witness_HaltedStaysHalted :
    haltedAhead.cfg.Admitted ∧ haltedAhead.master = .sequencer ∧ haltedAhead.pending = [] ∧ haltedAhead.phase = .halted ∧
    haltedAhead.schedule = [.master, .host [(3, .low)]] ++ [] ∧ ∀ x ∈ [Turn.master, .host [(3, .low)]], Turn.Spares [] x :=
  ⟨cfg_admitted, rfl, rfl, rfl, rfl, by simp [Turn.Spares]⟩

theorem witness_LoopNeverExits :
    ∀ ph ∈ [Phase.lCs, .lDir, .lAddr, .lRdout, .lXor], ph.inLoop = true ∧ (after State.status (step (looping ph))) = some .run := by
  decide

theorem witness_LoopNeverExits_host :
    after State.phase (step { looping .lDir with schedule := [.host [(2, .high)]] }) = some .lDir := by decide

theorem witness_ArrayAndMasksAreWrittenOnce :
    base.master = .sequencer ∧ base.pending = [] ∧ (∃ t, step base = .next t) ∧ ∀ rest, base.schedule ≠ .powerOn :: rest :=
  ⟨rfl, rfl, ⟨_, rfl⟩, by simp [base, State.initial]⟩

/-- Each clause's phase has a step: the two that write, the last phases before them, and a Host step that leaves them. -/
theorem witness_ArrayAndMasksAreWrittenOnce_clauses :
    after State.phase (step { base with phase := .iMasks }) = some .iOverlap ∧
    after State.phase (step { base with phase := .iMasks, schedule := [.host []] }) = some .iMasks ∧
    after State.phase (step (looping .iFill)) = some (.iStatus 0) ∧ Phase.lXor.pastFill = true ∧
    Phase.iOverlap.pastMasks = true ∧ after State.phase (step (looping .iOverlap)) = some .iFloat ∧
    after State.phase (step { looping .iOverlap with phase := .halted }) = some .halted := by decide

/-- A machine in its loop meets the control invariant. -/
theorem looping_control (ph : Phase) (h : ph.inLoop = true) : ControlInv (looping ph) where
  admitted := cfg_admitted
  sequencer := rfl
  idle := rfl
  romCanonical := by change Memory.wf (looping .lCs).rom; decide
  halted_iff := by
    constructor
    · intro e
      have e : ph = .halted := e
      rw [e] at h
      cases h
    · rintro ⟨e, he⟩
      cases he
  rangeOk := fun _ => by change pinRangeError cfg = false; decide
  inTable := by
    change ph.InTable cfg
    cases ph <;> trivial
  padLatch := by
    intro k e
    have e : ph = .iPull k 1 := e
    rw [e] at h
    cases h
  masksCached := fun _ => by change some masks = some (cachedMasks cfg); decide
  disjoint := fun _ => by change (cachedMasks cfg).addr &&& (cachedMasks cfg).data = 0; decide
  romFilled := fun _ => by
    change ∀ i, i < 4 → (looping .lCs).romAt i = some (imageByte cfg i)
    decide
  csLatch := fun _ => ⟨_, rfl⟩
  addrLatch := fun _ => ⟨1, by change 1 < 4; decide, rfl⟩
  outLatch := fun _ => by change some 0x02000000 = some (looping .lCs).outWord; decide

/-- And the invariant of the pins. -/
theorem looping_bus (ph : Phase) (h : ph.inLoop = true) : BusInv (looping ph) where
  floats := fun e => by
    have e : ph.inLoop = false := e
    rw [e] at h
    cases h
  drivers := by
    change (looping .lCs).oeWord &&& ~~~((cachedMasks cfg).data ||| (cachedMasks cfg).status) = 0
    decide
  routed := by
    change ∀ p, p < 30 → funcsel ((looping .lCs).ctrlWord p) = cfg.fSio ∨ funcsel ((looping .lCs).ctrlWord p) = cfg.fNull
    decide
  configured := by
    intro i p _ hl
    have all : ∀ p ∈ cfgList cfg, funcsel ((looping .lCs).ctrlWord p) = cfg.fSio ∧
        padOd ((looping .lCs).padWord p) = false ∧ padIe ((looping .lCs).padWord p) = true := by decide
    exact all p (List.mem_of_getElem? hl)
  half := by
    intro k p e
    have e : ph = .iCfg k 3 := e
    rw [e] at h
    cases h

theorem witness_StepKeepsTheControlInvariant : ControlInv (looping .lXor) ∧ ∃ t, step (looping .lXor) = .next t :=
  ⟨looping_control _ rfl, _, rfl⟩

theorem witness_SequencerAlwaysSteps : ControlInv (looping .lDir) := looping_control _ rfl

theorem witness_StepKeepsThePinInvariant :
    ControlInv (looping .lDir) ∧ BusInv (looping .lDir) ∧ ∃ t, step (looping .lDir) = .next t :=
  ⟨looping_control _ rfl, looping_bus _ rfl, _, rfl⟩

/-- The machine of P5: halted at the range check, every register at reset. -/
def haltedAtCheck : State :=
  { base with cfg := { cfg with csPin := 40 }, phase := .halted, status := .halt .pinRange }

theorem witness_NoPinDrivesWhenHalted : ControlInv haltedAtCheck ∧ BusInv haltedAtCheck ∧ 29 < haltedAtCheck.cfg.pinCount := by
  refine ⟨⟨by decide, rfl, rfl, List.Pairwise.nil, ⟨fun _ => ⟨_, rfl⟩, fun _ => rfl⟩, nofun, trivial, nofun, nofun, nofun, nofun,
    nofun, nofun, nofun⟩, ⟨fun _ => by decide, by decide, ?_, fun i p hi => absurd hi (Nat.not_lt_zero i), nofun⟩, by decide⟩
  change ∀ p, p < 30 → funcsel (haltedAtCheck.ctrlWord p) = cfg.fSio ∨ funcsel (haltedAtCheck.ctrlWord p) = cfg.fNull
  decide

theorem witness_DataBusFloatsUntilSelected :
    ControlInv (looping .lCs) ∧ BusInv (looping .lCs) ∧ (∃ t, step (looping .lCs) = .next t) ∧
    (∀ p, (looping .lCs).cfg.DataPin p → (looping .lCs).oeWord.getLsbD p = false) ∧ (looping .lCs).phase ≠ .lDir := by
  refine ⟨looping_control _ rfl, looping_bus _ rfl, ⟨_, rfl⟩, ?_, by decide⟩
  intro p hp
  have all : ∀ p, p < 23 → 15 ≤ p → (looping .lCs).oeWord.getLsbD p = false := by decide
  exact all p hp.2 hp.1

/-- Chip-select and address 3 held, a Host that moves another pin among seven turns of the Sequencer. -/
def selected : State :=
  { looping .lRdout with
    ext := ((silent.set 26 .high).set 2 .high).set 3 .high
    schedule := [.master, .host [(0, .low)], .master, .master, .master, .master, .master, .master] }

theorem looping_ext (ph : Phase) (h : ph.inLoop = true) (e : Vector Machine.Ext 32) (ts : List Turn) :
    ControlInv { looping ph with ext := e, schedule := ts } ∧ BusInv { looping ph with ext := e, schedule := ts } := by
  obtain ⟨c1, c2, c3, c4, c5, c6, c7, c8, c9, c10, c11, c12, c13, c14⟩ := looping_control ph h
  obtain ⟨b1, b2, b3, b4, b5⟩ := looping_bus ph h
  exact ⟨⟨c1, c2, c3, c4, c5, c6, c7, c8, c9, c10, c11, c12, c13, c14⟩, ⟨b1, b2, b3, b4, b5⟩⟩

theorem witness_HeldSelectionPresentsTheByte :
    ControlInv selected ∧ BusInv selected ∧ selected.extAt selected.cfg.csPin = .high ∧ selected.AddressHeld 3 ∧
    (∀ x ∈ selected.schedule, Turn.Spares selected.cfg.inputPins x) ∧ 7 ≤ masterTurns selected.schedule := by
  obtain ⟨c, b⟩ := looping_ext .lRdout rfl (((silent.set 26 .high).set 2 .high).set 3 .high) selected.schedule
  refine ⟨c, b, by decide, ⟨by decide, ?_⟩, ?_, by decide⟩
  · change ∀ j, j < 2 → selected.extAt (2 + j) = if Nat.testBit 3 j then .high else .low
    decide
  · simp [selected, Turn.Spares, Config.inputPins, pinRange, looping, base, State.initial, cfg, Config.default]

/-- Chip-select held high, address pins moving. -/
def asserted : State :=
  { looping .lDir with
    ext := silent.set 26 .high
    schedule := [.master, .host [(2, .high)], .master, .master, .master, .master, .master] }

theorem witness_SelectionDrivesTheBus :
    ControlInv asserted ∧ BusInv asserted ∧ asserted.extAt asserted.cfg.csPin = .high ∧
    (∀ x ∈ asserted.schedule, Turn.Spares [asserted.cfg.csPin] x) ∧ 6 ≤ masterTurns asserted.schedule := by
  obtain ⟨c, b⟩ := looping_ext .lDir rfl (silent.set 26 .high) asserted.schedule
  refine ⟨c, b, by decide, ?_, by decide⟩
  simp [asserted, Turn.Spares, looping, base, State.initial, cfg, Config.default]

/-- Chip-select held low, address pins moving. -/
def deselected : State :=
  { looping .lDir with
    ext := silent.set 26 .low
    schedule := [.master, .host [(2, .high)], .master, .master, .master, .master, .master] }

theorem witness_DeselectionReleasesTheBus :
    ControlInv deselected ∧ BusInv deselected ∧ deselected.extAt deselected.cfg.csPin = .low ∧
    (∀ x ∈ deselected.schedule, Turn.Spares [deselected.cfg.csPin] x) ∧ 6 ≤ masterTurns deselected.schedule := by
  obtain ⟨c, b⟩ := looping_ext .lDir rfl (silent.set 26 .low) deselected.schedule
  refine ⟨c, b, by decide, ?_, by decide⟩
  simp [deselected, Turn.Spares, looping, base, State.initial, cfg, Config.default]

end Sys2Proof.Tests
end

