-- ==== Sys2Proof/Proofs/Scope.lean ====
section
/-! SUPPORT. What one turn of the machine is, in two cases: a configuration that may not run (R18, R49), and the request a Test Master
issues next (R22, R24, R68). -/

namespace Sys2Proof.Machine

/-! ### A configuration that may not run -/

/-- A step of a machine whose configuration is not admitted is refused (R135, log 27). -/
theorem step_of_not_admitted (s : State) (h : ¬ s.cfg.Admitted) : step s = .refused .config := if_neg h

/-- Neither the chip-select nor the status pin of an admitted configuration lies on one of the two buses (R18). -/
theorem buses_spare_controlPins {c : Config} (h : c.GeometryOk) {p : Nat} (hp : p = c.csPin ∨ p = c.statusPin) :
    ¬ ((c.addrStart ≤ p ∧ p < c.addrStart + c.addrBits) ∨ c.DataPin p) := by
  obtain ⟨-, -, -, -, -, -, csAddr, csData, statusAddr, statusData, -⟩ := h
  unfold Config.DataPin
  rcases hp with rfl | rfl <;> omega

/-- Settles O11: each condition the statement names contradicts its own clause of `Admitted`. -/
theorem illFormedConfigurationIsRefused : Obligations.IllFormedConfigurationIsRefused := by
  intro s bad
  apply step_of_not_admitted
  rintro ⟨geometry, sioAligned, padsAligned, ioctrlAligned, -, -, -, sioPads, sioIoctrl, padsIoctrl⟩
  have ⟨pinsPos, pinsMax, dataPos, dataMax, memPos, functions, _, _, _, _, csStatus⟩ := geometry
  rcases bad with h | h | h | h | h | h | h | ⟨p, hp, onBus⟩ | ⟨b, hb, unaligned⟩ | ⟨a, shared⟩ | ⟨a, shared⟩ | ⟨a, shared⟩
  · omega
  · omega
  · omega
  · omega
  · omega
  · exact functions h
  · exact csStatus h
  · exact buses_spare_controlPins geometry hp onBus
  · rcases hb with rfl | rfl | rfl <;> contradiction
  · omega
  · omega
  · omega

/-! ### The request a Test Master issues next -/

/-- Every register of the SIO group is a transaction, and so a step of its agent (R22). -/
theorem takesStep_of_mem_sioRows {d : Word} {w : Bool} {row : Nat × Option Instr × Option Instr} {i : Instr}
    (hrow : row ∈ sioRows d) (hi : (if w then row.2.2 else row.2.1) = some i) : takesStep i = true := by
  have all : ∀ row ∈ sioRows d, (∀ i ∈ row.2.1, takesStep i = true) ∧ (∀ i ∈ row.2.2, takesStep i = true) := by
    simp [sioRows, takesStep]
  cases w with
  | false => exact (all row hrow).1 i hi
  | true => exact (all row hrow).2 i hi

/-- Whatever the decoder reads from a request is a step of the agent that issued it: neither `HALTED` nor `mask` is a transaction
(R22, R65, R92). -/
theorem takesStep_of_decodeRequest {c : Config} {r : Request} {i : Instr} (h : decodeRequest c r = .ok i) :
    takesStep i = true := by
  unfold decodeRequest at h
  split at h
  · cases h
  · rcases decodeAddr_cases h with ⟨row, hrow, -, hi⟩ | ⟨p, -, -, -, rfl⟩ | ⟨p, -, -, rfl⟩
    · exact takesStep_of_mem_sioRows hrow hi
    · cases r.write <;> rfl
    · cases r.write <;> rfl

/-- An instruction that is a step of its agent is run and then followed by the records of the step (R41). -/
theorem runInstr_of_takesStep {i : Instr} (h : takesStep i = true) (s : State) :
    runInstr i s = andThen (exec i s) (fun t => .next (settle t)) := by
  simp only [runInstr, h, if_true]

/-- With no turn scheduled and no operation in progress, the step of a Test Master whose next line is a request runs that request with
the line used up (R22, R24). -/
theorem step_bus (s : State) (r : Request) (rest : List Item) (ha : s.cfg.Admitted) (hsched : s.schedule = [])
    (hpend : s.pending = []) (hm : s.master = .testMaster (.bus r :: rest)) :
    step s = runRequest r { s with master := .testMaster rest } := by
  simp only [step, takeTurn, if_pos ha, hsched, masterTurn, hpend, hm, runItem]

/-- A request that decodes is run as its transaction, with the records after it (R68, R41). -/
theorem runRequest_of_decodes {r : Request} {s : State} {i : Instr} (h : decodeRequest s.cfg r = .ok i) :
    runRequest r s = andThen (exec i s) (fun t => .next (settle t)) := by
  simp only [runRequest, h]
  exact runInstr_of_takesStep (takesStep_of_decodeRequest h) s

/-- A request the decoder rejects is refused for the decoder's reason (R72). -/
theorem runRequest_of_rejected {r : Request} {s : State} {e : Reject} (h : decodeRequest s.cfg r = .error e) :
    runRequest r s = .refused (rejected e) := by
  simp only [runRequest, h]

/-- A table word that decodes fits its width, and its nine bytes decode to the same instruction at the default bases (R71). -/
theorem decodeTableWord_eq_some {nbits w : Nat} {i : Instr} (h : decodeTableWord nbits w = some i) :
    (nbits ≤ 72 ∧ w < 2 ^ nbits) ∧ decodeRequest Config.default (Request.ofBytes (tableBytes w)) = .ok i := by
  unfold decodeTableWord at h
  split at h
  · rename_i fits
    refine ⟨fits, ?_⟩
    split at h
    · rename_i j hj
      cases h
      exact hj
    · cases h
  · cases h

/-- Placing a word that fits leaves one line for a Test Master: the request of its nine bytes (log 20). -/
theorem withFetchWord_master (s : State) {nbits w : Nat} (fits : nbits ≤ 72 ∧ w < 2 ^ nbits) :
    (s.withFetchWord nbits w).master = .testMaster [.bus (Request.ofBytes (tableBytes w))] := by
  simp only [State.withFetchWord, placeRequest, if_pos fits]

/-- The default configuration is admitted (R10 to R17, log 1). -/
theorem default_admitted : Config.default.Admitted := by decide

/-- Settles O5: the step is the run of the request, which is the run of what it decodes to, and a placed word is a Test Master's only
request. -/
theorem stepRunsTheDecodedTransaction : Obligations.StepRunsTheDecodedTransaction := by
  refine ⟨fun s r rest i ha hsched hpend hm hd => ?_, fun s r rest e ha hsched hpend hm hd => ?_,
    fun s nbits w i hc hw => ?_⟩
  · rw [step_bus s r rest ha hsched hpend hm]
    exact runRequest_of_decodes hd
  · rw [step_bus s r rest ha hsched hpend hm]
    exact runRequest_of_rejected hd
  · obtain ⟨fits, hd⟩ := decodeTableWord_eq_some hw
    have ha : (s.withFetchWord nbits w).cfg.Admitted := by
      change s.cfg.Admitted
      rw [hc]
      exact default_admitted
    rw [step_bus _ _ [] ha rfl rfl (withFetchWord_master s fits)]
    exact runRequest_of_decodes (by rw [← hc] at hd; exact hd)

end Sys2Proof.Machine
end

