-- ==== Sys2Proof/Proofs/State.lean ====
section
/-! SUPPORT. The state's own statements: what a step of any machine and the action of each phase can do, said once each; that every step
keeps the stored form, the Sequencer's control and its pins; the values of reset; a pin's drive, level and contention; and latches and
masks that nothing has written. -/

namespace Sys2Proof.Machine

/-! ### What a step of any machine can do -/

/-- A guarded meaning answers a next state exactly where its guard holds. -/
theorem guard_next {c : Prop} [Decidable c] {o : Answer} {r : Refusal} {t : State} :
    (if c then o else .refused r) = .next t ↔ c ∧ o = .next t := by
  split <;> simp_all

/-- `t` is what one instruction makes of `s`, up to what a bus master's turn adds to it: the records and the evaluation of the step
(R41) and the binding of a name (R75). -/
def RunsOne (s t : State) : Prop :=
  ∃ i u, exec i s = .next u ∧ t = { u with events := t.events, draws := t.draws, names := t.names }

/-- The run of an instruction is that instruction and the records of the step (R41). -/
theorem runInstr_runsOne {i : Instr} {s t : State} (h : runInstr i s = .next t) : RunsOne s t := by
  obtain ⟨u, hu, rfl⟩ := runInstr_next.mp h
  refine ⟨i, u, hu, ?_⟩
  cases takesStep i <;> rfl

/-- A request that runs is the one instruction it decodes to (R68). -/
theorem runRequest_runsOne {r : Request} {s t : State} (h : runRequest r s = .next t) : RunsOne s t := by
  unfold runRequest at h
  split at h
  · exact runInstr_runsOne h
  · cases h

/-- A transaction on a register by name is the request at its address (R75). -/
theorem issue_runsOne {w : Bool} {reg : Reg} {d : Word} {s t : State} (h : issue w reg d s = .next t) : RunsOne s t := by
  unfold issue at h
  split at h
  · exact runRequest_runsOne h
  · cases h

/-- Binding a name afterwards is part of the same turn (R75). -/
theorem RunsOne.bindTo {s u : State} (h : RunsOne s u) (bound : Option Nat) (v : State → Word) :
    RunsOne s (bindTo bound v u) := by
  obtain ⟨i, w, hw, hu⟩ := h
  refine ⟨i, w, hw, ?_⟩
  cases bound with
  | none => exact hu
  | some n => exact congrArg (fun x : State => { x with names := bindName n (v u) u.names }) hu

/-- A line that runs is one request, one transaction or one operation's start (R75, R76). -/
theorem runItem_runsOne {it : Item} {s t : State} (h : runItem it s = .next t) : RunsOne s t := by
  cases it with
  | bus r => exact runRequest_runsOne h
  | read bound reg =>
    obtain ⟨u, hu, ht⟩ := andThen_next.mp h
    cases ht
    exact (issue_runsOne hu).bindTo bound _
  | write reg e =>
    simp only [runItem] at h
    split at h
    · exact issue_runsOne h
    · cases h
  | op bound i =>
    obtain ⟨-, h⟩ := guard_next.mp h
    obtain ⟨u, hu, ht⟩ := andThen_next.mp h
    cases ht
    exact (runInstr_runsOne hu).bindTo bound _

/-- The bus master's turn runs one instruction, its list or its operation in progress one line shorter, or nothing (R24, R76). -/
theorem masterTurn_effect {s t : State} (h : masterTurn s = .next t) :
    (∃ items m, RunsOne { s with pending := items, master := m } t) ∨ t = s := by
  unfold masterTurn at h
  split at h
  · exact .inl ⟨_, s.master, runItem_runsOne h⟩
  · split at h
    · exact .inl ⟨s.pending, s.master, runInstr_runsOne h⟩
    · cases h
      exact .inr rfl
    · exact .inl ⟨s.pending, _, runItem_runsOne h⟩

/-- Every step of every machine runs one instruction, or is a power-on, or leaves the block as it is (R22, R139, R146). -/
theorem step_effect {s t : State} (h : step s = .next t) :
    (∃ items m ts, RunsOne { s with pending := items, master := m, schedule := ts } t) ∨
    (∃ ts, t = powerOn { s with schedule := ts }) ∨
    t = { s with ext := t.ext, events := t.events, draws := t.draws, schedule := t.schedule } := by
  obtain ⟨-, ⟨-, h⟩ | ⟨rest, -, h⟩ | ⟨sets, rest, -, rfl⟩ | ⟨rest, -, rfl⟩⟩ := step_cases h
  · obtain ⟨items, m, h⟩ | rfl := masterTurn_effect h
    · exact .inl ⟨items, m, s.schedule, h⟩
    · exact .inr (.inr rfl)
  · obtain ⟨items, m, h⟩ | rfl := masterTurn_effect h
    · exact .inl ⟨items, m, rest, h⟩
    · exact .inr (.inr rfl)
  · exact .inr (.inr rfl)
  · exact .inr (.inl ⟨rest, rfl⟩)

/-! ### The stored form -/

/-- Only the stored registers and the array matter to their form. -/
theorem StoredInv.of_same {s t : State} (inv : StoredInv s) (cfg : t.cfg = s.cfg := by rfl) (out : t.out = s.out := by rfl)
    (oe : t.oe = s.oe := by rfl) (pad : t.pad = s.pad := by rfl) (ctrl : t.ctrl = s.ctrl := by rfl)
    (rom : t.rom = s.rom := by rfl) : StoredInv t := by
  refine ⟨?_, ?_, ?_, ?_, ?_, ?_⟩
  · rw [out, cfg]; exact inv.out
  · rw [oe, cfg]; exact inv.oe
  · rw [pad]; exact inv.pad
  · rw [ctrl]; exact inv.ctrl
  · rw [rom]; exact inv.romCanonical
  · rw [rom, cfg]; exact inv.romBounded

/-- Whatever a mask lets through has no bit outside the mask. -/
theorem and_and_not_self (v m : Word) : v &&& m &&& ~~~m = 0 := by
  rw [BitVec.and_assoc]
  simp

theorem StoredInv.setOut {s : State} (inv : StoredInv s) (v : Word) : StoredInv (s.setOut v) :=
  { inv with out := and_and_not_self v _ }

theorem StoredInv.setOe {s : State} (inv : StoredInv s) (v : Word) : StoredInv (s.setOe v) :=
  { inv with oe := and_and_not_self v _ }

/-- One entry written keeps what all entries have, if the new entry has it. -/
theorem forall_mem_setIfInBounds {α : Type} {n : Nat} {P : α → Prop} {v : Vector α n} {p : Nat} {x : α}
    (hv : ∀ w ∈ v.toList, P w) (hx : P x) : ∀ w ∈ (v.setIfInBounds p x).toList, P w := by
  intro w hw
  rw [Vector.toList_setIfInBounds] at hw
  rcases List.mem_or_eq_of_mem_set hw with hw | rfl
  · exact hv w hw
  · exact hx

theorem StoredInv.writePad {s t : State} (inv : StoredInv s) {p : Nat} {d : Word} (h : writePad p d s = .next t) :
    StoredInv t := by
  obtain ⟨-, h⟩ := guard_next.mp h
  obtain ⟨hd, h⟩ := guard_next.mp h
  cases h
  exact { inv with pad := forall_mem_setIfInBounds inv.pad hd }

theorem StoredInv.writeCtrl {s t : State} (inv : StoredInv s) {p : Nat} {d : Word} (h : writeCtrl p d s = .next t) :
    StoredInv t := by
  obtain ⟨-, h⟩ := guard_next.mp h
  obtain ⟨hd, h⟩ := guard_next.mp h
  cases h
  exact { inv with ctrl := forall_mem_setIfInBounds inv.ctrl hd }

theorem StoredInv.configureTransaction {s t : State} (inv : StoredInv s) {p : Nat} {j : Fin 4}
    (h : configureTransaction p j s = .next t) : StoredInv t := by
  unfold Machine.configureTransaction at h
  split at h
  · cases h; exact inv.setOe _
  · cases h; exact inv.setOut _
  · exact inv.writePad h
  · exact inv.writeCtrl h

/-- The fill writes below its length only (R114). -/
theorem fillRom_bounded (c : Config) {n b : Nat} {m : List Host.Cell} (hn : n ≤ b) (h : ∀ x ∈ m, x.1 < b) :
    ∀ x ∈ fillRom c n m, x.1 < b := by
  induction n with
  | zero => exact h
  | succ n ih =>
    intro x hx
    rcases (Memory.mem_write n x.1 (imageByte c n) _).mp (List.mem_map_of_mem hx) with e | hx
    · omega
    · obtain ⟨y, hy, e⟩ := List.mem_map.mp hx
      exact e ▸ ih (by omega) y hy

theorem StoredInv.fill {s : State} (inv : StoredInv s) : StoredInv { s with rom := fillRom s.cfg s.cfg.memLen s.rom } :=
  { inv with
    romCanonical := fillRom_wf _ _ _ inv.romCanonical
    romBounded := fillRom_bounded _ (Nat.le_refl _) inv.romBounded }

/-- Every instruction keeps the stored form: each write of a register drops or refuses the bits the register does not have, and the
fill writes below `L`. -/
theorem exec_keeps_storedInv {i : Instr} {s t : State} (inv : StoredInv s) (h : exec i s = .next t) : StoredInv t := by
  cases i with
  | rdIn | rdOut | rdOe | lCs | lAddr | lRdout | halted => cases h; exact inv.of_same
  | wrOut | wrOutSet | wrOutClr | wrOutXor => cases h; exact inv.setOut _
  | wrOe | wrOeSet | wrOeClr | wrOeXor => cases h; exact inv.setOe _
  | wrPad => exact inv.writePad h
  | wrCtrl => exact inv.writeCtrl h
  | rdPad | rdCtrl | enablePulldown | putMasked | get | getMasked =>
    obtain ⟨-, h⟩ := guard_next.mp h
    cases h
    exact inv.of_same
  | set | clear =>
    obtain ⟨-, h⟩ := guard_next.mp h
    cases h
    exact inv.setOut _
  | setDirectionOutMasked | setDirectionDisabledMasked =>
    obtain ⟨-, h⟩ := guard_next.mp h
    cases h
    exact inv.setOe _
  | configure =>
    obtain ⟨-, h⟩ := guard_next.mp h
    cases h
    exact (inv.setOe _).of_same
  | routeToPeripheral =>
    obtain ⟨-, h⟩ := guard_next.mp h
    exact inv.writeCtrl h
  | mask =>
    simp only [exec, execMask] at h
    split at h <;> cases h
    exact inv.of_same
  | iCheck =>
    simp only [exec, execICheck] at h
    split at h <;> cases h <;> exact inv.of_same
  | iCfg =>
    simp only [exec, execICfg] at h
    split at h
    · cases h
    · obtain ⟨u, hu, h⟩ := andThen_next.mp h
      cases h
      exact (inv.configureTransaction hu).of_same
  | iPull =>
    simp only [exec, execIPull] at h
    split at h
    · cases h
    · obtain ⟨u, hu, h⟩ := andThen_next.mp h
      obtain ⟨-, hu⟩ := guard_next.mp hu
      cases hu
      cases h
      exact inv.of_same
    · obtain ⟨w, -, h⟩ := withLatch_next.mp h
      obtain ⟨u, hu, h⟩ := andThen_next.mp h
      cases h
      exact (inv.writePad hu).of_same
  | iMasks =>
    simp only [exec, execIMasks] at h
    split at h <;> cases h
    exact inv.of_same
  | iOverlap =>
    simp only [exec, execIOverlap] at h
    split at h <;> cases h <;> exact inv.of_same
  | iFloat => cases h; exact (inv.setOe _).of_same
  | iFill => cases h; exact inv.fill.of_same
  | iStatus =>
    simp only [exec, execIStatus] at h
    split at h
    case h_5 => cases h; exact (inv.setOut _).of_same
    case h_6 => cases h; exact (inv.setOe _).of_same
    all_goals
      obtain ⟨u, hu, h⟩ := andThen_next.mp h
      cases h
      exact (inv.configureTransaction hu).of_same
  | lDir =>
    obtain ⟨cs, -, h⟩ := withLatch_next.mp h
    cases h
    cases csAsserted cs <;> exact (inv.setOe _).of_same
  | lXor =>
    obtain ⟨i, -, h⟩ := withLatch_next.mp h
    obtain ⟨o, -, h⟩ := withLatch_next.mp h
    split at h <;> cases h
    exact (inv.setOut _).of_same

/-! ### The state after reset -/

/-- A function number is all of the function-select word it makes (R36, R37). -/
theorem zeroExtend_and_ctrlFields (f : BitVec 5) : f.zeroExtend 32 &&& ctrlFields = f.zeroExtend 32 := by
  revert f
  decide

theorem funcsel_zeroExtend (f : BitVec 5) : funcsel (f.zeroExtend 32) = f := by
  revert f
  decide

theorem getD_toList_replicate {α : Type} (x d : α) {n p : Nat} (hp : p < n) : (Vector.replicate n x).toList.getD p d = x := by
  rw [Vector.toList_replicate, List.getD_eq_getElem?_getD, List.getElem?_replicate, if_pos hp]
  rfl

theorem padWord_initial (c : Config) (e : Vector Ext 32) (m : Master) {p : Nat} (hp : p < 32) :
    (State.initial c e m).padWord p = padReset := by
  have reset : padReset &&& padFields = padReset := by decide
  rw [State.padWord, State.initial, getD_toList_replicate _ _ hp, reset]

theorem ctrlWord_initial (c : Config) (e : Vector Ext 32) (m : Master) {p : Nat} (hp : p < 32) :
    (State.initial c e m).ctrlWord p = c.fNull.zeroExtend 32 := by
  rw [State.ctrlWord, State.initial, getD_toList_replicate _ _ hp, zeroExtend_and_ctrlFields]

theorem outWord_initial (c : Config) (e : Vector Ext 32) (m : Master) : (State.initial c e m).outWord = 0 :=
  BitVec.zero_and

theorem oeWord_initial (c : Config) (e : Vector Ext 32) (m : Master) : (State.initial c e m).oeWord = 0 :=
  BitVec.zero_and

theorem romAt_initial (c : Config) (e : Vector Ext 32) (m : Master) (i : Nat) : (State.initial c e m).romAt i = none := by
  simp [State.romAt, State.initial, Memory.read]

/-- Each entry of a vector filled with one value is that value. -/
theorem forall_mem_replicate {α : Type} {P : α → Prop} {n : Nat} {x : α} (hx : P x) :
    ∀ w ∈ (Vector.replicate n x).toList, P w := by
  intro w hw
  rw [Vector.toList_replicate] at hw
  exact List.eq_of_mem_replicate hw ▸ hx

theorem initial_storedInv (c : Config) (e : Vector Ext 32) (m : Master) : StoredInv (State.initial c e m) where
  out := BitVec.zero_and
  oe := BitVec.zero_and
  pad := forall_mem_replicate (by decide)
  ctrl := forall_mem_replicate (by
    rw [← zeroExtend_and_ctrlFields]
    exact and_and_not_self _ _)
  romCanonical := List.Pairwise.nil
  romBounded := nofun

/-- Settles O21: the one instruction a step can run keeps the stored form, a power-on starts it, and nothing else in a step touches the
block. -/
theorem stepKeepsTheStoredForm : Obligations.StepKeepsTheStoredForm := by
  intro s t inv h
  obtain ⟨items, m, ts, i, u, hu, ht⟩ | ⟨ts, rfl⟩ | ht := step_effect h
  · rw [ht]
    exact (exec_keeps_storedInv inv.of_same hu).of_same
  · exact (initial_storedInv s.cfg s.ext s.master).of_same
  · rw [ht]
    exact inv.of_same

/-! ### What a phase can do -/

/-- Everything a transaction of `configure` can do (R95). -/
theorem configureTransaction_cases {p : Nat} {j : Fin 4} {s u : State} (h : configureTransaction p j s = .next u) :
    (j = 0 ∧ u = s.oeClr (bitWord p)) ∨ (j = 1 ∧ u = s.outClr (bitWord p)) ∨
    (j = 2 ∧ p < 32 ∧ u = s.setPad p padConfigured) ∨ (j = 3 ∧ p < 32 ∧ u = s.setCtrl p (ctrlSio s.cfg)) := by
  unfold configureTransaction at h
  split at h
  · cases h; exact .inl ⟨rfl, rfl⟩
  · cases h; exact .inr (.inl ⟨rfl, rfl⟩)
  · obtain ⟨hp, h⟩ := guard_next.mp h
    obtain ⟨-, h⟩ := guard_next.mp h
    cases h
    exact .inr (.inr (.inl ⟨rfl, ((hasPin_iff _ _).mp hp).2, rfl⟩))
  · obtain ⟨hp, h⟩ := guard_next.mp h
    obtain ⟨-, h⟩ := guard_next.mp h
    cases h
    exact .inr (.inr (.inr ⟨rfl, ((hasPin_iff _ _).mp hp).2, rfl⟩))

/-- Each phase's action and successor (R108 to R122, R131), for a machine whose masks and latches hold what `ControlInv` says. -/
inductive PhaseStep (s : State) : State → Prop where
  | checkFails : s.phase = .iCheck → pinRangeError s.cfg = true →
      PhaseStep s { s with status := .halt .pinRange, phase := .halted }
  | checkPasses : s.phase = .iCheck → pinRangeError s.cfg = false → PhaseStep s (s.goto (.iCfg 0 0))
  | configure {k j p u} : s.phase = .iCfg k j → (cfgList s.cfg)[k]? = some p → configureTransaction p j s = .next u →
      PhaseStep s (u.goto (cfgSuccessor s.cfg k j))
  | pullRead {k q} : s.phase = .iPull k 0 → (pullList s.cfg)[k]? = some q →
      PhaseStep s ({ s.respond (s.padWord q) with padL := some (s.padWord q) }.goto (.iPull k 1))
  | pullWrite {k q} : s.phase = .iPull k 1 → (pullList s.cfg)[k]? = some q →
      PhaseStep s ((s.setPad q (s.padWord q ||| padPdeBit)).goto (pullPhase s.cfg (k + 1)))
  | cacheMasks : s.phase = .iMasks → PhaseStep s ({ s with masks := some (cachedMasks s.cfg) }.goto .iOverlap)
  | overlapFails : s.phase = .iOverlap → (cachedMasks s.cfg).addr &&& (cachedMasks s.cfg).data ≠ 0 →
      PhaseStep s { s with status := .halt .overlap, phase := .halted }
  | overlapPasses : s.phase = .iOverlap → (cachedMasks s.cfg).addr &&& (cachedMasks s.cfg).data = 0 →
      PhaseStep s (s.goto .iFloat)
  | float : s.phase = .iFloat → PhaseStep s ((s.oeClr (cachedMasks s.cfg).data).goto .iFill)
  | fill : s.phase = .iFill → PhaseStep s ({ s with rom := fillRom s.cfg s.cfg.memLen s.rom }.goto (.iStatus 0))
  | statusConfigure {j : Fin 4} {u} : s.phase = .iStatus j.castSucc.castSucc →
      configureTransaction s.cfg.statusPin j s = .next u → PhaseStep s (u.goto (.iStatus j.castSucc.succ))
  | statusLevel : s.phase = .iStatus 4 → PhaseStep s ((s.outSet (cachedMasks s.cfg).status).goto (.iStatus 5))
  | statusDrive : s.phase = .iStatus 5 → PhaseStep s ((s.oeSet (cachedMasks s.cfg).status).goto .lCs)
  | sampleCs : s.phase = .lCs →
      PhaseStep s ({ s.readIn with csL := some (s.sampleIn (cachedMasks s.cfg).cs) }.goto .lDir)
  | driveBus {cs} : s.phase = .lDir → s.csL = some cs → csAsserted cs = true →
      PhaseStep s ((s.oeSet (cachedMasks s.cfg).data).goto .lAddr)
  | releaseBus {cs} : s.phase = .lDir → s.csL = some cs → csAsserted cs = false →
      PhaseStep s ((s.oeClr (cachedMasks s.cfg).data).goto .lAddr)
  | sampleAddr : s.phase = .lAddr →
      PhaseStep s ({ s.readIn with
        addrL := some (lookupIndex s.cfg (rawAddress s.cfg (s.sampleIn (cachedMasks s.cfg).addr))) }.goto .lRdout)
  | readLevels : s.phase = .lRdout → PhaseStep s ({ s.readOut with outL := some s.outWord }.goto .lXor)
  | toggle {i b} : s.phase = .lXor → s.addrL = some i → s.romAt i = some b →
      PhaseStep s ((s.outXor (flips s.outWord (busValue s.cfg b) (cachedMasks s.cfg).data)).goto .lCs)
  | rest : s.phase = .halted → PhaseStep s s

/-- The masks a phase past `I_MASKS` reads are the cached ones (R30). -/
theorem ControlInv.heldMasks {s : State} (inv : ControlInv s) (h : s.phase.pastMasks = true) :
    s.heldMasks = cachedMasks s.cfg := heldMasks_of_some (inv.masksCached h)

/-- A mask that has a value is the word of its range (R92). -/
theorem maskOf_some {a n : Nat} {w : Word} (h : maskOf a n = some w) : w = maskWord a n := by
  unfold maskOf at h
  split at h <;> simp_all

/-- What the Sequencer's turn does is the action of its phase. -/
theorem phaseStep_of_exec {s t : State} (inv : ControlInv s) (h : exec (phaseInstr s.phase) s = .next t) :
    PhaseStep s t := by
  cases hph : s.phase with rw [hph] at h
  | iCheck =>
    simp only [phaseInstr, exec, execICheck] at h
    split at h
    · rename_i hbad; cases h; exact .checkFails hph hbad
    · rename_i hok; cases h; exact .checkPasses hph (Bool.eq_false_iff.mpr hok)
  | iCfg k j =>
    simp only [phaseInstr, exec, execICfg] at h
    split at h
    · cases h
    · rename_i p hp
      obtain ⟨u, hu, h⟩ := andThen_next.mp h
      cases h
      exact .configure hph hp hu
  | iPull k j =>
    simp only [phaseInstr, exec, execIPull] at h
    split at h
    · cases h
    · rename_i q hq
      obtain ⟨u, hu, h⟩ := andThen_next.mp h
      obtain ⟨-, hu⟩ := guard_next.mp hu
      cases hu
      cases h
      exact .pullRead hph hq
    · rename_i q hq
      obtain ⟨w, hw, h⟩ := withLatch_next.mp h
      obtain ⟨u, hu, h⟩ := andThen_next.mp h
      obtain ⟨-, hu⟩ := guard_next.mp hu
      obtain ⟨-, hu⟩ := guard_next.mp hu
      obtain ⟨q', hq', hlatch⟩ := inv.padLatch k hph
      cases hq.symm.trans hq'
      cases hw.symm.trans hlatch
      cases hu
      cases h
      exact .pullWrite hph hq
  | iMasks =>
    simp only [phaseInstr, exec, execIMasks] at h
    split at h
    · rename_i a d ha hd
      cases maskOf_some ha
      cases maskOf_some hd
      cases h
      exact .cacheMasks hph
    · cases h
  | iOverlap =>
    simp only [phaseInstr, exec, execIOverlap, inv.heldMasks (hph ▸ rfl)] at h
    split at h
    · rename_i hbad; cases h; exact .overlapFails hph hbad
    · rename_i hok; cases h; exact .overlapPasses hph (not_not.mp hok)
  | iFloat =>
    simp only [phaseInstr, exec, execIFloat, inv.heldMasks (hph ▸ rfl)] at h
    cases h
    exact .float hph
  | iFill => cases h; exact .fill hph
  | iStatus j =>
    simp only [phaseInstr, exec, execIStatus, inv.heldMasks (hph ▸ rfl)] at h
    split at h
    case h_5 => cases h; exact .statusLevel hph
    case h_6 => cases h; exact .statusDrive hph
    all_goals
      obtain ⟨u, hu, h⟩ := andThen_next.mp h
      cases h
      exact .statusConfigure hph hu
  | lCs =>
    simp only [phaseInstr, exec, execLCs, inv.heldMasks (hph ▸ rfl)] at h
    cases h
    exact .sampleCs hph
  | lDir =>
    obtain ⟨cs, hcs, h⟩ := withLatch_next.mp h
    simp only [inv.heldMasks (hph ▸ rfl)] at h
    cases h
    cases ha : csAsserted cs
    · exact .releaseBus hph hcs ha
    · exact .driveBus hph hcs ha
  | lAddr =>
    simp only [phaseInstr, exec, execLAddr, inv.heldMasks (hph ▸ rfl)] at h
    cases h
    exact .sampleAddr hph
  | lRdout => cases h; exact .readLevels hph
  | lXor =>
    obtain ⟨i, hi, h⟩ := withLatch_next.mp h
    obtain ⟨o, ho, h⟩ := withLatch_next.mp h
    cases ho.symm.trans (inv.outLatch hph)
    simp only [inv.heldMasks (hph ▸ rfl)] at h
    split at h
    · rename_i b hb
      cases h
      exact .toggle hph hi hb
    · cases h
  | halted => cases h; exact .rest hph

/-! ### The control invariant -/

/-- How many of the facts of `Established` the phases from here on rest on. -/
def Phase.stage : Phase → Nat
  | .iCheck | .halted => 0
  | .iCfg _ _ | .iPull _ _ | .iMasks => 1
  | .iOverlap => 2
  | .iFloat | .iFill => 3
  | .iStatus _ | .lCs | .lDir | .lAddr | .lRdout | .lXor => 4

theorem Phase.pastCheck_iff (ph : Phase) : ph.pastCheck = true ↔ 1 ≤ ph.stage := by
  cases ph <;> simp [pastCheck, stage]

theorem Phase.pastMasks_iff (ph : Phase) : ph.pastMasks = true ↔ 2 ≤ ph.stage := by
  cases ph <;> simp [pastMasks, inLoop, stage]

theorem Phase.pastOverlap_iff (ph : Phase) : ph.pastOverlap = true ↔ 3 ≤ ph.stage := by
  cases ph <;> simp [pastOverlap, inLoop, stage]

theorem Phase.pastFill_iff (ph : Phase) : ph.pastFill = true ↔ 4 ≤ ph.stage := by
  cases ph <;> simp [pastFill, inLoop, stage]

/-- The first `n` of what the start-up sequence brings about, in its order: the range check passed, the masks cached, the overlap
check passed, the array filled. None of them is undone by a later phase. -/
structure Established (s : State) (n : Nat) : Prop where
  range : 1 ≤ n → pinRangeError s.cfg = false
  masks : 2 ≤ n → s.masks = some (cachedMasks s.cfg)
  disjoint : 3 ≤ n → (cachedMasks s.cfg).addr &&& (cachedMasks s.cfg).data = 0
  filled : 4 ≤ n → ∀ i, i < s.cfg.memLen → s.romAt i = some (imageByte s.cfg i)

theorem ControlInv.established {s : State} (inv : ControlInv s) : Established s s.phase.stage where
  range h := inv.rangeOk (s.phase.pastCheck_iff.mpr h)
  masks h := inv.masksCached (s.phase.pastMasks_iff.mpr h)
  disjoint h := inv.disjoint (s.phase.pastOverlap_iff.mpr h)
  filled h := inv.romFilled (s.phase.pastFill_iff.mpr h)

/-- What is established stays so under updates that leave the masks and the array alone. -/
theorem Established.of_same {s t : State} {m n : Nat} (est : Established s m) (hn : n ≤ m) (cfg : t.cfg = s.cfg := by rfl)
    (masks : t.masks = s.masks := by rfl) (rom : t.rom = s.rom := by rfl) : Established t n := by
  have romAt : ∀ i, t.romAt i = s.romAt i := fun i => by rw [State.romAt, State.romAt, cfg, rom]
  constructor
  · rw [cfg]; exact fun h => est.range (h.trans hn)
  · rw [cfg, masks]; exact fun h => est.masks (h.trans hn)
  · rw [cfg]; exact fun h => est.disjoint (h.trans hn)
  · simp only [cfg, romAt]; exact fun h => est.filled (h.trans hn)

/-- The latches the phase reads hold what an earlier phase put there (R29). -/
def State.LatchesReady (s : State) : Prop :=
  match s.phase with
  | .iPull k 1 => ∃ q, (pullList s.cfg)[k]? = some q ∧ s.padL = some (s.padWord q)
  | .lDir => ∃ cs, s.csL = some cs
  | .lRdout => ∃ i, i < s.cfg.memLen ∧ s.addrL = some i
  | .lXor => (∃ i, i < s.cfg.memLen ∧ s.addrL = some i) ∧ s.outL = some s.outWord
  | _ => True

/-- The control invariant after a phase that does not halt: what is established, the phase's place in the table, its latches, and
nothing else of the control changed. -/
theorem ControlInv.moves {s t : State} (inv : ControlInv s) (est : Established t t.phase.stage)
    (inTable : t.phase.InTable t.cfg) (latches : t.LatchesReady) (here : s.phase ≠ .halted) (there : t.phase ≠ .halted)
    (rom : Memory.wf t.rom) (cfg : t.cfg = s.cfg := by rfl) (master : t.master = s.master := by rfl)
    (pending : t.pending = s.pending := by rfl) (status : t.status = s.status := by rfl) : ControlInv t where
  admitted := cfg ▸ inv.admitted
  sequencer := master ▸ inv.sequencer
  idle := pending ▸ inv.idle
  romCanonical := rom
  halted_iff := by
    rw [status, ← inv.halted_iff]
    exact iff_of_false there here
  rangeOk h := est.range (t.phase.pastCheck_iff.mp h)
  inTable := inTable
  padLatch k h := by simpa only [State.LatchesReady, h] using latches
  masksCached h := est.masks (t.phase.pastMasks_iff.mp h)
  disjoint h := est.disjoint (t.phase.pastOverlap_iff.mp h)
  romFilled h := est.filled (t.phase.pastFill_iff.mp h)
  csLatch h := by simpa only [State.LatchesReady, h] using latches
  addrLatch h := by
    rcases h with h | h <;> simp only [State.LatchesReady, h] at latches
    · exact latches
    · exact latches.1
  outLatch h := by
    simp only [State.LatchesReady, h] at latches
    exact latches.2

/-- A configuration error halts the Sequencer with its code, whatever its phase (R131). -/
theorem ControlInv.halts {s : State} (inv : ControlInv s) (e : ConfigError) :
    ControlInv { s with status := .halt e, phase := .halted } :=
  { inv with
    halted_iff := ⟨fun _ => ⟨e, rfl⟩, fun _ => rfl⟩
    rangeOk := nofun
    inTable := trivial
    padLatch := nofun
    masksCached := nofun
    disjoint := nofun
    romFilled := nofun
    csLatch := nofun
    addrLatch := by simp
    outLatch := nofun }

/-- The control invariant after a phase that writes neither a mask nor the array and needs no more established than the phase before
it. -/
theorem ControlInv.goes {s t : State} {ph : Phase} (inv : ControlInv s) (hph : s.phase = ph) (here : ph ≠ .halted)
    (there : t.phase ≠ .halted) (inTable : t.phase.InTable s.cfg) (latches : t.LatchesReady)
    (stage : t.phase.stage = ph.stage := by rfl) (cfg : t.cfg = s.cfg := by rfl)
    (master : t.master = s.master := by rfl) (pending : t.pending = s.pending := by rfl)
    (status : t.status = s.status := by rfl) (masks : t.masks = s.masks := by rfl) (rom : t.rom = s.rom := by rfl) :
    ControlInv t :=
  inv.moves (inv.established.of_same (hph ▸ stage.le) cfg masks rom) (cfg ▸ inTable) latches (hph ▸ here) there
    (rom ▸ inv.romCanonical) cfg master pending status

/-- A transaction of `configure` that goes on to a phase reading no latch keeps the control invariant (R109, R115). -/
theorem ControlInv.configures {s u : State} {p : Nat} {j : Fin 4} {ph ph' : Phase} (inv : ControlInv s)
    (hu : configureTransaction p j s = .next u) (hph : s.phase = ph) (here : ph ≠ .halted) (there : ph' ≠ .halted)
    (inTable : ph'.InTable s.cfg) (latches : (u.goto ph').LatchesReady) (stage : ph'.stage = ph.stage := by rfl) :
    ControlInv (u.goto ph') := by
  rcases configureTransaction_cases hu with ⟨-, rfl⟩ | ⟨-, rfl⟩ | ⟨-, -, rfl⟩ | ⟨-, -, rfl⟩ <;>
    exact inv.goes hph here there inTable latches stage

/-- After `I_CFG` come the pull-downs, if any, in the table, and then `I_MASKS` (R109, R110). -/
theorem pullPhase_cases (c : Config) (k : Nat) :
    (k < (pullList c).length ∧ pullPhase c k = .iPull k 0) ∨ pullPhase c k = .iMasks := by
  unfold pullPhase
  split
  · exact .inl ⟨‹_›, rfl⟩
  · exact .inr rfl

/-- The phases of `I_CFG` stay in the table until they are done (R109). -/
theorem cfgSuccessor_cases {c : Config} {k : Nat} (hk : k < (cfgList c).length) (j : Fin 4) :
    (∃ k' j', k' < (cfgList c).length ∧ cfgSuccessor c k j = .iCfg k' j') ∨ cfgSuccessor c k j = pullPhase c 0 := by
  unfold cfgSuccessor
  split
  · exact .inl ⟨_, _, hk, rfl⟩
  · exact .inl ⟨_, _, hk, rfl⟩
  · exact .inl ⟨_, _, hk, rfl⟩
  · split
    · exact .inl ⟨_, _, ‹_›, rfl⟩
    · exact .inr rfl

/-- Every phase keeps the control invariant: four of them establish a fact, two may halt, and each other one goes on with what its
successor reads already there. -/
theorem PhaseStep.controlInv {s t : State} (inv : ControlInv s) (h : PhaseStep s t) : ControlInv t := by
  cases h with
  | checkFails | overlapFails => exact inv.halts _
  | checkPasses hph ok =>
    refine inv.moves ⟨fun _ => ok, ?_, ?_, ?_⟩ ?_ trivial (by simp [hph]) nofun inv.romCanonical
    all_goals simp [Phase.stage, Phase.InTable, Config.cfgCount]
  | @configure k j p u hph hp hu =>
    obtain ⟨hk, -⟩ := List.getElem?_eq_some_iff.mp hp
    rcases cfgSuccessor_cases hk j with ⟨k', j', hk', e⟩ | e <;> rw [e]
    · exact inv.configures hu hph nofun nofun hk' trivial
    · rcases pullPhase_cases s.cfg 0 with ⟨hq, e⟩ | e <;> rw [e]
      · exact inv.configures hu hph nofun nofun hq trivial
      · exact inv.configures hu hph nofun nofun trivial trivial
  | @pullRead k q hph hq =>
    obtain ⟨hk, -⟩ := List.getElem?_eq_some_iff.mp hq
    exact inv.goes hph nofun nofun hk ⟨q, hq, rfl⟩
  | @pullWrite k q hph hq =>
    rcases pullPhase_cases s.cfg (k + 1) with ⟨hk, e⟩ | e <;> rw [e]
    · exact inv.goes hph nofun nofun hk trivial
    · exact inv.goes hph nofun nofun trivial trivial
  | cacheMasks hph =>
    refine inv.moves ⟨fun _ => inv.rangeOk (hph ▸ rfl), fun _ => rfl, ?_, ?_⟩ trivial trivial (by simp [hph]) nofun
      inv.romCanonical
    all_goals simp [Phase.stage]
  | overlapPasses hph ok =>
    refine inv.moves ⟨fun _ => inv.rangeOk (hph ▸ rfl), fun _ => inv.masksCached (hph ▸ rfl), fun _ => ok, ?_⟩ trivial trivial
      (by simp [hph]) nofun inv.romCanonical
    simp [Phase.stage]
  | fill hph =>
    refine inv.moves ⟨fun _ => inv.rangeOk (hph ▸ rfl), fun _ => inv.masksCached (hph ▸ rfl), fun _ => inv.disjoint (hph ▸ rfl),
      fun _ i hi => ?_⟩ trivial trivial (by simp [hph]) nofun (fillRom_wf _ _ _ inv.romCanonical)
    change i < s.cfg.memLen at hi
    simp [State.romAt, read_fillRom _ _ _ inv.romCanonical, hi]
  | statusConfigure hph hu =>
    exact inv.configures hu hph nofun nofun trivial trivial
  | float hph | statusLevel hph | statusDrive hph | driveBus hph | releaseBus hph | toggle hph =>
    exact inv.goes hph nofun nofun trivial trivial
  | sampleCs hph => exact inv.goes hph nofun nofun trivial ⟨_, rfl⟩
  | sampleAddr hph =>
    obtain ⟨-, -, -, -, memLen, -⟩ := inv.admitted.1
    exact inv.goes hph nofun nofun trivial ⟨_, Nat.mod_lt _ memLen, rfl⟩
  | readLevels hph =>
    exact inv.goes hph nofun nofun trivial ⟨inv.addrLatch (.inl hph), rfl⟩
  | rest => exact inv

/-! ### What a step of a Sequencer machine can do -/

/-- The Sequencer's turn is the action of its phase, and then the records of the step (R27, R41). -/
theorem phaseStep_of_masterTurn {s t : State} (inv : ControlInv s) (h : masterTurn s = .next t) :
    ∃ u, PhaseStep s u ∧ t = { u with events := t.events, draws := t.draws } := by
  rw [masterTurn_sequencer s inv.sequencer inv.idle] at h
  obtain ⟨u, hu, rfl⟩ := runInstr_next.mp h
  refine ⟨u, phaseStep_of_exec inv hu, ?_⟩
  cases takesStep (phaseInstr s.phase) <;> rfl

/-- What the control invariant says does not depend on the Host, the records, the schedule or the evaluations. -/
theorem ControlInv.outside {s : State} (inv : ControlInv s) (e : Vector Ext 32) (x : List Event) (ts : List Turn) (n : Nat) :
    ControlInv { s with ext := e, events := x, schedule := ts, draws := n } := { inv with }

/-- What holds at reset, is kept by every phase and does not depend on what lies outside the block is kept by every step of a
Sequencer machine, the Host's turns and power-on among them. -/
theorem sequencerStep_keeps {P : State → Prop} (initial : ∀ c e, c.Admitted → P (State.initial c e .sequencer))
    (phase : ∀ s t, ControlInv s → P s → PhaseStep s t → P t)
    (outside : ∀ s e x ts n, P s → P { s with ext := e, events := x, schedule := ts, draws := n })
    {s t : State} (inv : ControlInv s) (hs : P s) (h : step s = .next t) : P t := by
  have turn : ∀ ts, masterTurn { s with schedule := ts } = .next t → P t := by
    intro ts ht
    obtain ⟨u, hu, e⟩ := phaseStep_of_masterTurn (inv.outside s.ext s.events ts s.draws) ht
    rw [e]
    exact outside u u.ext _ u.schedule _ (phase _ u (inv.outside _ _ _ _) (outside s s.ext s.events ts s.draws hs) hu)
  obtain ⟨-, ⟨e, ht⟩ | ⟨rest, -, ht⟩ | ⟨sets, rest, -, rfl⟩ | ⟨rest, -, rfl⟩⟩ := step_cases h
  · exact turn s.schedule ht
  · exact turn rest ht
  · exact outside s _ _ rest _ hs
  · have on : P (State.initial s.cfg s.ext s.master) := inv.sequencer ▸ initial s.cfg s.ext inv.admitted
    exact outside _ s.ext [] rest s.draws on

theorem initial_controlInv {c : Config} (e : Vector Ext 32) (h : c.Admitted) : ControlInv (State.initial c e .sequencer) where
  admitted := h
  sequencer := rfl
  idle := rfl
  romCanonical := List.Pairwise.nil
  halted_iff := iff_of_false nofun nofun
  rangeOk := nofun
  inTable := trivial
  padLatch := nofun
  masksCached := nofun
  disjoint := nofun
  romFilled := nofun
  csLatch := nofun
  addrLatch := nofun
  outLatch := nofun

/-- Settles O53: a case for each phase, the rest of a step being outside the control. -/
theorem stepKeepsTheControlInvariant : Obligations.StepKeepsTheControlInvariant := fun _ _ inv h =>
  sequencerStep_keeps (fun _ e => initial_controlInv e) (fun _ _ inv _ => PhaseStep.controlInv inv)
    (fun _ e x ts n inv => inv.outside e x ts n) inv inv h

/-! ### The pin invariant -/

/-- The pad half of `BusPin`: the driver not disabled, the input enabled (R34). -/
def State.PadReady (s : State) (p : Nat) : Prop := padOd (s.padWord p) = false ∧ padIe (s.padWord p) = true

/-- What every phase keeps of the pins: a ready pad stays ready, and a pin is routed anew to the simple I/O function only. -/
structure PinsKept (s t : State) : Prop where
  cfg : t.cfg = s.cfg
  pad : ∀ p, s.PadReady p → t.PadReady p
  ctrl : ∀ p, t.ctrlWord p = s.ctrlWord p ∨ funcsel (t.ctrlWord p) = s.cfg.fSio

theorem PinsKept.of_same {s t : State} (cfg : t.cfg = s.cfg := by rfl) (pad : t.pad = s.pad := by rfl)
    (ctrl : t.ctrl = s.ctrl := by rfl) : PinsKept s t where
  cfg := cfg
  pad p h := by rwa [State.PadReady, State.padWord, pad]
  ctrl p := .inl (by rw [State.ctrlWord, ctrl, State.ctrlWord])

/-- A pad written keeps every pad ready that was, if the word written is ready when the pad was. -/
theorem PinsKept.setPad {s : State} {p : Nat} {w : Word}
    (h : s.PadReady p → padOd (w &&& padFields) = false ∧ padIe (w &&& padFields) = true) : PinsKept s (s.setPad p w) where
  cfg := rfl
  pad q hq := by
    unfold State.PadReady
    rw [padWord_setPad]
    split
    · rename_i e
      obtain ⟨rfl, -⟩ := e
      exact h hq
    · exact hq
  ctrl _ := .inl rfl

/-- The word `configure` writes routes the pin to the simple I/O function (R95). -/
theorem funcsel_ctrlSio (c : Config) : funcsel (ctrlSio c &&& ctrlFields) = c.fSio := by
  rw [ctrlSio, zeroExtend_and_ctrlFields, funcsel_zeroExtend]

theorem funcsel_setCtrl_ctrlSio (s : State) {p : Nat} (hp : p < 32) :
    funcsel ((s.setCtrl p (ctrlSio s.cfg)).ctrlWord p) = s.cfg.fSio := by
  rw [ctrlWord_setCtrl, if_pos ⟨rfl, hp⟩, funcsel_ctrlSio]

theorem PinsKept.setCtrl (s : State) (p : Nat) : PinsKept s (s.setCtrl p (ctrlSio s.cfg)) where
  cfg := rfl
  pad _ h := h
  ctrl q := by
    rw [ctrlWord_setCtrl]
    split
    · exact .inr (funcsel_ctrlSio _)
    · exact .inl rfl

theorem configured_padReady : padOd (padConfigured &&& padFields) = false ∧ padIe (padConfigured &&& padFields) = true := by
  decide

/-- Enabling the pull-down leaves a ready pad ready (R97). -/
theorem pulled_padReady {s : State} {p : Nat} (h : s.PadReady p) :
    padOd ((s.padWord p ||| padPdeBit) &&& padFields) = false ∧ padIe ((s.padWord p ||| padPdeBit) &&& padFields) = true := by
  obtain ⟨od, ie⟩ := h
  unfold padOd at od
  unfold padIe at ie
  simp only [padOd, padIe, BitVec.getLsbD_and, BitVec.getLsbD_or, od, ie]
  decide

theorem configureTransaction_pinsKept {p : Nat} {j : Fin 4} {s u : State} (h : configureTransaction p j s = .next u) :
    PinsKept s u := by
  rcases configureTransaction_cases h with ⟨-, rfl⟩ | ⟨-, rfl⟩ | ⟨-, -, rfl⟩ | ⟨-, -, rfl⟩
  · exact .of_same
  · exact .of_same
  · exact .setPad fun _ => configured_padReady
  · exact .setCtrl s p

theorem PinsKept.goto {s u : State} (kept : PinsKept s u) (ph : Phase) : PinsKept s (u.goto ph) := { kept with }

/-- The writes of pads and routes by the phases are those of `configure` and of the pull-downs (R109, R110, R115). -/
theorem PhaseStep.pinsKept {s t : State} (h : PhaseStep s t) : PinsKept s t := by
  cases h with
  | configure _ _ hu => exact (configureTransaction_pinsKept hu).goto _
  | statusConfigure _ hu => exact (configureTransaction_pinsKept hu).goto _
  | pullWrite => exact (PinsKept.setPad pulled_padReady).goto _
  | _ => exact .of_same

/-- No phase of the loop leaves it (R123). -/
theorem PhaseStep.inLoop {s t : State} (h : PhaseStep s t) (hs : s.phase.inLoop = true) : t.phase.inLoop = true := by
  cases h <;> simp_all [Phase.inLoop]

/-- A cleared enable was not set by the clearing (R86). -/
theorem enabled_of_oeClr {s : State} {d : Word} {i : Nat} (h : (s.oeClr d).oeWord.getLsbD i = true) :
    s.oeWord.getLsbD i = true := by
  rw [oeWord_oeClr, BitVec.getLsbD_and, Bool.and_eq_true] at h
  exact h.1

/-- An enable set by a write was set before or is one of the write's (R85). -/
theorem enabled_of_oeSet {s : State} {d : Word} {i : Nat} (h : (s.oeSet d).oeWord.getLsbD i = true) :
    s.oeWord.getLsbD i = true ∨ d.getLsbD i = true := by
  rw [oeWord_oeSet, BitVec.getLsbD_and, BitVec.getLsbD_or, Bool.and_eq_true, Bool.or_eq_true] at h
  exact h.1

/-- A transaction of `configure` enables no driver (R95). -/
theorem configureTransaction_enabled {p : Nat} {j : Fin 4} {s u : State} (h : configureTransaction p j s = .next u) {i : Nat}
    (hi : u.oeWord.getLsbD i = true) : s.oeWord.getLsbD i = true := by
  rcases configureTransaction_cases h with ⟨-, rfl⟩ | ⟨-, rfl⟩ | ⟨-, -, rfl⟩ | ⟨-, -, rfl⟩
  · exact enabled_of_oeClr hi
  · exact hi
  · exact hi
  · exact hi

/-- A phase enables the driver of no pin but, on the way into the loop and in it, the indicator's and the data pins' (R115, R118). -/
theorem PhaseStep.enabled {s t : State} (h : PhaseStep s t) {i : Nat} (hi : t.oeWord.getLsbD i = true) :
    s.oeWord.getLsbD i = true ∨
    (t.phase.inLoop = true ∧ ((cachedMasks s.cfg).data ||| (cachedMasks s.cfg).status).getLsbD i = true) := by
  rw [BitVec.getLsbD_or, Bool.or_eq_true]
  cases h with
  | configure _ _ hu => exact .inl (configureTransaction_enabled hu hi)
  | statusConfigure _ hu => exact .inl (configureTransaction_enabled hu hi)
  | float | releaseBus => exact .inl (enabled_of_oeClr hi)
  | statusDrive => exact (enabled_of_oeSet hi).imp_right fun d => ⟨rfl, .inr d⟩
  | driveBus => exact (enabled_of_oeSet hi).imp_right fun d => ⟨rfl, .inl d⟩
  | _ => exact .inl hi

/-- The last transaction of an entry of `CFG_LIST`, and no other, counts it as configured (R109). -/
theorem configured_cfgSuccessor {c : Config} {k : Nat} (hk : k < (cfgList c).length) (j : Fin 4) :
    (cfgSuccessor c k j).configured c = if j = 3 then k + 1 else k := by
  unfold cfgSuccessor
  split
  · rfl
  · rfl
  · rfl
  · split
    · rfl
    · have last : (cfgList c).length = k + 1 := by omega
      rcases pullPhase_cases c 0 with ⟨-, e⟩ | e <;> rw [e] <;> exact last

/-- The last transaction of an entry comes after the one that writes its pad (R95). -/
theorem cfgSuccessor_eq_last {c : Config} {k k' : Nat} {j : Fin 4} (h : cfgSuccessor c k j = .iCfg k' 3) : j = 2 ∧ k' = k := by
  unfold cfgSuccessor at h
  split at h
  · cases h
  · cases h
  · cases h; exact ⟨rfl, rfl⟩
  · split at h
    · cases h
    · rcases pullPhase_cases c 0 with ⟨-, e⟩ | e <;> rw [e] at h <;> cases h

/-- A pin configured for the bus stays so. -/
theorem PinsKept.busPin {s t : State} (kept : PinsKept s t) {p : Nat} (h : s.BusPin p) : t.BusPin p := by
  obtain ⟨routed, pad⟩ := h
  refine ⟨?_, kept.pad p pad⟩
  rw [kept.cfg]
  rcases kept.ctrl p with e | e
  · rw [e, routed]
  · exact e

/-- After a phase, the entries of `CFG_LIST` that count as configured are those that did before it, but the one whose last transaction
the phase was, and that one is routed to the simple I/O function (R109). -/
theorem PhaseStep.configured {s t : State} (h : PhaseStep s t) {i : Nat} (hi : i < t.phase.configured s.cfg) :
    i < s.phase.configured s.cfg ∨
    (s.phase = .iCfg i 3 ∧ ∀ p, (cfgList s.cfg)[i]? = some p → funcsel (t.ctrlWord p) = s.cfg.fSio) := by
  cases h with
  | @configure k j p u hph hp hu =>
    obtain ⟨hk, -⟩ := List.getElem?_eq_some_iff.mp hp
    simp only [goto_phase, configured_cfgSuccessor hk] at hi
    rw [hph]
    change i < k ∨ _
    rcases configureTransaction_cases hu with ⟨rfl, -⟩ | ⟨rfl, -⟩ | ⟨rfl, -, -⟩ | ⟨rfl, hp32, rfl⟩
    · exact .inl hi
    · exact .inl hi
    · exact .inl hi
    · rcases Nat.lt_succ_iff_lt_or_eq.mp hi with hi | rfl
      · exact .inl hi
      · refine .inr ⟨rfl, fun q hq => ?_⟩
        cases hp.symm.trans hq
        exact funcsel_setCtrl_ctrlSio s hp32
  | @pullWrite k q hph =>
    left
    rw [hph]
    rcases pullPhase_cases s.cfg (k + 1) with ⟨-, e⟩ | e <;> rw [goto_phase, e] at hi <;> exact hi
  | checkFails | overlapFails | checkPasses => exact absurd hi (Nat.not_lt_zero i)
  | rest => exact .inl hi
  | pullRead hph | cacheMasks hph | overlapPasses hph | float hph | fill hph | statusConfigure hph | statusLevel hph
  | statusDrive hph | sampleCs hph | driveBus hph | releaseBus hph | sampleAddr hph | readLevels hph | toggle hph =>
    left
    rw [hph]
    exact hi

/-- Before the last transaction of an entry its pad has been written (R95). -/
theorem PhaseStep.padReady {s t : State} (h : PhaseStep s t) {k p : Nat} (hph : t.phase = .iCfg k 3)
    (hp : (cfgList s.cfg)[k]? = some p) : t.PadReady p := by
  cases h with
  | @configure k' j p' u hs hp' hu =>
    obtain ⟨rfl, rfl⟩ := cfgSuccessor_eq_last hph
    cases hp'.symm.trans hp
    rcases configureTransaction_cases hu with ⟨e, -⟩ | ⟨e, -⟩ | ⟨-, hp32, rfl⟩ | ⟨e, -⟩
    · cases e
    · cases e
    · rw [State.PadReady, padWord_goto, padWord_setPad, if_pos ⟨rfl, hp32⟩]
      exact configured_padReady
    · cases e
  | @pullWrite k' q =>
    rw [goto_phase] at hph
    rcases pullPhase_cases s.cfg (k' + 1) with ⟨-, e⟩ | e <;> rw [e] at hph <;> cases hph
  | rest hs => rw [hs] at hph; cases hph
  | _ => cases hph

/-- A word is 0 when no bit of it is set. -/
theorem eq_zero_iff_bits (w : Word) : w = 0 ↔ ∀ i, w.getLsbD i = false := by
  constructor
  · rintro rfl i
    exact BitVec.getLsbD_zero
  · exact fun h => word_ext fun i _ => (h i).trans BitVec.getLsbD_zero.symm

/-- A word has no bit outside a mask when each of its bits is one of the mask's. -/
theorem and_not_eq_zero_iff_bits (w m : Word) : w &&& ~~~m = 0 ↔ ∀ i, w.getLsbD i = true → m.getLsbD i = true := by
  rw [eq_zero_iff_bits]
  refine forall_congr' fun i => ?_
  rw [BitVec.getLsbD_and, BitVec.getLsbD_not]
  by_cases hi : i < 32
  · cases w.getLsbD i <;> cases m.getLsbD i <;> simp [hi]
  · simp [BitVec.getLsbD_of_ge _ _ (Nat.le_of_not_lt hi)]

/-- Every phase keeps the pin invariant: enables appear only in the loop and on its pins, and pins are only ever configured. -/
theorem PhaseStep.busInv {s t : State} (inv : BusInv s) (h : PhaseStep s t) : BusInv t := by
  have kept := h.pinsKept
  constructor
  · intro out
    have before : s.phase.inLoop = false := Bool.eq_false_iff.mpr fun e => by simp [h.inLoop e] at out
    have off := (eq_zero_iff_bits _).mp (inv.floats before)
    refine (eq_zero_iff_bits _).mpr fun i => Bool.eq_false_iff.mpr fun hi => ?_
    rcases h.enabled hi with e | ⟨e, -⟩
    · rw [off i] at e; cases e
    · rw [out] at e; cases e
  · rw [kept.cfg]
    refine (and_not_eq_zero_iff_bits _ _).mpr fun i hi => ?_
    rcases h.enabled hi with e | ⟨-, e⟩
    · exact (and_not_eq_zero_iff_bits _ _).mp inv.drivers i e
    · exact e
  · rw [kept.cfg]
    intro p hp
    rcases kept.ctrl p with e | e
    · rw [e]; exact inv.routed p hp
    · exact .inl e
  · rw [kept.cfg]
    intro i p hi hp
    rcases h.configured hi with hi | ⟨hph, routed⟩
    · exact kept.busPin (inv.configured i p hi hp)
    · refine ⟨?_, kept.pad p (inv.half i p hph hp)⟩
      rw [kept.cfg]
      exact routed p hp
  · rw [kept.cfg]
    exact fun k p hph hp => h.padReady hph hp

theorem initial_busInv (c : Config) (e : Vector Ext 32) (m : Master) (h : c.Admitted) : BusInv (State.initial c e m) where
  floats _ := oeWord_initial c e m
  drivers := by rw [oeWord_initial]; exact BitVec.zero_and
  routed p hp := by
    obtain ⟨-, pins, -⟩ := h.1
    right
    rw [ctrlWord_initial c e m (lt_of_lt_of_le hp pins)]
    exact funcsel_zeroExtend _
  configured i p hi := absurd hi (Nat.not_lt_zero i)
  half := nofun

/-- Settles O55: a case for each phase, the rest of a step touching no register. -/
theorem stepKeepsThePinInvariant : Obligations.StepKeepsThePinInvariant := fun _ _ control inv h =>
  sequencerStep_keeps (fun c e => initial_busInv c e .sequencer) (fun _ _ _ inv => PhaseStep.busInv inv)
    (fun _ _ _ _ _ inv => { inv with }) control inv h

/-- Settles O52: the state after reset meets each invariant for every admitted configuration. -/
theorem resetMeetsTheInvariants : Obligations.ResetMeetsTheInvariants :=
  ⟨initial_storedInv _ _ _, initial_controlInv _ default_admitted, initial_busInv _ _ _ default_admitted⟩

/-! ### The state right after reset and after power-on -/

/-- Settles O7: the values of the state after reset, at the default parameters. -/
theorem resetHoldsTheSpecsValues : Obligations.ResetHoldsTheSpecsValues := by
  refine ⟨outWord_initial _ _ _, oeWord_initial _ _ _, fun p hp => ?_, romAt_initial _ _ _, rfl, rfl, rfl, rfl, rfl, rfl, rfl, rfl⟩
  have hp : p < 32 := lt_trans hp (by decide)
  exact ⟨padWord_initial _ _ _ hp, ctrlWord_initial _ _ _ hp⟩

/-- Settles O8: a power-on is the state after reset, of the same parameters and under the same Host. -/
theorem powerOnLeavesTheResetValues : Obligations.PowerOnLeavesTheResetValues := by
  intro s rest ha hs
  refine ⟨powerOn { s with schedule := rest }, ?_, outWord_initial s.cfg s.ext s.master, oeWord_initial s.cfg s.ext s.master,
    fun p hp => ?_, romAt_initial s.cfg s.ext s.master, rfl, rfl, rfl, rfl, rfl, rfl, rfl, rfl, rfl, rfl, rfl⟩
  · simp only [step, takeTurn, if_pos ha, hs]
  · obtain ⟨-, pins, -⟩ := ha.1
    have hp : p < 32 := lt_of_lt_of_le hp pins
    exact ⟨padWord_initial s.cfg s.ext s.master hp, ctrlWord_initial s.cfg s.ext s.master hp⟩

/-! ### The Sequencer's step -/

/-- With nothing scheduled before it, the step of a Sequencer machine is the run of its phase's instruction (R27, R106). -/
theorem step_sequencer (s : State) (ha : s.cfg.Admitted) (hs : s.schedule = []) (hp : s.pending = [])
    (hm : s.master = .sequencer) : step s = runInstr (phaseInstr s.phase) s := by
  rw [← masterTurn_sequencer s hm hp]
  simp only [step, takeTurn, if_pos ha, hs]

/-- `HALTED` alone of the phases has no step (R131). -/
theorem takesStep_phaseInstr {ph : Phase} (h : ph ≠ .halted) : takesStep (phaseInstr ph) = true := by
  cases ph with
  | halted => exact absurd rfl h
  | _ => rfl

/-- Settles O6: the turn is the Sequencer's, and its phase's instruction is a step. -/
theorem stepRunsThePhase : Obligations.StepRunsThePhase := by
  intro s ha hs hp hm hph
  rw [step_sequencer s ha hs hp hm, runInstr_of_takesStep (takesStep_phaseInstr hph)]

/-! ### Drive, level and contention of a pin -/

/-- `Drives(p)` of a pin routed to the simple I/O function (R39). -/
theorem drivesAt_of_sio {s : State} {p : Nat} (n : Nat) (h : funcsel (s.ctrlWord p) = s.cfg.fSio) :
    s.drivesAt n p = true ↔ s.oeWord.getLsbD p = true ∧ padOd (s.padWord p) = false := by
  simp [State.drivesAt, h]

/-- `DrivenValue(p)` of a pin routed to the simple I/O function (R39). -/
theorem drivenValueAt_of_sio {s : State} {p : Nat} (n : Nat) (h : funcsel (s.ctrlWord p) = s.cfg.fSio) :
    s.drivenValueAt n p = s.outWord.getLsbD p := by
  simp [State.drivenValueAt, h]

/-- A pin routed to nothing does not drive (R39). -/
theorem drivesAt_of_null {s : State} {p : Nat} (n : Nat) (hs : funcsel (s.ctrlWord p) ≠ s.cfg.fSio)
    (h : funcsel (s.ctrlWord p) = s.cfg.fNull) : s.drivesAt n p = false := by
  rw [State.drivesAt, if_neg hs, if_pos h]

/-- Settles O13: each clause is one row of the tables of R39 and R40. -/
theorem pinLevelFollowsTheTable : Obligations.PinLevelFollowsTheTable := by
  intro s n p
  refine ⟨fun h => ⟨drivesAt_of_sio n h, drivenValueAt_of_sio n h⟩, drivesAt_of_null n, ?_, ?_, ?_, ?_, ?_, ?_, ?_⟩
  · intro hd he; simp only [State.levelAt, hd, he]
  · intro hd he hv; simp [State.levelAt, hd, he, hv, contestedLevel]
  · intro hd he hv; simp [State.levelAt, hd, he, hv, contestedLevel]
  · intro hd he; simp only [State.levelAt, hd, he]
  · intro hd he; simp only [State.levelAt, hd, he]
  · intro hd he up down; simp only [State.levelAt, hd, he, State.pulledLevelAt, up, down]
  · intro hd he up down; simp only [State.levelAt, hd, he, State.pulledLevelAt, up, down]

/-- A pin is contended when it drives and the Host drives the other value (R41). -/
theorem contendsAt_iff (s : State) (n p : Nat) :
    s.contendsAt n p = true ↔ s.drivesAt n p = true ∧
      ((s.extAt p = .low ∧ s.drivenValueAt n p = true) ∨ (s.extAt p = .high ∧ s.drivenValueAt n p = false)) := by
  unfold State.contendsAt
  cases s.extAt p <;> cases s.drivenValueAt n p <;> simp [hostLevel]

/-- The contended pins of a settled step, ascending (R41, log 18). -/
def State.contended (s : State) : List Nat := (List.range s.cfg.pinCount).filter (fun p => s.contendsAt s.draws p)

theorem settle_events (s : State) : (settle s).events = s.events ++ s.contended.map Event.contention := rfl

theorem contended_ascending (s : State) : s.contended.Pairwise (· < ·) := List.pairwise_lt_range.filter _

/-- Of the pins routed to the simple I/O function or to nothing, the contended ones (R39, R41). -/
theorem mem_contended_iff {s : State} {p : Nat}
    (routed : funcsel (s.ctrlWord p) = s.cfg.fSio ∨ funcsel (s.ctrlWord p) = s.cfg.fNull) :
    p ∈ s.contended ↔ p < s.cfg.pinCount ∧ funcsel (s.ctrlWord p) = s.cfg.fSio ∧ s.oeWord.getLsbD p = true ∧
      padOd (s.padWord p) = false ∧
      ((s.extAt p = .low ∧ s.outWord.getLsbD p = true) ∨ (s.extAt p = .high ∧ s.outWord.getLsbD p = false)) := by
  rw [State.contended, List.mem_filter, List.mem_range, contendsAt_iff]
  by_cases sio : funcsel (s.ctrlWord p) = s.cfg.fSio
  · rw [drivesAt_of_sio _ sio, drivenValueAt_of_sio _ sio]
    simp only [sio, true_and, and_assoc]
  · simp [drivesAt_of_null _ sio (routed.resolve_left sio), sio]

/-- A step of the Host, or of a Sequencer that has one, ends by settling a state with no new record (R41). -/
theorem step_settles {s t : State} (h : step s = .next t)
    (agent : (∃ sets rest, s.schedule = .host sets :: rest) ∨
      (s.schedule = [] ∧ s.master = .sequencer ∧ s.pending = [] ∧ s.phase ≠ .halted)) :
    ∃ u, u.events = s.events ∧ t = settle u := by
  obtain ⟨ha, -⟩ := step_cases h
  rcases agent with ⟨sets, rest, hs⟩ | ⟨hs, hm, hp, hph⟩
  · refine ⟨hostSet sets { s with schedule := rest }, rfl, ?_⟩
    simp only [step, takeTurn, if_pos ha, hs] at h
    cases h
    rfl
  · rw [step_sequencer s ha hs hp hm] at h
    obtain ⟨u, hu, rfl⟩ := runInstr_next.mp h
    exact ⟨u, (exec_outside hu).events, if_pos (takesStep_phaseInstr hph)⟩

/-- Settles O10: the step ends by settling, and what settling records is the contended pins. -/
theorem stepRecordsExactlyTheContendedPins : Obligations.StepRecordsExactlyTheContendedPins := by
  intro s t h agent
  obtain ⟨u, same, rfl⟩ := step_settles h agent
  exact ⟨u.contended, by rw [settle_events, same], contended_ascending u, fun _ routed => mem_contended_iff routed⟩

/-! ### Latches and masks that nothing has written -/

/-- The state with the masks its phases read stored as if cached (R30, log 6). -/
def State.withHeldMasks (s : State) : State := { s with masks := some s.heldMasks }

/-- The state with the masks as before `I_MASKS` (R30). -/
def State.forgetMasks (s : State) : State := { s with masks := none }

/-- An answer with the masks of its next state forgotten. -/
def thenForgetMasks (o : Answer) : Answer := andThen o (fun t => .next t.forgetMasks)

theorem forgetMasks_of_none {s : State} (h : s.masks = none) : s.forgetMasks = s := by rw [State.forgetMasks, ← h]

@[simp] theorem heldMasks_withHeldMasks (s : State) : s.withHeldMasks.heldMasks = s.heldMasks := rfl
@[simp] theorem romAt_withHeldMasks (s : State) (i : Nat) : s.withHeldMasks.romAt i = s.romAt i := rfl

/-- `I_OVERLAP` reads the masks and leaves them as they are (R112). -/
theorem execIOverlap_forgetMasks (s : State) :
    execIOverlap s.forgetMasks = thenForgetMasks (execIOverlap s.forgetMasks.withHeldMasks) := by
  unfold execIOverlap
  rw [heldMasks_withHeldMasks]
  split <;> rfl

/-- `L_DIR` reads the masks and leaves them as they are (R118). -/
theorem execLDir_forgetMasks (s : State) :
    execLDir s.forgetMasks = thenForgetMasks (execLDir s.forgetMasks.withHeldMasks) := by
  change withLatch s.csL _ = thenForgetMasks (withLatch s.csL _)
  cases s.csL with
  | none => rfl
  | some cs =>
    simp only [withLatch]
    cases csAsserted cs <;> rfl

/-- `L_XOR` reads the masks and leaves them as they are (R122). -/
theorem execLXor_forgetMasks (s : State) :
    execLXor s.forgetMasks = thenForgetMasks (execLXor s.forgetMasks.withHeldMasks) := by
  change withLatch s.addrL (fun i => withLatch s.outL _) = thenForgetMasks (withLatch s.addrL (fun i => withLatch s.outL _))
  cases s.addrL with
  | none => rfl
  | some i =>
    cases s.outL with
    | none => rfl
    | some o =>
      simp only [withLatch, romAt_withHeldMasks]
      cases s.forgetMasks.romAt i <;> rfl

/-- Settles O48: a phase that reads the masks takes its own from `heldMasks`, so that it runs alike with those stored, and none of them
writes the masks. -/
theorem unwrittenLatchFaultsUnwrittenMaskIsFree : Obligations.UnwrittenLatchFaultsUnwrittenMaskIsFree := by
  intro s
  refine ⟨fun h => ?_, fun h => ?_, fun k hk h => ?_, fun h i hi => ?_⟩
  · simp only [exec, execLDir, h, withLatch]
  · rcases h with h | h
    · simp only [exec, execLXor, h, withLatch]
    · cases ha : s.addrL <;> simp only [exec, execLXor, h, ha, withLatch]
  · simp only [exec, execIPull, List.getElem?_eq_getElem hk, h, withLatch]
  · change exec i s = thenForgetMasks (exec i s.withHeldMasks)
    rw [← forgetMasks_of_none h]
    simp only [List.mem_cons, List.not_mem_nil, or_false] at hi
    rcases hi with rfl | rfl | rfl | rfl | rfl | rfl | rfl | rfl
    · exact execIOverlap_forgetMasks s
    · rfl
    · rfl
    · rfl
    · rfl
    · exact execLDir_forgetMasks s
    · rfl
    · exact execLXor_forgetMasks s

end Sys2Proof.Machine
end

