-- ==== Sys2Proof/Proofs/Memory.lean ====
section
/-! SUPPORT. The register space and the memory: which requests the address map refuses and under what name (R50, R51, R55); the phases
that can follow a phase, and which of them write the array and the masks (R27, R30, R60). -/

namespace Sys2Proof

/-! ### The decoder's refusals -/

/-- A narrow or unaligned request is refused before its address is looked up (R55). -/
theorem decodeRequest_of_badAccess (c : Config) {r : Request} (bad : r.width ≠ 32 ∨ r.addr.toNat % 4 ≠ 0) :
    decodeRequest c r = .error .badAccess := if_pos bad

/-- A full, aligned request is what the address map gives for its address (R68). -/
theorem decodeRequest_of_aligned (c : Config) {r : Request} (hw : r.width = 32) (ha : r.addr.toNat % 4 = 0) :
    decodeRequest c r = decodeAddr c r.write r.addr.toNat r.data := if_neg (by omega)

/-- An aligned address that is no existing pin's pad or function-select word is none of the per-pin registers (R50). -/
theorem decodePins_unmapped {c : Config} (h : c.WindowsOk) (w : Bool) {a : Nat} (d : Word) (aligned : a % 4 = 0)
    (absent : ∀ p, p < c.pinCount → a ≠ c.padsBase.toNat + 0x004 + 4 * p ∧ a ≠ c.ioctrlBase.toNat + 0x004 + 8 * p) :
    decodePins c w a d = .error .unmapped := by
  obtain ⟨-, padsAligned, -⟩ := h
  have noPad : ¬ (c.padsBase.toNat + 0x004 ≤ a ∧ a < c.padsBase.toNat + 0x004 + 4 * c.pinCount) := by
    have := absent ((a - c.padsBase.toNat - 0x004) / 4)
    omega
  have noCtrl : ¬ (c.ioctrlBase.toNat ≤ a ∧ (a - c.ioctrlBase.toNat) % 8 = 4 ∧ a - c.ioctrlBase.toNat < 8 * c.pinCount) := by
    have := absent ((a - c.ioctrlBase.toNat - 0x004) / 8)
    omega
  rw [decodePins, if_neg noPad, if_neg noCtrl]

/-- `IN` takes no write, and the six atomic aliases no read (R51). -/
theorem decodeAddr_wrongDirection (c : Config) {w : Bool} {a : Nat} (d : Word)
    (wrong : (w = true ∧ a = c.sioBase.toNat + 0x004) ∨
      (w = false ∧ ∃ o ∈ [0x014, 0x018, 0x01C, 0x024, 0x028, 0x02C], a = c.sioBase.toNat + o)) :
    decodeAddr c w a d = .error .wrongDirection := by
  obtain ⟨input, -, outSet, outClr, outXor, -, oeSet, oeClr, oeXor⟩ := decodeAddr_sio c w d
  rcases wrong with ⟨rfl, rfl⟩ | ⟨rfl, o, ho, rfl⟩
  · exact input
  · simp only [List.mem_cons, List.not_mem_nil, or_false] at ho
    rcases ho with rfl | rfl | rfl | rfl | rfl | rfl
    · exact outSet
    · exact outClr
    · exact outXor
    · exact oeSet
    · exact oeClr
    · exact oeXor

/-- Settles O4: width and alignment are looked at first, then the SIO registers, then the pins' words. -/
theorem decoderRefusesByName : Obligations.DecoderRefusesByName := by
  rintro c r ⟨-, windows⟩
  refine ⟨decodeRequest_of_badAccess c, fun hw ha wrong => ?_, fun hw ha noSio noPin => ?_⟩
  · rw [decodeRequest_of_aligned c hw ha]
    exact decodeAddr_wrongDirection c _ wrong
  · rw [decodeRequest_of_aligned c hw ha, decodeAddr_pins c _ _ _ (by simpa [sioRows] using noSio)]
    exact decodePins_unmapped windows _ _ ha noPin

namespace Machine

/-! ### The registers of a pin that does not exist -/

/-- A pin number past the last pin names no pin (R10). -/
theorem hasPin_of_le {c : Config} {p : Nat} (h : c.pinCount ≤ p) : hasPin c p = false := by
  rw [hasPin, decide_eq_false (Nat.not_lt.mpr h), Bool.false_and]

/-- Settles O20: each of the four asks first whether the pin exists. -/
theorem absentPinTransactionsAreRefused : Obligations.AbsentPinTransactionsAreRefused := by
  intro s p d h
  have absent : ¬ hasPin s.cfg p = true := Bool.eq_false_iff.mp (hasPin_of_le h)
  exact ⟨if_neg absent, if_neg absent, if_neg absent, if_neg absent⟩

/-! ### The phases that follow a phase, and what they write -/

/-- The phases a turn of the Sequencer can lead to (R27, R108 to R122): one, or two where a check can halt it. -/
def Phase.successors (c : Config) : Phase → List Phase
  | .iCheck => [.iCfg 0 0, .halted]
  | .iCfg k j => [cfgSuccessor c k j]
  | .iPull k 0 => [.iPull k 1]
  | .iPull k 1 => [pullPhase c (k + 1)]
  | .iMasks => [.iOverlap]
  | .iOverlap => [.iFloat, .halted]
  | .iFloat => [.iFill]
  | .iFill => [.iStatus 0]
  | .iStatus 5 => [.lCs]
  | .iStatus j => [.iStatus (j + 1)]
  | .lCs => [.lDir]
  | .lDir => [.lAddr]
  | .lAddr => [.lRdout]
  | .lRdout => [.lXor]
  | .lXor => [.lCs]
  | .halted => [.halted]

/-- What a turn of the Sequencer does to its phase, to the array and to the masks, whatever its latches hold. -/
structure PhaseMove (s t : State) : Prop where
  follows : t.phase ∈ s.phase.successors s.cfg
  rom : s.phase ≠ .iFill → t.rom = s.rom
  masks : s.phase ≠ .iMasks → t.masks = s.masks

/-- A phase that leads on and writes neither the array nor the masks. -/
theorem PhaseMove.of_same {s t : State} {ph : Phase} (hph : s.phase = ph) (follows : t.phase ∈ ph.successors s.cfg)
    (rom : t.rom = s.rom := by rfl) (masks : t.masks = s.masks := by rfl) : PhaseMove s t :=
  ⟨hph ▸ follows, fun _ => rom, fun _ => masks⟩

/-- So does a phase that issues one transaction of `configure` (R109, R115). -/
theorem PhaseMove.of_configure {s u : State} {p : Nat} {j : Fin 4} {ph ph' : Phase} (hph : s.phase = ph)
    (hu : configureTransaction p j s = .next u) (follows : ph' ∈ ph.successors s.cfg) : PhaseMove s (u.goto ph') := by
  rcases configureTransaction_cases hu with ⟨-, rfl⟩ | ⟨-, rfl⟩ | ⟨-, -, rfl⟩ | ⟨-, -, rfl⟩ <;>
    exact .of_same hph follows

/-- The action of each phase leads to a successor, and only `I_FILL` writes the array and only `I_MASKS` the masks. -/
theorem phaseMove_of_exec {s t : State} (h : exec (phaseInstr s.phase) s = .next t) : PhaseMove s t := by
  cases hph : s.phase with rw [hph] at h
  | iCheck =>
    simp only [phaseInstr, exec, execICheck] at h
    split at h <;> cases h <;> exact .of_same hph (by simp [Phase.successors])
  | iCfg k j =>
    simp only [phaseInstr, exec, execICfg] at h
    split at h
    · cases h
    · obtain ⟨u, hu, h⟩ := andThen_next.mp h
      cases h
      exact .of_configure hph hu (List.mem_singleton_self _)
  | iPull k j =>
    simp only [phaseInstr, exec, execIPull] at h
    split at h
    · cases h
    · obtain ⟨u, hu, h⟩ := andThen_next.mp h
      obtain ⟨-, hu⟩ := guard_next.mp hu
      cases hu
      cases h
      exact .of_same hph (List.mem_singleton_self _)
    · obtain ⟨w, -, h⟩ := withLatch_next.mp h
      obtain ⟨u, hu, h⟩ := andThen_next.mp h
      obtain ⟨-, hu⟩ := guard_next.mp hu
      obtain ⟨-, hu⟩ := guard_next.mp hu
      cases hu
      cases h
      exact .of_same hph (List.mem_singleton_self _)
  | iMasks =>
    simp only [phaseInstr, exec, execIMasks] at h
    split at h <;> cases h
    exact ⟨hph ▸ List.mem_singleton_self _, fun _ => rfl, fun other => absurd hph other⟩
  | iOverlap =>
    simp only [phaseInstr, exec, execIOverlap] at h
    split at h <;> cases h <;> exact .of_same hph (by simp [Phase.successors])
  | iFill =>
    cases h
    exact ⟨hph ▸ List.mem_singleton_self _, fun other => absurd hph other, fun _ => rfl⟩
  | iStatus j =>
    simp only [phaseInstr, exec, execIStatus] at h
    split at h
    case h_5 | h_6 => cases h; exact .of_same hph (List.mem_singleton_self _)
    all_goals
      obtain ⟨u, hu, h⟩ := andThen_next.mp h
      cases h
      exact .of_configure hph hu (List.mem_singleton_self _)
  | lDir =>
    obtain ⟨cs, -, h⟩ := withLatch_next.mp h
    cases h
    cases csAsserted cs <;> exact .of_same hph (List.mem_singleton_self _)
  | lXor =>
    obtain ⟨i, -, h⟩ := withLatch_next.mp h
    obtain ⟨o, -, h⟩ := withLatch_next.mp h
    split at h <;> cases h
    exact .of_same hph (List.mem_singleton_self _)
  | iFloat | lCs | lAddr | lRdout => cases h; exact .of_same hph (List.mem_singleton_self _)
  | halted => cases h; exact .of_same hph (List.mem_singleton.mpr hph)

/-- No phase past `I_FILL` leads back to it or before it (R114, R123). -/
theorem Phase.pastFill_of_mem_successors {c : Config} {ph ph' : Phase} (h : ph' ∈ ph.successors c)
    (here : ph.pastFill = true) : ph'.pastFill = true := by
  cases ph with
  | lCs | lDir | lAddr | lRdout | lXor => cases List.mem_singleton.mp h; rfl
  | iStatus j => fin_cases j <;> cases List.mem_singleton.mp h <;> rfl
  | _ => cases here

/-- No phase past `I_MASKS` leads back to it or before it, and nothing leads out of `HALTED` (R112, R134). -/
theorem Phase.pastMasks_of_mem_successors {c : Config} {ph ph' : Phase} (h : ph' ∈ ph.successors c)
    (here : ph.pastMasks = true ∨ ph = .halted) : ph'.pastMasks = true ∨ ph' = .halted := by
  have filled : ph.pastFill = true → ph'.pastMasks = true := fun past =>
    ph'.pastMasks_iff.mpr (le_trans (by decide) (ph'.pastFill_iff.mp (pastFill_of_mem_successors h past)))
  cases ph with
  | iOverlap =>
    simp only [successors, List.mem_cons, List.not_mem_nil, or_false] at h
    rcases h with rfl | rfl
    · exact .inl rfl
    · exact .inr rfl
  | iFloat | iFill => cases List.mem_singleton.mp h; exact .inl rfl
  | iStatus | lCs | lDir | lAddr | lRdout | lXor => exact .inl (filled rfl)
  | halted => exact .inr (List.mem_singleton.mp h)
  | _ => simp [pastMasks, inLoop] at here

/-- A turn of the Sequencer, wherever the schedule stands, is a move of its phase; the records of the step change none of the three
(R27, R41). -/
theorem phaseMove_of_masterTurn {s t : State} {ts : List Turn} (hm : s.master = .sequencer) (hp : s.pending = [])
    (h : masterTurn { s with schedule := ts } = .next t) : PhaseMove s t := by
  rw [masterTurn_sequencer { s with schedule := ts } hm hp] at h
  obtain ⟨u, hu, rfl⟩ := runInstr_next.mp h
  have move : PhaseMove { s with schedule := ts } u := phaseMove_of_exec hu
  cases takesStep (phaseInstr s.phase) <;> exact { move with }

/-- A step of a Sequencer machine that is no power-on is a move of its phase, or the Host's and leaves phase, array and masks as they
are (R138, R139). -/
theorem step_phaseMove {s t : State} (hm : s.master = .sequencer) (hp : s.pending = []) (h : step s = .next t)
    (noReset : ∀ rest, s.schedule ≠ .powerOn :: rest) :
    PhaseMove s t ∨ (t.phase = s.phase ∧ t.rom = s.rom ∧ t.masks = s.masks) := by
  obtain ⟨-, ⟨-, h⟩ | ⟨rest, -, h⟩ | ⟨sets, rest, -, rfl⟩ | ⟨rest, reset, -⟩⟩ := step_cases h
  · exact .inl (phaseMove_of_masterTurn (ts := s.schedule) hm hp h)
  · exact .inl (phaseMove_of_masterTurn hm hp h)
  · exact .inr ⟨rfl, rfl, rfl⟩
  · exact absurd reset (noReset rest)

/-- Settles O51: a move of the phase writes at the two phases only and never leads back to one, and a step of the Host stays where it
is. -/
theorem arrayAndMasksAreWrittenOnce : Obligations.ArrayAndMasksAreWrittenOnce := by
  intro s t hm hp h noReset
  rcases step_phaseMove hm hp h noReset with ⟨follows, rom, masks⟩ | ⟨phase, rom, masks⟩
  · refine ⟨rom, fun fill => .inr ?_, Phase.pastFill_of_mem_successors follows, masks, fun caching => .inr ?_,
      Phase.pastMasks_of_mem_successors follows⟩
    · rw [fill] at follows
      exact List.mem_singleton.mp follows ▸ rfl
    · rw [caching] at follows
      exact List.mem_singleton.mp follows ▸ rfl
  · rw [phase]
    exact ⟨fun _ => rom, fun fill => .inl ⟨fill, rom⟩, id, fun _ => masks, fun caching => .inl ⟨caching, masks⟩, id⟩

end Machine

end Sys2Proof
end

