-- ==== Sys2Proof/Proofs/Encoding.lean ====
section
/-! SUPPORT. The encoding both ways (R67, R68, R71): the bytes of a transaction give it back, what a transaction encodes to decodes to it,
and what decodes is encoded by its own key; and nine words of R71's table. -/

namespace Sys2Proof

/-! ### Words and bytes -/

/-- The four bytes of a word, put together again, are the word (R53). -/
theorem append_bytes_of_word (a : Word) :
    a.extractLsb' 24 8 ++ a.extractLsb' 16 8 ++ a.extractLsb' 8 8 ++ a.extractLsb' 0 8 = a := by
  rw [BitVec.extractLsb'_append_extractLsb'_eq_extractLsb' (by decide),
    BitVec.extractLsb'_append_extractLsb'_eq_extractLsb' (by decide),
    BitVec.extractLsb'_append_extractLsb'_eq_extractLsb' (by decide)]
  exact BitVec.extractLsb'_eq_self

/-- The nine bytes of a 32-bit transaction stand for that transaction (R54, R67; log 11). -/
theorem Request.ofBytes_toBytes {r : Request} (hw : r.width = 32) : Request.ofBytes r.toBytes = r := by
  obtain ⟨width, write, addr, data⟩ := r
  obtain rfl : width = 32 := hw
  simp only [toBytes, ofBytes, append_bytes_of_word]
  cases write <;> rfl

/-- A word at an offset that stays in the register space has the sum as its address (R47). -/
theorem toNat_wordAddr {base : Word} {o : Nat} (h : base.toNat + o < 2 ^ 32) : (wordAddr base o).toNat = base.toNat + o := by
  rw [wordAddr, BitVec.toNat_add, BitVec.toNat_ofNat, Nat.add_mod_mod, Nat.mod_eq_of_lt h]

/-- An address is the word at its own offset. -/
theorem eq_wordAddr {a base : Word} {o : Nat} (h : a.toNat = base.toNat + o) : a = wordAddr base o :=
  BitVec.eq_of_toNat_eq (by rw [toNat_wordAddr (h ▸ a.isLt), h])

/-! ### From the encoding back to the instruction -/

/-- A request that decodes is full and aligned, and the address map gives its operation (R55, R68). -/
theorem decodeRequest_eq_ok {c : Config} {r : Request} {i : Instr} (h : decodeRequest c r = .ok i) :
    r.width = 32 ∧ r.addr.toNat % 4 = 0 ∧ decodeAddr c r.write r.addr.toNat r.data = .ok i := by
  by_cases bad : r.width ≠ 32 ∨ r.addr.toNat % 4 ≠ 0
  · rw [decodeRequest_of_badAccess c bad] at h
    cases h
  · have full : r.width = 32 := by omega
    have aligned : r.addr.toNat % 4 = 0 := by omega
    exact ⟨full, aligned, by rw [← h, decodeRequest_of_aligned c full aligned]⟩

/-- A request for an aligned word of a window is what the address map gives for that word (R49, R55). -/
theorem decodeRequest_wordAddr (c : Config) {base : Word} {o : Nat} (hb : base.toNat % 4 = 0) (ho : o % 4 = 0)
    (h : base.toNat + o < 2 ^ 32) (w : Bool) (d : Word) :
    decodeRequest c ⟨32, w, wordAddr base o, d⟩ = decodeAddr c w (base.toNat + o) d := by
  have e := toNat_wordAddr h
  rw [decodeRequest_of_aligned c rfl (by simp only [e]; omega)]
  simp only [e]

/-- A request for a word of the SIO window decodes to the operation the address map gives for that word (R47). -/
theorem decodeRequest_sio {c : Config} (h : c.Admitted) {o : Nat} (ho : o % 4 = 0 ∧ o < 0x030) {w : Bool} {d : Word} {i : Instr}
    (hd : decodeAddr c w (c.sioBase.toNat + o) d = .ok i) : decodeRequest c ⟨32, w, wordAddr c.sioBase o, d⟩ = .ok i := by
  obtain ⟨-, aligned, -, -, inside, -⟩ := h
  rw [decodeRequest_wordAddr c aligned ho.1 (by omega), hd]

/-- A request for an existing pin's pad word decodes to that pin's transaction (R68). -/
theorem decodeRequest_pad {c : Config} (h : c.Admitted) {p : Nat} (hp : p < c.pinCount) (w : Bool) (d : Word) :
    decodeRequest c ⟨32, w, wordAddr c.padsBase (0x004 + 4 * p), d⟩ = .ok (if w then .wrPad p d else .rdPad p) := by
  have ⟨_, _, aligned, _, _, inside, _⟩ := h
  rw [decodeRequest_wordAddr c aligned (by omega) (by omega), ← Nat.add_assoc]
  exact decodeAddr_pad c h w p hp d

/-- A request for an existing pin's function-select word decodes to that pin's transaction (R68). -/
theorem decodeRequest_ctrl {c : Config} (h : c.Admitted) {p : Nat} (hp : p < c.pinCount) (w : Bool) (d : Word) :
    decodeRequest c ⟨32, w, wordAddr c.ioctrlBase (0x004 + 8 * p), d⟩ = .ok (if w then .wrCtrl p d else .rdCtrl p) := by
  have ⟨_, _, _, aligned, _, _, inside, _⟩ := h
  rw [decodeRequest_wordAddr c aligned (by omega) (by omega), ← Nat.add_assoc]
  exact decodeAddr_ctrl c h w p hp d

/-- The encoding of a transaction whose pin exists decodes to it, row by row of R71; nothing else has an encoding (R65, R76). -/
theorem decodeRequest_of_encodeRequest {c : Config} {i : Instr} {r : Request} (h : c.Admitted) (wf : i.WellFormed c = true)
    (he : encodeRequest c i = some r) : decodeRequest c r = .ok i := by
  obtain ⟨rdIn, rdOut, -, -, -, rdOe, -⟩ := decodeAddr_sio c false 0
  have writes := decodeAddr_sio c true
  cases i with
  | rdIn => cases he; exact decodeRequest_sio h (by decide) rdIn
  | rdOut => cases he; exact decodeRequest_sio h (by decide) rdOut
  | rdOe => cases he; exact decodeRequest_sio h (by decide) rdOe
  | wrOut d =>
    obtain ⟨-, out, -⟩ := writes d
    cases he; exact decodeRequest_sio h (by decide) out
  | wrOutSet d =>
    obtain ⟨-, -, outSet, -⟩ := writes d
    cases he; exact decodeRequest_sio h (by decide) outSet
  | wrOutClr d =>
    obtain ⟨-, -, -, outClr, -⟩ := writes d
    cases he; exact decodeRequest_sio h (by decide) outClr
  | wrOutXor d =>
    obtain ⟨-, -, -, -, outXor, -⟩ := writes d
    cases he; exact decodeRequest_sio h (by decide) outXor
  | wrOe d =>
    obtain ⟨-, -, -, -, -, oe, -⟩ := writes d
    cases he; exact decodeRequest_sio h (by decide) oe
  | wrOeSet d =>
    obtain ⟨-, -, -, -, -, -, oeSet, -⟩ := writes d
    cases he; exact decodeRequest_sio h (by decide) oeSet
  | wrOeClr d =>
    obtain ⟨-, -, -, -, -, -, -, oeClr, -⟩ := writes d
    cases he; exact decodeRequest_sio h (by decide) oeClr
  | wrOeXor d =>
    obtain ⟨-, -, -, -, -, -, -, -, oeXor⟩ := writes d
    cases he; exact decodeRequest_sio h (by decide) oeXor
  | rdPad p =>
    obtain ⟨hp, -⟩ := of_decide_eq_true wf
    cases he; exact decodeRequest_pad h hp _ _
  | wrPad p d =>
    obtain ⟨⟨hp, -⟩, -⟩ := of_decide_eq_true wf
    cases he; exact decodeRequest_pad h hp _ _
  | rdCtrl p =>
    obtain ⟨hp, -⟩ := of_decide_eq_true wf
    cases he; exact decodeRequest_ctrl h hp _ _
  | wrCtrl p d =>
    obtain ⟨⟨hp, -⟩, -⟩ := of_decide_eq_true wf
    cases he; exact decodeRequest_ctrl h hp _ _
  | _ => cases he

/-- Settles O2: the request decodes to the instruction, and since a request that decodes has 32 bits, its bytes give it back. -/
theorem decodeOfEncodeIsTheInstruction : Obligations.DecodeOfEncodeIsTheInstruction := by
  intro c i bytes h wf he
  obtain ⟨r, hr, rfl⟩ := Option.map_eq_some_iff.mp he
  have decodes := decodeRequest_of_encodeRequest h wf hr
  obtain ⟨width, -⟩ := decodeRequest_eq_ok decodes
  rw [decode, Request.ofBytes_toBytes width, decodes]

/-! ### From a request to the encoding of what it decodes to -/

/-- The transaction at an address, a write or a read: a read carries no data (R67). -/
def Request.transaction (w : Bool) (a d : Word) : Request := if w then writeRequest a d else readRequest a

/-- The transaction at an address has the key of that direction and address, and a write has its data (R67). -/
theorem Request.transaction_key_data (w : Bool) (a d : Word) :
    (Request.transaction w a d).key = BitVec.ofBool w ++ a ∧ (w = true → (Request.transaction w a d).data = d) := by
  cases w with
  | false => exact ⟨rfl, fun h => nomatch h⟩
  | true => exact ⟨rfl, fun _ => rfl⟩

/-- Each register of the SIO group is encoded at its own offset in its own direction (R48, R71). -/
theorem encodeRequest_of_mem_sioRows (c : Config) {d : Word} {w : Bool} {row : Nat × Option Instr × Option Instr} {i : Instr}
    (hrow : row ∈ sioRows d) (hi : (if w then row.2.2 else row.2.1) = some i) :
    encodeRequest c i = some (Request.transaction w (wordAddr c.sioBase row.1) d) := by
  have all : ∀ row ∈ sioRows d, (∀ i ∈ row.2.1, encodeRequest c i = some (readRequest (wordAddr c.sioBase row.1))) ∧
      (∀ i ∈ row.2.2, encodeRequest c i = some (writeRequest (wordAddr c.sioBase row.1) d)) := by
    simp [sioRows, encodeRequest]
  cases w with
  | false => exact (all row hrow).1 i hi
  | true => exact (all row hrow).2 i hi

/-- A request that decodes is, but for the data of a read, the encoding of its operation (R67, R71). The alignment of the request and of
the pad window is what leaves a pad word one address. -/
theorem encodeRequest_of_decodeRequest {c : Config} {r : Request} {i : Instr} (padsAligned : c.padsBase.toNat % 4 = 0)
    (h : decodeRequest c r = .ok i) : encodeRequest c i = some (Request.transaction r.write r.addr r.data) := by
  obtain ⟨-, aligned, h⟩ := decodeRequest_eq_ok h
  rcases decodeAddr_cases h with ⟨row, hrow, ha, hi⟩ | ⟨p, -, lower, upper, rfl⟩ | ⟨p, -, ha, rfl⟩
  · rw [eq_wordAddr ha]
    exact encodeRequest_of_mem_sioRows c hrow hi
  · rw [eq_wordAddr (a := r.addr) (base := c.padsBase) (o := 0x004 + 4 * p) (by omega)]
    cases r.write <;> rfl
  · rw [eq_wordAddr (a := r.addr) (base := c.ioctrlBase) (o := 0x004 + 8 * p) (by omega)]
    cases r.write <;> rfl

/-- Settles O3: the encoding is the transaction at the request's own address, so it has the request's key and a write's data. -/
theorem requestIsTheEncodingOfItsInstruction : Obligations.RequestIsTheEncodingOfItsInstruction := by
  rintro c r i ⟨-, -, padsAligned, -⟩ h
  exact ⟨_, encodeRequest_of_decodeRequest padsAligned h, Request.transaction_key_data r.write r.addr r.data⟩

/-! ### Words of the table -/

/-- Settles O1: the default bases are numerals, so each word decodes by evaluation. -/
theorem wordsOfTheTableDecode : Obligations.WordsOfTheTableDecode := by
  unfold Obligations.WordsOfTheTableDecode
  decide

end Sys2Proof
end

