-- ==== Sys2Proof/Proofs/RegisterAccess.lean ====
section
/-! SUPPORT. The fifteen register transactions (R77 to R91): what each answers, and what it leaves unchanged. -/

namespace Sys2Proof.Machine

/-! ### `IN`, `OUT` and `OE` -/

/-- Settles O12: the response is `IN`, and `IN` bit by bit is R33's. -/
theorem rdInSamplesEveryPin : Obligations.RdInSamplesEveryPin := by
  intro s
  refine ⟨s.readIn, rfl, fun p hp => ?_, rfl⟩
  rw [readIn_eq, getLsbD_inWord, State.inBitAt]
  simp [hasPin, hp, Bool.and_assoc]

/-- Settles O14: the response is the register as read, which has no bit of an absent pin. -/
theorem rdOutAndRdOeReadTheRegister : Obligations.RdOutAndRdOeReadTheRegister :=
  fun s => ⟨rfl, rfl, fun p absent => ⟨outWord_hardwired s p absent, oeWord_hardwired s p absent⟩⟩

/-- Settles O15: each write is its update of `OUT`, whose value is the accessor's law. -/
theorem outWritesGiveTheNewLevels : Obligations.OutWritesGiveTheNewLevels :=
  fun s d => ⟨⟨s.setOut d, rfl, outWord_setOut s d, rfl⟩, ⟨s.outSet d, rfl, outWord_outSet s d, rfl⟩,
    ⟨s.outClr d, rfl, outWord_outClr s d, rfl⟩, ⟨s.outXor d, rfl, outWord_outXor s d, rfl⟩⟩

/-- Settles O16: each write is its update of `OE`, whose value is the accessor's law. -/
theorem oeWritesGiveTheNewEnables : Obligations.OeWritesGiveTheNewEnables :=
  fun s d => ⟨⟨s.setOe d, rfl, oeWord_setOe s d, rfl⟩, ⟨s.oeSet d, rfl, oeWord_oeSet s d, rfl⟩,
    ⟨s.oeClr d, rfl, oeWord_oeClr s d, rfl⟩, ⟨s.oeXor d, rfl, oeWord_oeXor s d, rfl⟩⟩

/-! ### `PAD[p]` and `CTRL[p]` -/

/-- A word has no bit outside the lowest `n` exactly when nothing is left of it after a shift by `n`: a transaction looks at the
reserved bits by a mask, the rules by the shift (R89, R91). -/
theorem and_not_maskWord_eq_zero_iff (w : Word) (n : Nat) : w &&& ~~~maskWord 0 n = 0 ↔ w >>> n = 0 := by
  rw [and_not_eq_zero_iff_bits, eq_zero_iff_bits]
  constructor
  · intro low i
    by_contra bitSet
    have outside := low (n + i) (by simpa using bitSet)
    simp at outside
  · intro shifted i hi
    have inRange : i < 32 := BitVec.lt_of_getLsbD hi
    suffices i < n by simp [inRange, this]
    by_contra high
    have clear := shifted (i - n)
    rw [BitVec.getLsbD_ushiftRight, Nat.add_sub_of_le (Nat.le_of_not_lt high), hi] at clear
    cases clear

/-- A pad word's reserved bits are those a shift by 8 leaves (R34). -/
theorem and_not_padFields_eq_zero_iff (w : Word) : w &&& ~~~padFields = 0 ↔ w >>> 8 = 0 :=
  and_not_maskWord_eq_zero_iff w 8

/-- A function-select word's reserved bits are those a shift by 5 leaves (R36). -/
theorem and_not_ctrlFields_eq_zero_iff (w : Word) : w &&& ~~~ctrlFields = 0 ↔ w >>> 5 = 0 :=
  and_not_maskWord_eq_zero_iff w 5

/-- A word with no bit outside a mask is all let through by it. -/
theorem and_eq_self_of_and_not_eq_zero {w m : Word} (h : w &&& ~~~m = 0) : w &&& m = w := by
  apply word_ext
  intro i _
  rw [BitVec.getLsbD_and, Bool.and_eq_left_iff_imp]
  exact (and_not_eq_zero_iff_bits w m).mp h i

/-- A write of a pad word without reserved bits is what the pin's pad word then reads, and no other pin's changes (R34, R89). -/
theorem padWord_setPad_of_fields (s : State) {p : Nat} (hp : p < 32) {d : Word} (hd : d &&& ~~~padFields = 0) :
    (s.setPad p d).padWord p = d ∧ ∀ q, q ≠ p → (s.setPad p d).padWord q = s.padWord q := by
  refine ⟨?_, fun q hq => ?_⟩
  · rw [padWord_setPad, if_pos ⟨rfl, hp⟩, and_eq_self_of_and_not_eq_zero hd]
  · rw [padWord_setPad, if_neg fun e => hq e.1.symm]

/-- A write of a function-select word without reserved bits is what the pin's then reads, and no other pin's changes (R36, R91). -/
theorem ctrlWord_setCtrl_of_fields (s : State) {p : Nat} (hp : p < 32) {d : Word} (hd : d &&& ~~~ctrlFields = 0) :
    (s.setCtrl p d).ctrlWord p = d ∧ ∀ q, q ≠ p → (s.setCtrl p d).ctrlWord q = s.ctrlWord q := by
  refine ⟨?_, fun q hq => ?_⟩
  · rw [ctrlWord_setCtrl, if_pos ⟨rfl, hp⟩, and_eq_self_of_and_not_eq_zero hd]
  · rw [ctrlWord_setCtrl, if_neg fun e => hq e.1.symm]

/-- Settles O18: the pin exists, so the reserved bits alone decide whether the write is done. -/
theorem padTransactionsReadAndWrite : Obligations.PadTransactionsReadAndWrite := by
  intro s p d ok
  have present : hasPin s.cfg p = true := (hasPin_iff s.cfg p).mpr ok
  simp only [ne_eq, ← and_not_padFields_eq_zero_iff]
  refine ⟨if_pos present, padWord_fields s p, fun fields => ?_, fun reserved => ?_⟩
  · obtain ⟨new, others⟩ := padWord_setPad_of_fields s ok.2 fields
    exact ⟨s.setPad p d, (if_pos present).trans (if_pos fields), new, others, rfl⟩
  · exact (if_pos present).trans (if_neg reserved)

/-- Settles O19: the pin exists, so the reserved bits alone decide whether the write is done. -/
theorem ctrlTransactionsReadAndWrite : Obligations.CtrlTransactionsReadAndWrite := by
  intro s p d ok
  have present : hasPin s.cfg p = true := (hasPin_iff s.cfg p).mpr ok
  simp only [ne_eq, ← and_not_ctrlFields_eq_zero_iff]
  refine ⟨if_pos present, ctrlWord_fields s p, fun fields => ?_, fun reserved => ?_⟩
  · obtain ⟨new, others⟩ := ctrlWord_setCtrl_of_fields s ok.2 fields
    exact ⟨s.setCtrl p d, (if_pos present).trans (if_pos fields), new, others, rfl⟩
  · exact (if_pos present).trans (if_neg reserved)

end Sys2Proof.Machine
end

section
/-! SUPPORT. The Pin Bank's operations and `mask` (R92 to R105): what each answers at once, and what an operation of several transactions
comes to over the turns it takes, whatever the Host does between them (R22, R76). -/

namespace Sys2Proof.Machine

/-! ### Lanes -/

/-- Two states agree in lane `p` of the registers a masked write reads (R93). -/
structure SameLane (p : Nat) (s s' : State) : Prop where
  cfg : s.cfg = s'.cfg
  out : s.outWord.getLsbD p = s'.outWord.getLsbD p
  oe : s.oeWord.getLsbD p = s'.oeWord.getLsbD p

/-- What a write of agreeing words leaves in the lane of `OUT` and `OE` agrees (R93). -/
theorem SameLane.setOut {p : Nat} {s s' : State} (same : SameLane p s s') {v v' : Word} (agree : v.getLsbD p = v'.getLsbD p) :
    (s.setOut v).outWord.getLsbD p = (s'.setOut v').outWord.getLsbD p ∧
    (s.setOut v).oeWord.getLsbD p = (s'.setOut v').oeWord.getLsbD p := by
  refine ⟨?_, same.oe⟩
  rw [outWord_setOut, outWord_setOut, BitVec.getLsbD_and, BitVec.getLsbD_and, agree, same.cfg]

theorem SameLane.setOe {p : Nat} {s s' : State} (same : SameLane p s s') {v v' : Word} (agree : v.getLsbD p = v'.getLsbD p) :
    (s.setOe v).outWord.getLsbD p = (s'.setOe v').outWord.getLsbD p ∧
    (s.setOe v).oeWord.getLsbD p = (s'.setOe v').oeWord.getLsbD p := by
  refine ⟨same.out, ?_⟩
  rw [oeWord_setOe, oeWord_setOe, BitVec.getLsbD_and, BitVec.getLsbD_and, agree, same.cfg]

/-- Settles O17: each of the eight writes `OUT` or `OE` with a word whose lane `p` comes from lane `p` of the operand and the register. -/
theorem lanesAreIndependent : Obligations.LanesAreIndependent := by
  intro s s' d d' p cfg operand out oe
  have same : SameLane p s s' := ⟨cfg, out, oe⟩
  simp only [List.forall_mem_cons]
  refine ⟨⟨_, _, rfl, rfl, same.setOut operand⟩, ⟨_, _, rfl, rfl, same.setOut ?_⟩, ⟨_, _, rfl, rfl, same.setOut ?_⟩,
    ⟨_, _, rfl, rfl, same.setOut ?_⟩, ⟨_, _, rfl, rfl, same.setOe operand⟩, ⟨_, _, rfl, rfl, same.setOe ?_⟩,
    ⟨_, _, rfl, rfl, same.setOe ?_⟩, ⟨_, _, rfl, rfl, same.setOe ?_⟩, nofun⟩ <;>
  simp [operand, out, oe]

/-! ### `mask(s, n)` -/

/-- How many of the first `k` numbers lie in a range. -/
theorem countP_range_between (a b k : Nat) :
    (List.range k).countP (fun i => decide (a ≤ i) && decide (i < b)) = min k b - a := by
  induction k with
  | zero => simp
  | succ k ih =>
    rw [List.range_succ, List.countP_append, ih, List.countP_singleton]
    split <;> simp only [Bool.and_eq_true, decide_eq_true_eq] at * <;> omega

/-- `mask(s, n)` has `n` bits (R92). -/
theorem popcount_maskWord {a n : Nat} (h : a + n ≤ 32) : popcount (maskWord a n) = n := by
  have bits : ∀ i ∈ List.range 32, (maskWord a n).getLsbD i = true ↔ (decide (a ≤ i) && decide (i < a + n)) = true := by
    intro i hi
    rw [getLsbD_maskWord, decide_eq_true (List.mem_range.mp hi), Bool.true_and]
  rw [popcount, List.countP_congr bits, countP_range_between]
  omega

/-- Settles O22: the answer is the word of the range, where there is one. -/
theorem maskIsTheContiguousRange : Obligations.MaskIsTheContiguousRange := by
  refine fun s a n => ⟨fun fits => ⟨maskWord a n, ?_, fun i hi => ?_, popcount_maskWord fits⟩, fun tooFar => ?_⟩
  · simp only [exec, execMask, maskOf, if_pos fits, State.answer]
  · rw [getLsbD_maskWord, decide_eq_true hi, Bool.true_and, Bool.and_eq_true, decide_eq_true_iff, decide_eq_true_iff]
  · simp only [exec, execMask, maskOf, if_neg (Nat.not_le.mpr tooFar)]

/-! ### The precondition of an operation (R94) -/

/-- A mask of existing pins passes the operations' check (R94). -/
theorem hasPins_of_maskOk {c : Config} {m : Word} (h : c.MaskOk m) : hasPins c m = true := by
  rw [hasPins_iff]
  intro i _ bit
  by_contra absent
  have clear := Nat.testBit_lt_two_pow (lt_of_lt_of_le h (Nat.pow_le_pow_right two_pos (Nat.not_lt.mp absent)))
  rw [BitVec.testBit_toNat, bit] at clear
  cases clear

/-- A mask with the bit of an absent pin does not (R94). -/
theorem hasPins_of_absent {c : Config} {m : Word} {i : Nat} (absent : c.pinCount ≤ i) (bit : m.getLsbD i = true) :
    ¬ hasPins c m = true := fun ok =>
  absurd ((hasPins_iff c m).mp ok i (BitVec.lt_of_getLsbD bit) bit) (Nat.not_lt.mpr absent)

/-- Dropping the bits of absent pins does nothing to a mask of existing ones (R31, R94). -/
theorem and_validMask_of_hasPins {c : Config} {m : Word} (h : hasPins c m = true) : m &&& validMask c = m :=
  and_eq_self_of_and_not_eq_zero (beq_iff_eq.mp h)

/-- Settles O23: each operation asks first whether its pins exist. -/
theorem operationsRefuseOutsideTheirPrecondition : Obligations.OperationsRefuseOutsideTheirPrecondition := by
  refine fun s p f m v => ⟨fun past => ?_, fun ⟨i, past, bit⟩ => ?_⟩
  · have absent : ¬ hasPin s.cfg p = true := Bool.eq_false_iff.mp (hasPin_of_le past)
    exact ⟨if_neg absent, if_neg (by simp [hasPin_of_le past]), if_neg absent, if_neg absent⟩
  · have absent := hasPins_of_absent past bit
    exact ⟨if_neg absent, if_neg absent, if_neg absent, if_neg absent, if_neg absent, if_neg absent⟩

/-! ### Operations of one transaction -/

/-- `OUT` after setting the levels of existing pins (R98). -/
theorem outWord_outSet_of_hasPins {s : State} {m : Word} (h : hasPins s.cfg m = true) : (s.outSet m).outWord = s.outWord ||| m := by
  rw [outWord_outSet, BitVec.and_or_distrib_right, outWord_and_valid, and_validMask_of_hasPins h]

/-- `OE` after enabling the drivers of existing pins (R102). -/
theorem oeWord_oeSet_of_hasPins {s : State} {m : Word} (h : hasPins s.cfg m = true) : (s.oeSet m).oeWord = s.oeWord ||| m := by
  rw [oeWord_oeSet, BitVec.and_or_distrib_right, oeWord_and_valid, and_validMask_of_hasPins h]

/-- Settles O24: each is its one write of `OUT`. -/
theorem setAndClearForceTheLevels : Obligations.SetAndClearForceTheLevels := by
  intro s m ok
  have present := hasPins_of_maskOk ok
  exact ⟨⟨s.outSet m, if_pos present, outWord_outSet_of_hasPins present, rfl⟩,
    ⟨s.outClr m, if_pos present, outWord_outClr s m, rfl⟩⟩

/-- Settles O25: each is its one write of `OE`, which with the routing decides whether a pin drives (R39). -/
theorem directionOperationsDriveAndRelease : Obligations.DirectionOperationsDriveAndRelease := by
  intro s m ok
  have present := hasPins_of_maskOk ok
  have enables := oeWord_oeSet_of_hasPins present
  refine ⟨⟨s.oeSet m, if_pos present, enables, rfl, fun n p bit sio od => ⟨?_, drivenValueAt_of_sio (s := s.oeSet m) n sio⟩⟩,
    ⟨s.oeClr m, if_pos present, oeWord_oeClr s m, rfl, fun n p bit routed => ?_⟩⟩
  · refine (drivesAt_of_sio (s := s.oeSet m) n sio).mpr ⟨?_, od⟩
    rw [enables, BitVec.getLsbD_or, bit, Bool.or_true]
  · by_cases sio : funcsel (s.ctrlWord p) = s.cfg.fSio
    · exact drivesAt_of_oe (s.oeClr m) n p sio (by simp [bit])
    · exact drivesAt_of_null (s := s.oeClr m) n sio (routed.resolve_left sio)

/-- Settles O29: a function number has no reserved bit, so that the write is done and reads back. -/
theorem routeToPeripheralRebindsThePin : Obligations.RouteToPeripheralRebindsThePin := by
  intro s p f ok
  have present : hasPin s.cfg p = true := (hasPin_iff s.cfg p).mpr ok
  refine ⟨fun small notSio => ?_, fun bad => if_neg ?_⟩
  · obtain ⟨g, rfl⟩ : ∃ g : BitVec 5, f = g.toNat := ⟨BitVec.ofNat 5 f, by rw [BitVec.toNat_ofNat]; omega⟩
    have fields : g.zeroExtend 32 &&& ~~~ctrlFields = 0 := by
      rw [← zeroExtend_and_ctrlFields, and_and_not_self]
    obtain ⟨new, others⟩ := ctrlWord_setCtrl_of_fields s ok.2 fields
    have word : BitVec.ofNat 32 g.toNat = g.zeroExtend 32 := BitVec.ofNat_toNat 32 g
    refine ⟨s.setCtrl p (g.zeroExtend 32), ?_, ?_, ?_, ?_, others, rfl⟩
    · simp only [exec, execRouteToPeripheral, writeCtrl, word, fields, present, small, notSio, ne_eq, not_false_eq_true,
        decide_true, Bool.and_self, if_true]
    · rw [new, word]
    · rw [new, funcsel_zeroExtend]
    · rw [new, ← and_not_ctrlFields_eq_zero_iff, fields]
  · rcases bad with large | rfl
    · simp [Nat.not_le.mpr large]
    · simp

/-- Settles O35: the sample of `get` and of `get_masked` is the response's, restricted to the operand. -/
theorem getAndGetMaskedSampleOnce : Obligations.GetAndGetMaskedSampleOnce := by
  refine fun s p m => ⟨fun ok => ?_, fun ok => ?_⟩
  · refine ⟨_, if_pos ((hasPin_iff s.cfg p).mpr ok), rfl, ?_, rfl⟩
    exact congrArg OpValue.bool (getLsbD_inWord s p).symm
  · exact ⟨_, if_pos (hasPins_of_maskOk ok), rfl, congrArg OpValue.word (sampleIn_eq s m), rfl⟩

/-! ### The first transaction of the others -/

/-- Settles O26: the operation's first transaction, with the rest of its expansion waiting. -/
theorem configureIssuesItsFirstTransaction : Obligations.ConfigureIssuesItsFirstTransaction := fun s p ok =>
  ⟨_, if_pos ((hasPin_iff s.cfg p).mpr ok), oeWord_oeClr s (bitWord p), rfl, rfl⟩

/-- Settles O30: the operation's read, with its write waiting. -/
theorem enablePulldownReadsThePadFirst : Obligations.EnablePulldownReadsThePadFirst := fun s p ok =>
  if_pos ((hasPin_iff s.cfg p).mpr ok)

/-- Settles O32: the operation's read, with its toggle waiting. -/
theorem putMaskedReadsTheLevelsFirst : Obligations.PutMaskedReadsTheLevelsFirst := fun _ m v ok =>
  ⟨.and (.xor .response (.const v)) (.const m), if_pos (hasPins_of_maskOk ok), fun _ _ _ _ => rfl⟩

/-! ### Turns of the bus master among turns of the Host -/

/-- What other agents' turns and the ends of steps change, the schedule among it: none of it bears on what an operation writes (R22,
R41, R139). -/
structure Surroundings where
  ext : Vector Ext 32
  events : List Event
  draws : Nat
  schedule : List Turn

/-- The machine `s` amid other surroundings. -/
def State.amid (s : State) (w : Surroundings) : State :=
  { s with ext := w.ext, events := w.events, draws := w.draws, schedule := w.schedule }

@[simp] theorem cfg_amid (s : State) (w : Surroundings) : (s.amid w).cfg = s.cfg := rfl
@[simp] theorem outWord_amid (s : State) (w : Surroundings) : (s.amid w).outWord = s.outWord := rfl
@[simp] theorem oeWord_amid (s : State) (w : Surroundings) : (s.amid w).oeWord = s.oeWord := rfl
@[simp] theorem padWord_amid (s : State) (w : Surroundings) (p : Nat) : (s.amid w).padWord p = s.padWord p := rfl
@[simp] theorem ctrlWord_amid (s : State) (w : Surroundings) (p : Nat) : (s.amid w).ctrlWord p = s.ctrlWord p := rfl

/-- An instruction makes `t` of `s`, whatever surrounds them. -/
def Does (i : Instr) (s t : State) : Prop := ∀ w, exec i (s.amid w) = .next (t.amid w)

/-- The bus master's turn makes `t` of `s`, whatever surrounds them; the end of the step may change the records and the evaluation, not
the schedule (R41). -/
structure Advances (s t : State) : Prop where
  cfg : t.cfg = s.cfg
  turn : s.cfg.Admitted → ∀ w, ∃ w', w'.schedule = w.schedule ∧ masterTurn (s.amid w) = .next (t.amid w')

/-- Turns of the bus master one after another. -/
inductive AdvancesIn : Nat → State → State → Prop where
  | done (s : State) : AdvancesIn 0 s s
  | turn {k : Nat} {s u t : State} : Advances s u → AdvancesIn k u t → AdvancesIn (k + 1) s t

theorem Advances.once {s t : State} (h : Advances s t) : AdvancesIn 1 s t := .turn h (.done t)

theorem AdvancesIn.trans {j k : Nat} {s u t : State} (first : AdvancesIn j s u) (second : AdvancesIn k u t) :
    AdvancesIn (k + j) s t := by
  induction first with
  | done => exact second
  | turn advance _ ih => exact .turn advance (ih second)

theorem AdvancesIn.cfg {k : Nat} {s t : State} (h : AdvancesIn k s t) : t.cfg = s.cfg := by
  induction h with
  | done => rfl
  | turn advance _ ih => exact ih.trans advance.cfg

/-- A schedule whose first `n` turns, no power-on among them, hold `k` of the bus master and leave `later`; a schedule that is used up
gives every turn to the bus master (log 9). -/
inductive Turns : List Turn → Nat → Nat → List Turn → Prop where
  | done (later : List Turn) : Turns later 0 0 later
  | idle {n k : Nat} : Turns [] n k [] → Turns [] (n + 1) (k + 1) []
  | master {ts later : List Turn} {n k : Nat} : Turns ts n k later → Turns (.master :: ts) (n + 1) (k + 1) later
  | host {ts later : List Turn} {n k : Nat} (sets : List (Nat × Ext)) : Turns ts n k later → Turns (.host sets :: ts) (n + 1) k later

theorem masterTurns_master (ts : List Turn) : masterTurns (.master :: ts) = masterTurns ts + 1 := List.countP_cons_of_pos rfl

theorem masterTurns_host (sets : List (Nat × Ext)) (ts : List Turn) : masterTurns (.host sets :: ts) = masterTurns ts :=
  List.countP_cons_of_neg (by simp)

/-- Turns listed ahead, no power-on among them. -/
theorem Turns.of_append {ts : List Turn} (later : List Turn) (noReset : ∀ x ∈ ts, Turn.Spares [] x) :
    Turns (ts ++ later) ts.length (masterTurns ts) later := by
  induction ts with
  | nil => exact .done later
  | cons x ts ih =>
    obtain ⟨here, rest⟩ := List.forall_mem_cons.mp noReset
    cases x with
    | master => exact masterTurns_master ts ▸ .master (ih rest)
    | host sets => exact masterTurns_host sets ts ▸ .host sets (ih rest)
    | powerOn => exact here.elim

theorem Turns.used_up (k : Nat) : Turns [] k k [] := by
  induction k with
  | zero => exact .done []
  | succ k ih => exact .idle ih

/-- A step at the bus master's turn is that turn, scheduled or not. -/
theorem Advances.step {s t : State} (advance : Advances s t) (ha : s.cfg.Admitted) {w : Surroundings} {rest : List Turn}
    (next : w.schedule = .master :: rest ∨ (w.schedule = [] ∧ rest = [])) :
    ∃ w', w'.schedule = rest ∧ step (s.amid w) = .next (t.amid w') := by
  obtain ⟨w', same, turn⟩ := advance.turn ha { w with schedule := rest }
  refine ⟨w', same, ?_⟩
  rw [← turn]
  obtain ⟨ext, events, draws, schedule⟩ := w
  rcases next with rfl | ⟨rfl, rfl⟩ <;> exact if_pos ha

/-- A step at the Host's turn changes the surroundings alone (R139). -/
theorem step_host_amid {s : State} (ha : s.cfg.Admitted) {w : Surroundings} {sets : List (Nat × Ext)} {rest : List Turn}
    (next : w.schedule = .host sets :: rest) : ∃ w', w'.schedule = rest ∧ step (s.amid w) = .next (s.amid w') := by
  obtain ⟨ext, events, draws, schedule⟩ := w
  obtain rfl : schedule = .host sets :: rest := next
  let after := settle (hostSet sets (s.amid ⟨ext, events, draws, rest⟩))
  exact ⟨⟨after.ext, after.events, after.draws, rest⟩, rfl, if_pos ha⟩

/-- What the bus master's turns come to does not depend on the Host's turns among them (R22). -/
theorem AdvancesIn.run {ts later : List Turn} {n k : Nat} (turns : Turns ts n k later) {s t : State} (advances : AdvancesIn k s t)
    (ha : s.cfg.Admitted) {w : Surroundings} (hw : w.schedule = ts) :
    ∃ w', w'.schedule = later ∧ runSteps n (s.amid w) = .next (t.amid w') := by
  induction turns generalizing s w with
  | done later => cases advances; exact ⟨w, hw, rfl⟩
  | idle _ ih =>
    obtain _ | ⟨advance, others⟩ := advances
    obtain ⟨w', hw', first⟩ := advance.step ha (.inr ⟨hw, rfl⟩)
    obtain ⟨w'', hw'', run⟩ := ih others (advance.cfg ▸ ha) hw'
    exact ⟨w'', hw'', by rw [runSteps, first]; exact run⟩
  | master _ ih =>
    obtain _ | ⟨advance, others⟩ := advances
    obtain ⟨w', hw', first⟩ := advance.step ha (.inl hw)
    obtain ⟨w'', hw'', run⟩ := ih others (advance.cfg ▸ ha) hw'
    exact ⟨w'', hw'', by rw [runSteps, first]; exact run⟩
  | host sets _ ih =>
    obtain ⟨w', hw', first⟩ := step_host_amid ha hw
    obtain ⟨w'', hw'', run⟩ := ih advances ha hw'
    exact ⟨w'', hw'', by rw [runSteps, first]; exact run⟩

/-- A loaded machine run over turns that hold all of what it advances by: the advance, and what is left of its list. -/
theorem Loaded.run {s t : State} {lines rest : List Item} {ts later : List Turn} {n k : Nat} (loaded : Loaded s lines ts later)
    (turns : Turns (ts ++ later) n k later) (advances : AdvancesIn k s t) (idle : t.pending = [])
    (master : t.master = .testMaster rest := by rfl) :
    ∃ w, runSteps n s = .next (t.amid w) ∧ Loaded (t.amid w) rest [] later := by
  obtain ⟨w, hw, run⟩ := advances.run turns loaded.admitted (w := ⟨s.ext, s.events, s.draws, s.schedule⟩) loaded.schedule
  exact ⟨w, run, by rw [cfg_amid, advances.cfg]; exact loaded.admitted, idle, master, hw, nofun⟩

/-! ### The turns of an operation -/

/-- The run of an instruction that is a step, whatever surrounds it (R41). -/
theorem Does.run {i : Instr} {s t : State} (does : Does i s t) (step : takesStep i = true) (w : Surroundings) :
    ∃ w', w'.schedule = w.schedule ∧ runInstr i (s.amid w) = .next (t.amid w') := by
  let after := settle (t.amid w)
  refine ⟨⟨after.ext, after.events, after.draws, w.schedule⟩, rfl, ?_⟩
  rw [runInstr_of_takesStep step, does w]
  rfl

theorem Does.cfg {i : Instr} {s t : State} (does : Does i s t) : t.cfg = s.cfg :=
  (exec_outside (does ⟨s.ext, s.events, s.draws, s.schedule⟩)).cfg

/-- The machine with other lines left to its Test Master (R24). -/
def State.withLines (s : State) (lines : List Item) : State := { s with master := .testMaster lines }

@[simp] theorem outWord_withLines (s : State) (l : List Item) : (s.withLines l).outWord = s.outWord := rfl
@[simp] theorem oeWord_withLines (s : State) (l : List Item) : (s.withLines l).oeWord = s.oeWord := rfl
@[simp] theorem padWord_withLines (s : State) (l : List Item) (p : Nat) : (s.withLines l).padWord p = s.padWord p := rfl
@[simp] theorem ctrlWord_withLines (s : State) (l : List Item) (p : Nat) : (s.withLines l).ctrlWord p = s.ctrlWord p := rfl
@[simp] theorem cfg_withLines (s : State) (l : List Item) : (s.withLines l).cfg = s.cfg := rfl

/-- The Test Master's turn at an operation: what the operation's instruction does, with the line used up (R24, R76). -/
theorem Advances.of_line {s t : State} {i : Instr} {lines : List Item} (idle : s.pending = [])
    (master : s.master = .testMaster (.op none i :: lines)) (op : isOperation i = true) (step : takesStep i = true)
    (does : Does i (s.withLines lines) t) : Advances s t := by
  refine ⟨does.cfg, fun _ w => ?_⟩
  obtain ⟨w', same, run⟩ := does.run step w
  refine ⟨w', same, ?_⟩
  have line : masterTurn (s.amid w) = runItem (.op none i) ((s.withLines lines).amid w) := by
    simp only [masterTurn, State.amid, State.withLines, idle, master]
  rw [line, runItem, if_pos op]
  exact andThen_next.mpr ⟨_, run, rfl⟩

/-- A line that writes a value is the write of that value (R75). -/
theorem runItem_write_of_value {s : State} {reg : Reg} {e : Expr} {d : Word}
    (value : evalExpr s.draws s.names s.response 1 e = .ok d) : runItem (.write reg e) s = issue true reg d s := by
  simp only [runItem, value]

/-- The bus master's turn when a write waits (R76): what the write's transaction does, for an operand whose value the last response
alone decides. -/
theorem Advances.of_queued {s t : State} {reg : Reg} {e : Expr} {rest : List Item} {d : Word} {i : Instr}
    (value : ∀ n env, evalExpr n env s.response 1 e = .ok d)
    (issued : ∀ x : State, x.cfg = s.cfg → x.cfg.Admitted → issue true reg d x = runInstr i x) (step : takesStep i = true)
    (does : Does i (s.queue rest) t) : Advances (s.queue (.write reg e :: rest)) t := by
  refine ⟨does.cfg, fun ha w => ?_⟩
  obtain ⟨w', same, run⟩ := does.run step w
  refine ⟨w', same, ?_⟩
  have waiting : masterTurn ((s.queue (.write reg e :: rest)).amid w) = runItem (.write reg e) ((s.queue rest).amid w) := rfl
  have operand : runItem (.write reg e) ((s.queue rest).amid w) = issue true reg d ((s.queue rest).amid w) :=
    runItem_write_of_value (value w.draws s.names)
  rw [waiting, operand, issued ((s.queue rest).amid w) rfl ha, run]

/-- A pin an admitted machine has is one the operations take (R10, R94). -/
theorem Loaded.pinOk {s : State} {lines : List Item} {ts later : List Turn} (loaded : Loaded s lines ts later) {p : Nat}
    (hp : p < s.cfg.pinCount) : s.cfg.PinOk p := by
  obtain ⟨⟨-, pins, -⟩, -⟩ := loaded.admitted
  exact ⟨hp, lt_of_lt_of_le hp pins⟩

/-! ### `configure` (R95) -/

/-- The state when `configure p` is done: its four writes, in order. -/
def State.configured (s : State) (p : Nat) : State :=
  (((s.oeClr (bitWord p)).outClr (bitWord p)).setPad p padConfigured).setCtrl p (ctrlSio s.cfg)

@[simp] theorem cfg_configured (s : State) (p : Nat) : (s.configured p).cfg = s.cfg := rfl

@[simp] theorem oeWord_configured (s : State) (p : Nat) : (s.configured p).oeWord = s.oeWord &&& ~~~bitWord p :=
  oeWord_oeClr s (bitWord p)

@[simp] theorem outWord_configured (s : State) (p : Nat) : (s.configured p).outWord = s.outWord &&& ~~~bitWord p :=
  outWord_outClr (s.oeClr (bitWord p)) (bitWord p)

theorem padWord_configured (s : State) {p : Nat} (hp : p < 32) (q : Nat) :
    (s.configured p).padWord q = if q = p then padConfigured else s.padWord q := by
  obtain ⟨new, others⟩ := padWord_setPad_of_fields ((s.oeClr (bitWord p)).outClr (bitWord p)) hp padConfigured_fields
  split
  · subst q; exact new
  · exact others q ‹_›

theorem ctrlWord_configured (s : State) {p : Nat} (hp : p < 32) (q : Nat) :
    (s.configured p).ctrlWord q = if q = p then ctrlSio s.cfg else s.ctrlWord q := by
  obtain ⟨new, others⟩ := ctrlWord_setCtrl_of_fields (((s.oeClr (bitWord p)).outClr (bitWord p)).setPad p padConfigured) hp
    (ctrlSio_fields s.cfg)
  split
  · subst q; exact new
  · exact others q ‹_›

/-- Four turns of a Test Master run `configure p`. -/
theorem configure_advances {s : State} {p : Nat} {lines : List Item} (idle : s.pending = [])
    (master : s.master = .testMaster (.op none (.configure p) :: lines)) (present : hasPin s.cfg p = true) :
    AdvancesIn 4 s ((s.withLines lines).configured p) := by
  let stopped := (s.withLines lines).oeClr (bitWord p)
  let lowered := stopped.outClr (bitWord p)
  let padded := lowered.setPad p padConfigured
  have first : Advances s (stopped.queue (configureRest s.cfg p)) := .of_line idle master rfl rfl fun _ => if_pos present
  have second : Advances (stopped.queue (configureRest s.cfg p)) (lowered.queue (configureRest s.cfg p).tail) :=
    .of_queued (fun _ _ => rfl) (fun x _ ha => have ⟨_, _, outClr, _⟩ := issue_write x ha _; outClr) rfl fun _ => rfl
  have third : Advances (lowered.queue (configureRest s.cfg p).tail) (padded.queue (configureRest s.cfg p).tail.tail) :=
    .of_queued (fun _ _ => rfl) (fun x hx ha => issue_pad x ha true p (hx ▸ present) _) rfl fun _ =>
      (if_pos present).trans (if_pos padConfigured_fields)
  have fourth : Advances (padded.queue (configureRest s.cfg p).tail.tail) (((s.withLines lines).configured p).queue []) :=
    .of_queued (fun _ _ => rfl) (fun x hx ha => issue_ctrl x ha true p (hx ▸ present) _) rfl fun _ =>
      (if_pos present).trans (if_pos (ctrlSio_fields s.cfg))
  exact .turn first (.turn second (.turn third fourth.once))

/-- Settles O27: the four turns come to the four writes, whatever the Host's turns among them. -/
theorem configureSetsTheDefaultInputState : Obligations.ConfigureSetsTheDefaultInputState := by
  intro s p lines ts later loaded hp turns
  have ok := loaded.pinOk hp
  obtain ⟨w, run, loaded'⟩ := loaded.run (turns ▸ Turns.of_append later loaded.noReset)
    (configure_advances loaded.idle loaded.master ((hasPin_iff s.cfg p).mpr ok)) loaded.idle
  refine ⟨_, run, loaded', ?_, ?_, ?_, ?_, fun q hq => ?_, ⟨rfl, rfl, rfl, rfl, rfl, rfl, rfl, rfl, rfl⟩⟩
  · simp
  · simp
  · simp [padWord_configured, ok.2, padConfigured]
  · simp [ctrlWord_configured, ok.2, ctrlSio]
  · simp [padWord_configured, ctrlWord_configured, ok.2, hq]

/-- Settles O28: the second `configure p` clears bits that are clear and writes the words that stand there. -/
theorem configureIsIdempotent : Obligations.ConfigureIsIdempotent := by
  intro s p lines loaded hp
  have ok := loaded.pinOk hp
  have present := (hasPin_iff s.cfg p).mpr ok
  have first := configure_advances loaded.idle loaded.master present
  have second := configure_advances (s := (s.withLines _).configured p) (lines := lines) loaded.idle rfl present
  obtain ⟨w, once, -⟩ := loaded.run (.used_up 4) first loaded.idle
  obtain ⟨w', twice, -⟩ := loaded.run (.used_up 8) (first.trans second) loaded.idle
  refine ⟨_, _, once, twice, ?_, ?_, fun q => ?_, ?_⟩
  · simp [BitVec.and_assoc]
  · simp [BitVec.and_assoc]
  · by_cases hq : q = p <;> simp [padWord_configured, ctrlWord_configured, ok.2, hq]
  · simp [padWord_configured, ok.2, padConfigured]

/-! ### `enable_pulldown` (R97) -/

/-- The state when `enable_pulldown p` is done. -/
def State.pulledDown (s : State) (p : Nat) : State := (s.respond (s.padWord p)).setPad p (s.padWord p ||| padPdeBit)

/-- Enabling the pull-down sets no reserved bit (R34, R97). -/
theorem padWord_or_padPdeBit_fields (s : State) (p : Nat) : (s.padWord p ||| padPdeBit) &&& ~~~padFields = 0 := by
  have bit : padPdeBit &&& ~~~padFields = 0 := by decide
  rw [BitVec.and_or_distrib_right, padWord_fields, bit]
  rfl

/-- Two turns of a Test Master run `enable_pulldown p`. -/
theorem enablePulldown_advances {s : State} {p : Nat} {lines : List Item} (idle : s.pending = [])
    (master : s.master = .testMaster (.op none (.enablePulldown p) :: lines)) (present : hasPin s.cfg p = true) :
    AdvancesIn 2 s ((s.withLines lines).pulledDown p) := by
  let read := (s.withLines lines).respond (s.padWord p)
  have first : Advances s (read.queue [.write (.pad p) (.or .response (.const padPdeBit))]) :=
    .of_line idle master rfl rfl fun _ => if_pos present
  have second : Advances (read.queue [.write (.pad p) (.or .response (.const padPdeBit))])
      (((s.withLines lines).pulledDown p).queue []) :=
    .of_queued (fun _ _ => rfl) (fun x hx ha => issue_pad x ha true p (hx ▸ present) _) rfl fun _ =>
      (if_pos present).trans (if_pos (padWord_or_padPdeBit_fields s p))
  exact .turn first second.once

/-- Settles O31: the two turns come to the one write, whatever the Host's turns among them. -/
theorem enablePulldownSetsOneField : Obligations.EnablePulldownSetsOneField := by
  intro s p lines ts later loaded hp turns
  have ok := loaded.pinOk hp
  obtain ⟨w, run, loaded'⟩ := loaded.run (turns ▸ Turns.of_append later loaded.noReset)
    (enablePulldown_advances loaded.idle loaded.master ((hasPin_iff s.cfg p).mpr ok)) loaded.idle
  obtain ⟨new, others⟩ := padWord_setPad_of_fields ((s.withLines lines).respond (s.padWord p)) ok.2 (padWord_or_padPdeBit_fields s p)
  refine ⟨_, run, loaded', new, ?_, others, fun _ => rfl, rfl, rfl, ⟨rfl, rfl, rfl, rfl, rfl, rfl, rfl, rfl, rfl⟩⟩
  rw [show (((s.withLines lines).pulledDown p).amid w).padWord p = s.padWord p ||| padPdeBit from new, padPde, BitVec.getLsbD_or,
    show padPdeBit.getLsbD 2 = true from rfl, Bool.or_true]

/-! ### `put_masked` (R100, R101) -/

/-- The state when `put_masked m, v` is done. -/
def State.put (s : State) (m v : Word) : State := s.readOut.outXor (flips s.outWord v m)

/-- A masked update bit by bit: the new level inside the mask, the old one outside (R93, R100). -/
theorem getLsbD_maskedUpdate (o v m : Word) (i : Nat) :
    ((o &&& ~~~m) ||| (v &&& m)).getLsbD i = if m.getLsbD i then v.getLsbD i else o.getLsbD i := by
  rw [BitVec.getLsbD_or, BitVec.getLsbD_and, BitVec.getLsbD_and, BitVec.getLsbD_not]
  by_cases hi : i < 32
  · cases m.getLsbD i <;> simp only [hi, decide_true] <;> simp
  · simp [BitVec.getLsbD_of_ge _ i (Nat.not_lt.mp hi)]

/-- Toggling the bits that must flip takes over the levels of the mask (R100). -/
theorem xor_flips (o v m : Word) : o ^^^ flips o v m = (o &&& ~~~m) ||| (v &&& m) := by
  apply word_ext
  intro i _
  rw [getLsbD_maskedUpdate, flips]
  cases h : m.getLsbD i <;> simp [h]

/-- Once the levels of the mask are there, no bit must flip (R101). -/
theorem flips_maskedUpdate (o v m : Word) : flips ((o &&& ~~~m) ||| (v &&& m)) v m = 0 := by
  apply word_ext
  intro i _
  rw [flips, BitVec.getLsbD_and, BitVec.getLsbD_xor, getLsbD_maskedUpdate]
  cases m.getLsbD i <;> simp

/-- `OUT` after `put_masked` of existing pins (R100). -/
theorem outWord_put {s : State} {m : Word} (present : hasPins s.cfg m = true) (v : Word) :
    (s.put m v).outWord = (s.outWord &&& ~~~m) ||| (v &&& m) := by
  have kept : (s.put m v).outWord = (s.outWord ^^^ flips s.outWord v m) &&& validMask s.cfg :=
    outWord_outXor s.readOut (flips s.outWord v m)
  have low : s.outWord &&& ~~~m &&& validMask s.cfg = s.outWord &&& ~~~m := by
    rw [BitVec.and_assoc, BitVec.and_comm (~~~m), ← BitVec.and_assoc, outWord_and_valid]
  rw [kept, xor_flips, BitVec.and_or_distrib_right, low, BitVec.and_assoc, and_validMask_of_hasPins present]

/-- Two turns of a Test Master run `put_masked m, v`. -/
theorem putMasked_advances {s : State} {m v : Word} {lines : List Item} (idle : s.pending = [])
    (master : s.master = .testMaster (.op none (.putMasked m v) :: lines)) (present : hasPins s.cfg m = true) :
    AdvancesIn 2 s ((s.withLines lines).put m v) := by
  let read := (s.withLines lines).readOut
  have first : Advances s (read.queue [.write .outXor (.and (.xor .response (.const v)) (.const m))]) :=
    .of_line idle master rfl rfl fun _ => if_pos present
  have second : Advances (read.queue [.write .outXor (.and (.xor .response (.const v)) (.const m))])
      (((s.withLines lines).put m v).queue []) :=
    .of_queued (fun _ _ => rfl) (fun x _ ha => have ⟨_, _, _, outXor, _⟩ := issue_write x ha _; outXor) rfl fun _ => rfl
  exact .turn first second.once

/-- Settles O33: the two turns come to the one toggle, whatever the Host's turns among them. -/
theorem putMaskedUpdatesExactlyTheMask : Obligations.PutMaskedUpdatesExactlyTheMask := by
  intro s m v lines ts later loaded ok turns
  have present := hasPins_of_maskOk ok
  obtain ⟨w, run, loaded'⟩ := loaded.run (turns ▸ Turns.of_append later loaded.noReset)
    (putMasked_advances loaded.idle loaded.master present) loaded.idle
  exact ⟨_, run, loaded', outWord_put (s := s.withLines lines) present v, rfl, fun _ => ⟨rfl, rfl⟩,
    ⟨rfl, rfl, rfl, rfl, rfl, rfl, rfl, rfl, rfl⟩⟩

/-- Four turns of a loaded Test Master run two `put_masked` one after the other. -/
theorem Loaded.putMasked_twice {s : State} {m₁ m₂ a b : Word} {lines : List Item}
    (loaded : Loaded s (.op none (.putMasked m₁ a) :: .op none (.putMasked m₂ b) :: lines) [] [])
    (first : hasPins s.cfg m₁ = true) (second : hasPins s.cfg m₂ = true) :
    ∃ t u, runSteps 2 s = .next t ∧ runSteps 4 s = .next u ∧ t.outWord = (s.outWord &&& ~~~m₁) ||| (a &&& m₁) ∧
      u.outWord = (t.outWord &&& ~~~m₂) ||| (b &&& m₂) := by
  have one := putMasked_advances loaded.idle loaded.master first
  have two := putMasked_advances (s := (s.withLines _).put m₁ a) (v := b) (lines := lines) loaded.idle rfl second
  obtain ⟨w, once, -⟩ := loaded.run (.used_up 2) one loaded.idle
  obtain ⟨w', twice, -⟩ := loaded.run (.used_up 4) (one.trans two) loaded.idle
  refine ⟨_, _, once, twice, ?_, ?_⟩
  · rw [outWord_amid, outWord_put (s := s.withLines _) first, outWord_withLines]
  · rw [outWord_amid, outWord_put (s := ((s.withLines _).put m₁ a).withLines lines) second, outWord_withLines, outWord_amid]

/-- After updates under disjoint masks each mask has its own levels, whichever update was the last (R101). -/
theorem maskedUpdate_twice_of_disjoint {m₁ m₂ : Word} (disjoint : m₁ &&& m₂ = 0) (o a b : Word) :
    ((o &&& ~~~m₁ ||| a &&& m₁) &&& ~~~m₂) ||| (b &&& m₂) = (o &&& ~~~m₁ &&& ~~~m₂) ||| (a &&& m₁) ||| (b &&& m₂) := by
  have spared : a &&& m₁ &&& ~~~m₂ = a &&& m₁ := by
    apply and_eq_self_of_and_not_eq_zero
    rw [BitVec.not_not, BitVec.and_assoc, disjoint]
    exact BitVec.and_zero
  rw [BitVec.and_or_distrib_right, spared]

/-- Settles O34: the three laws are laws of the words the two operations leave. -/
theorem putMaskedLaws : Obligations.PutMaskedLaws := by
  intro s m₁ m₂ a b lines loaded ok₁ ok₂
  have first := hasPins_of_maskOk ok₁
  have second := hasPins_of_maskOk ok₂
  obtain ⟨t, u, once, twice, outOnce, outTwice⟩ := loaded.putMasked_twice first second
  refine ⟨⟨t, once, fun i outside => ?_⟩, fun disjoint => ?_, ?_⟩
  · rw [outOnce, getLsbD_maskedUpdate, outside]
    rfl
  · have swapped : Loaded (s.withLines (.op none (.putMasked m₂ b) :: .op none (.putMasked m₁ a) :: lines))
        (.op none (.putMasked m₂ b) :: .op none (.putMasked m₁ a) :: lines) [] [] :=
      ⟨loaded.admitted, loaded.idle, rfl, loaded.schedule, nofun⟩
    obtain ⟨t', u', -, twice', outOnce', outTwice'⟩ := swapped.putMasked_twice second first
    have disjoint' : m₂ &&& m₁ = 0 := by rw [BitVec.and_comm]; exact disjoint
    have here : u.outWord = (s.outWord &&& ~~~m₁ &&& ~~~m₂) ||| (a &&& m₁) ||| (b &&& m₂) := by
      rw [outTwice, outOnce, maskedUpdate_twice_of_disjoint disjoint]
    refine ⟨u, u', twice, twice', here, ?_⟩
    rw [here, outTwice', outOnce', maskedUpdate_twice_of_disjoint disjoint', outWord_withLines]
    ac_rfl
  · rintro rfl rfl
    have settled : flips t.outWord a m₁ = 0 := by rw [outOnce, flips_maskedUpdate]
    refine ⟨t, u, once, twice, settled, ?_⟩
    rw [outTwice, ← xor_flips, settled]
    exact BitVec.xor_zero

end Sys2Proof.Machine
end

section
/-! SUPPORT. The Sequencer (R106 to R126): what each phase of the start-up and of the loop answers; that a machine under the control
invariant always has a next step; and what the loop comes to while the Host holds its inputs. -/

namespace Sys2Proof.Machine

/-! ### The range check (R108) -/

/-- The range check fails when a bus, the chip-select pin, the indicator or a pulled pin lies past the last pin (R108, R129). -/
theorem pinRangeError_iff (c : Config) :
    pinRangeError c = true ↔ c.addrStart + c.addrBits > c.pinCount ∨ c.dataStart + c.dataBits > c.pinCount ∨
      c.csPin ≥ c.pinCount ∨ c.statusPin ≥ c.pinCount ∨ ∃ q ∈ c.pulldownPins, q ≥ c.pinCount := by
  simp [pinRangeError, or_assoc]

/-- It passes when they all lie below it. -/
theorem pinRangeError_eq_false_iff (c : Config) :
    pinRangeError c = false ↔ c.addrStart + c.addrBits ≤ c.pinCount ∧ c.dataStart + c.dataBits ≤ c.pinCount ∧
      c.csPin < c.pinCount ∧ c.statusPin < c.pinCount ∧ ∀ q ∈ c.pulldownPins, q < c.pinCount := by
  simp [pinRangeError, and_assoc]

/-- Settles O36: the phase is its check. -/
theorem checkHaltsOnAPinOutOfRange : Obligations.CheckHaltsOnAPinOutOfRange := fun s =>
  ⟨fun bad => if_pos ((pinRangeError_iff s.cfg).mpr bad), fun addr data cs status pulled =>
    if_neg (Bool.eq_false_iff.mp ((pinRangeError_eq_false_iff s.cfg).mpr ⟨addr, data, cs, status, pulled⟩))⟩

/-- Each entry of `CFG_LIST` exists once the range check has passed (R107, R108). -/
theorem lt_pinCount_of_mem_cfgList {c : Config} (ok : pinRangeError c = false) {p : Nat} (hp : p ∈ cfgList c) :
    p < c.pinCount := by
  obtain ⟨addr, data, cs, -, -⟩ := (pinRangeError_eq_false_iff c).mp ok
  rcases (mem_cfgList c p).mp hp with h | h | h <;> omega

/-- A pin below the pin count of an admitted configuration has a bit in a mask (R10, R12). -/
theorem hasPin_of_lt {c : Config} (h : c.Admitted) {p : Nat} (hp : p < c.pinCount) : hasPin c p = true := by
  obtain ⟨⟨-, pins, -⟩, -⟩ := h
  exact (hasPin_iff c p).mpr ⟨hp, lt_of_lt_of_le hp pins⟩

/-! ### The configuring phases (R109, R110, R115) -/

/-- `I_CFG(k, j)` is transaction `j` of `configure` on the `k`-th listed pin, and then the successor (R109). -/
theorem exec_iCfg {s u : State} {k p : Nat} {j : Fin 4} (hp : (cfgList s.cfg)[k]? = some p)
    (hu : configureTransaction p j s = .next u) : exec (.iCfg k j) s = .next (u.goto (cfgSuccessor s.cfg k j)) := by
  simp only [exec, execICfg, hp, hu, andThen]

/-- `I_STATUS(j)` for `j < 4` is transaction `j` of `configure` on the indicator pin, and then the next (R115). -/
theorem exec_iStatus_configure {s u : State} {j : Fin 4} (hu : configureTransaction s.cfg.statusPin j s = .next u) :
    exec (.iStatus j.castSucc.castSucc) s = .next (u.goto (.iStatus j.castSucc.succ)) := by
  have next : ∀ ph, andThen (configureTransaction s.cfg.statusPin j s) (fun t => .next (t.goto ph)) = .next (u.goto ph) :=
    fun ph => by rw [hu]; rfl
  match j with
  | 0 => exact next (.iStatus 1)
  | 1 => exact next (.iStatus 2)
  | 2 => exact next (.iStatus 3)
  | 3 => exact next (.iStatus 4)

/-- The first pull-down phase comes when any pin is pulled (R109, R110). -/
theorem pullPhase_zero (c : Config) : pullPhase c 0 = if c.pulldownPins ≠ [] then .iPull 0 0 else .iMasks := by
  have pulled : 0 < (pullList c).length ↔ c.pulldownPins ≠ [] := by
    simp only [pullList, List.length_pos_iff, ne_eq, List.eq_nil_iff_forall_not_mem, mem_ascending]
  simp only [pullPhase, pulled]

/-- Settles O37: each phase is its transaction of `configure`. -/
theorem cfgPhasesConfigureTheListedPin : Obligations.CfgPhasesConfigureTheListedPin := by
  intro s k p listed ok
  obtain ⟨first, second, third, fourth⟩ := configureTransaction_next p s ((hasPin_iff s.cfg p).mpr ok)
  obtain ⟨pad, otherPads⟩ := padWord_setPad_of_fields s ok.2 padConfigured_fields
  obtain ⟨ctrl, otherCtrls⟩ := ctrlWord_setCtrl_of_fields s ok.2 (ctrlSio_fields s.cfg)
  refine ⟨⟨_, exec_iCfg listed first, oeWord_oeClr s _, rfl, rfl⟩, ⟨_, exec_iCfg listed second, outWord_outClr s _, rfl, rfl⟩,
    ⟨_, exec_iCfg listed third, pad, otherPads, rfl, rfl⟩, ⟨_, exec_iCfg listed fourth, ctrl, otherCtrls, ?_, rfl⟩⟩
  rw [← pullPhase_zero]
  rfl

/-- Settles O43: four phases are the transactions of `configure`, the others one write each. -/
theorem statusPhasesLightTheIndicator : Obligations.StatusPhasesLightTheIndicator := by
  intro s m cached ok
  have masks := heldMasks_of_some cached
  obtain ⟨first, second, third, fourth⟩ := configureTransaction_next _ s ((hasPin_iff s.cfg _).mpr ok)
  obtain ⟨pad, otherPads⟩ := padWord_setPad_of_fields s ok.2 padConfigured_fields
  obtain ⟨ctrl, otherCtrls⟩ := ctrlWord_setCtrl_of_fields s ok.2 (ctrlSio_fields s.cfg)
  refine ⟨⟨_, exec_iStatus_configure first, oeWord_oeClr s _, rfl, rfl⟩,
    ⟨_, exec_iStatus_configure second, outWord_outClr s _, rfl, rfl⟩,
    ⟨_, exec_iStatus_configure third, pad, otherPads, rfl, rfl⟩, ⟨_, exec_iStatus_configure fourth, ctrl, otherCtrls, rfl, rfl⟩,
    ⟨_, rfl, ?_, rfl, rfl⟩, ⟨_, rfl, ?_, rfl, rfl⟩⟩
  · rw [← masks]
    exact outWord_outSet s _
  · rw [← masks]
    exact oeWord_oeSet s _

/-- `I_PULL(k, 0)` latches the pad of the `k`-th pulled pin (R110). -/
theorem exec_iPull_zero {s : State} {k q : Nat} (hq : (pullList s.cfg)[k]? = some q) (present : hasPin s.cfg q = true) :
    exec (.iPull k 0) s = .next { s with padL := some (s.padWord q), response := s.padWord q, phase := .iPull k 1 } := by
  simp only [exec, execIPull, hq, readPad, present, if_true, andThen]
  rfl

/-- `I_PULL(k, 1)` writes the latched pad back with its pull-down enabled (R110). -/
theorem exec_iPull_one {s : State} {k q : Nat} {w : Word} (hq : (pullList s.cfg)[k]? = some q) (present : hasPin s.cfg q = true)
    (latched : s.padL = some w) (fields : (w ||| padPdeBit) &&& ~~~padFields = 0) :
    exec (.iPull k 1) s = .next ((s.setPad q (w ||| padPdeBit)).goto (pullPhase s.cfg (k + 1))) := by
  simp only [exec, execIPull, hq, latched, withLatch, writePad, present, fields, if_true, andThen]

/-- Settles O38: the pulled pins are put in order, and the two phases are the read and the write of `enable_pulldown`. -/
theorem pullPhasesEnableThePullDown : Obligations.PullPhasesEnableThePullDown := by
  refine ⟨fun c => ⟨pullList_sorted c, fun q => mem_ascending q _⟩, fun s k q listed ok => ?_⟩
  have present := (hasPin_iff s.cfg q).mpr ok
  refine ⟨exec_iPull_zero listed present, fun w latched high => ?_⟩
  have fields : (w ||| padPdeBit) &&& ~~~padFields = 0 := by
    have bit : padPdeBit &&& ~~~padFields = 0 := by decide
    rw [BitVec.and_or_distrib_right, (and_not_padFields_eq_zero_iff w).mpr high, bit]
    rfl
  obtain ⟨pad, others⟩ := padWord_setPad_of_fields s ok.2 fields
  exact ⟨_, exec_iPull_one listed present latched fields, pad, others, rfl, rfl⟩

/-! ### The masks, the overlap check, the float and the fill (R111 to R114) -/

/-- `I_MASKS` caches the masks of ranges that lie inside a word (R92, R111). -/
theorem exec_iMasks {s : State} (addr : s.cfg.addrStart + s.cfg.addrBits ≤ 32) (data : s.cfg.dataStart + s.cfg.dataBits ≤ 32) :
    exec .iMasks s = .next { s with masks := some (cachedMasks s.cfg), phase := .iOverlap } := by
  simp only [exec, execIMasks, maskOf, if_pos addr, if_pos data]
  rfl

/-- Settles O39: the cached masks bit by bit. The two single pins need not exist: `bit(p)` of a pin past the word has no bit. -/
theorem masksPhaseCachesTheMasks : Obligations.MasksPhaseCachesTheMasks := by
  intro s addr data
  refine ⟨_, exec_iMasks addr data, fun p hp => ?_⟩
  simp only [cachedMasks, getLsbD_maskWord, getLsbD_bitWord, hp, decide_true, Bool.true_and, Bool.and_eq_true, decide_eq_true_eq,
    Config.DataPin, true_and, and_iff_left_iff_imp]
  omega

/-- Settles O40: the phase is its check, on the cached masks. -/
theorem overlapPhaseHaltsOrGoesOn : Obligations.OverlapPhaseHaltsOrGoesOn := by
  intro s m cached
  rw [← heldMasks_of_some cached]
  exact ⟨fun meet => if_pos meet, fun disjoint => if_neg (not_not.mpr disjoint)⟩

/-- Settles O41: the phase is one write of `OE`. -/
theorem floatPhaseReleasesTheDataBus : Obligations.FloatPhaseReleasesTheDataBus := by
  intro s m cached
  rw [← heldMasks_of_some cached]
  exact ⟨_, rfl, oeWord_oeClr s _, rfl, rfl⟩

/-- The byte of an index is the image's, or the fill byte past its end (R114). -/
theorem imageByte_eq (c : Config) (i : Nat) :
    imageByte c i = if h : i < c.image.length then c.image[i] else c.fillByte := by
  split
  · exact List.getD_eq_getElem _ _ ‹_›
  · exact List.getD_eq_default _ _ (Nat.not_lt.mp ‹_›)

/-- Settles O42: what the fill writes reads back, and an index past `L` is no cell. -/
theorem fillPhasePopulatesTheArray : Obligations.FillPhasePopulatesTheArray := by
  intro s canonical
  refine ⟨{ s with rom := fillRom s.cfg s.cfg.memLen s.rom, phase := .iStatus 0 }, rfl, fun i hi => ?_, fun i hi => ?_, rfl, rfl⟩
  · rw [← imageByte_eq, State.romAt, if_pos hi, read_fillRom _ _ _ canonical, if_pos hi]
  · exact if_neg (Nat.not_lt.mpr hi)

/-! ### The loop's phases (R116 to R123) -/

/-- Settles O44: the sample is the response's chip-select bits. -/
theorem csPhaseSamplesChipSelect : Obligations.CsPhaseSamplesChipSelect := by
  intro s m cached
  rw [← heldMasks_of_some cached]
  refine ⟨_, s.inWord, rfl, rfl, ?_⟩
  rw [sampleIn_eq]
  rfl

/-- `L_DIR` enables or releases the data bus by the sample (R117, R118). -/
theorem exec_lDir {s : State} {cs : Word} (sampled : s.csL = some cs) :
    exec .lDir s =
      .next ((if csAsserted cs then s.oeSet s.heldMasks.data else s.oeClr s.heldMasks.data).goto .lAddr) := by
  simp only [exec, execLDir, sampled, withLatch]

/-- Settles O45: asserted or not, one write of `OE`. -/
theorem dirPhaseFollowsChipSelect : Obligations.DirPhaseFollowsChipSelect := by
  intro s m cs cached sampled
  refine ⟨_, exec_lDir sampled, ?_⟩
  rw [← heldMasks_of_some cached]
  by_cases deselected : cs = 0
  · subst deselected
    exact ⟨oeWord_oeClr s _, rfl, rfl⟩
  · have asserted : csAsserted cs = true := bne_iff_ne.mpr deselected
    rw [if_pos asserted, if_pos deselected]
    exact ⟨oeWord_oeSet s _, rfl, rfl⟩

/-- The raw address of a sample is the sample shifted down to the address pins (R119). -/
theorem rawAddress_eq (c : Config) (sample : Word) : rawAddress c sample = (sample >>> c.addrStart).toNat := by
  rw [rawAddress, BitVec.toNat_ushiftRight, Nat.shiftRight_eq_div_pow]

/-- Settles O46: the sample is the response's address bits, and a remainder is below its divisor. -/
theorem addrPhaseCapturesTheReducedAddress : Obligations.AddrPhaseCapturesTheReducedAddress := by
  intro s m cached
  rw [← heldMasks_of_some cached]
  refine ⟨_, s.inWord, rfl, rfl, ?_, fun pos => ⟨_, rfl, Nat.mod_lt _ pos⟩⟩
  rw [sampleIn_eq, rawAddress_eq]
  rfl

/-- `L_XOR` toggles the data bits in which the latched levels differ from the byte looked up (R122). -/
theorem exec_lXor {s : State} {i : Nat} {o : Word} {b : Byte} (addr : s.addrL = some i) (levels : s.outL = some o)
    (byte : s.romAt i = some b) :
    exec .lXor s = .next ((s.outXor (flips o (busValue s.cfg b) s.heldMasks.data)).goto .lCs) := by
  simp only [exec, execLXor, addr, levels, withLatch, byte]

/-- Inside the mask of a masked update are the new levels, outside it the old ones (R100). -/
theorem maskedUpdate_inside (o v m : Word) : ((o &&& ~~~m) ||| (v &&& m)) &&& m = v &&& m := by
  apply word_ext
  intro i _
  rw [BitVec.getLsbD_and, getLsbD_maskedUpdate, BitVec.getLsbD_and]
  cases m.getLsbD i <;> simp

theorem maskedUpdate_outside (o v m : Word) : ((o &&& ~~~m) ||| (v &&& m)) &&& ~~~m = o &&& ~~~m := by
  apply word_ext
  intro i _
  rw [BitVec.getLsbD_and, getLsbD_maskedUpdate, BitVec.getLsbD_and, BitVec.getLsbD_not]
  cases m.getLsbD i <;> simp

/-- Toggling from the levels of `OUT` itself is the masked update of existing pins (R100, R122). -/
theorem outWord_outXor_flips {s : State} {m : Word} (present : m &&& ~~~validMask s.cfg = 0) (v : Word) :
    (s.outXor (flips s.outWord v m)).outWord = (s.outWord &&& ~~~m) ||| (v &&& m) :=
  outWord_put (beq_iff_eq.mpr present) v

/-- Settles O47: the read, the toggle, and the toggle as a masked update. -/
theorem lookupPhasesPutTheByteOnTheBus : Obligations.LookupPhasesPutTheByteOnTheBus := by
  refine ⟨fun _ => rfl, fun s m i o b cached addr levels byte => ?_⟩
  rw [← heldMasks_of_some cached]
  refine ⟨_, exec_lXor addr levels byte, outWord_outXor s _, rfl, rfl, ?_⟩
  rintro rfl present
  rw [outWord_goto, outWord_outXor_flips present]
  exact ⟨maskedUpdate_inside _ _ _, maskedUpdate_outside _ _ _⟩

/-! ### Whose turn a step is (R22) -/

/-- A step at the bus master's turn. -/
theorem step_master {s : State} (ha : s.cfg.Admitted) {rest : List Turn}
    (next : s.schedule = .master :: rest ∨ (s.schedule = [] ∧ rest = [])) :
    step s = masterTurn { s with schedule := rest } := by
  rcases next with e | ⟨e, rfl⟩
  · simp only [step, takeTurn, if_pos ha, e]
  · simp only [step, takeTurn, if_pos ha, e]
    rw [← e]

/-- A step at the Host's turn (R139). -/
theorem step_host {s : State} (ha : s.cfg.Admitted) {sets : List (Nat × Ext)} {rest : List Turn}
    (next : s.schedule = .host sets :: rest) : step s = .next (settle (hostSet sets { s with schedule := rest })) := by
  simp only [step, takeTurn, if_pos ha, next]

/-- No phase of the loop sets `status` (R123). -/
theorem status_of_exec_inLoop {s t : State} (loop : s.phase.inLoop = true) (h : exec (phaseInstr s.phase) s = .next t) :
    t.status = s.status := by
  cases hph : s.phase with rw [hph] at h loop
  | lCs | lAddr | lRdout => cases h; rfl
  | lDir =>
    obtain ⟨cs, -, h⟩ := withLatch_next.mp h
    cases h
    cases csAsserted cs <;> rfl
  | lXor =>
    obtain ⟨i, -, h⟩ := withLatch_next.mp h
    obtain ⟨o, -, h⟩ := withLatch_next.mp h
    split at h <;> cases h
    rfl
  | _ => cases loop

/-- Settles O50: the Host's turn touches no phase, and the Sequencer's is a move of the phase. -/
theorem loopNeverExits : Obligations.LoopNeverExits := by
  intro s t rest master idle loop h
  obtain ⟨ha, -⟩ := step_cases h
  refine ⟨fun sets next => ?_, fun next => ?_⟩
  · rw [step_host ha next] at h
    cases h
    exact ⟨rfl, rfl⟩
  · obtain ⟨ts, turn⟩ : ∃ ts, masterTurn { s with schedule := ts } = .next t := by
      rcases next with e | e
      · exact ⟨[], step_master ha (.inr ⟨e, rfl⟩) ▸ h⟩
      · exact ⟨rest, step_master ha (.inl e) ▸ h⟩
    obtain ⟨follows, -, -⟩ := phaseMove_of_masterTurn master idle turn
    have status : t.status = s.status := by
      rw [masterTurn_sequencer { s with schedule := ts } master idle] at turn
      obtain ⟨u, hu, rfl⟩ := runInstr_next.mp turn
      have kept : u.status = s.status := status_of_exec_inLoop (s := { s with schedule := ts }) loop hu
      split <;> exact kept
    have leads : ∀ {here there : Phase}, here.successors s.cfg = [there] → s.phase = here → t.phase = there := by
      rintro _ there only rfl
      exact List.mem_singleton.mp (only ▸ follows)
    exact ⟨status, leads rfl, leads rfl, leads rfl, leads rfl, leads rfl⟩

/-! ### The Sequencer always has a next step (R106, R127) -/

/-- A transaction of `configure` on an existing pin is done (R95). -/
theorem configureTransaction_answers (s : State) {p : Nat} (present : hasPin s.cfg p = true) (j : Fin 4) :
    ∃ u, configureTransaction p j s = .next u := by
  obtain ⟨first, second, third, fourth⟩ := configureTransaction_next p s present
  match j with
  | 0 => exact ⟨_, first⟩
  | 1 => exact ⟨_, second⟩
  | 2 => exact ⟨_, third⟩
  | 3 => exact ⟨_, fourth⟩

/-- Under the control invariant the phase's instruction answers a next state: its pins exist since the range check has passed, and what
it reads has been written. -/
theorem ControlInv.exec_phase {s : State} (inv : ControlInv s) : ∃ t, exec (phaseInstr s.phase) s = .next t := by
  have pins : s.phase.pastCheck = true → _ := fun past => (pinRangeError_eq_false_iff s.cfg).mp (inv.rangeOk past)
  have inTable := inv.inTable
  cases hph : s.phase with rw [hph] at pins inTable
  | iCheck =>
    by_cases bad : pinRangeError s.cfg = true
    · exact ⟨_, if_pos bad⟩
    · exact ⟨_, if_neg bad⟩
  | iCfg k j =>
    have present : (cfgList s.cfg)[k] < s.cfg.pinCount :=
      lt_pinCount_of_mem_cfgList (inv.rangeOk (hph ▸ rfl)) (List.getElem_mem inTable)
    obtain ⟨u, hu⟩ := configureTransaction_answers s (hasPin_of_lt inv.admitted present) j
    exact ⟨_, exec_iCfg (List.getElem?_eq_getElem inTable) hu⟩
  | iPull k j =>
    obtain ⟨-, -, -, -, pulled⟩ := pins rfl
    have listed := List.getElem?_eq_getElem (l := pullList s.cfg) inTable
    have present := hasPin_of_lt inv.admitted (pulled _ ((mem_ascending _ _).mp (List.getElem_mem inTable)))
    match j with
    | 0 => exact ⟨_, exec_iPull_zero listed present⟩
    | 1 =>
      obtain ⟨q, hq, latched⟩ := inv.padLatch k hph
      cases listed.symm.trans hq
      exact ⟨_, exec_iPull_one listed present latched (padWord_or_padPdeBit_fields s _)⟩
  | iMasks =>
    obtain ⟨addr, data, -⟩ := pins rfl
    obtain ⟨⟨-, word, -⟩, -⟩ := inv.admitted
    exact ⟨_, exec_iMasks (addr.trans word) (data.trans word)⟩
  | iOverlap =>
    by_cases meet : s.heldMasks.addr &&& s.heldMasks.data ≠ 0
    · exact ⟨_, if_pos meet⟩
    · exact ⟨_, if_neg meet⟩
  | iStatus j =>
    obtain ⟨-, -, -, status, -⟩ := pins rfl
    have answers := configureTransaction_answers s (hasPin_of_lt inv.admitted status)
    have configures : ∀ j : Fin 4, ∃ t, exec (.iStatus j.castSucc.castSucc) s = .next t := fun j => by
      obtain ⟨u, hu⟩ := answers j
      exact ⟨_, exec_iStatus_configure hu⟩
    match j with
    | 0 => exact configures 0
    | 1 => exact configures 1
    | 2 => exact configures 2
    | 3 => exact configures 3
    | 4 => exact ⟨_, rfl⟩
    | 5 => exact ⟨_, rfl⟩
  | lDir =>
    obtain ⟨cs, sampled⟩ := inv.csLatch hph
    exact ⟨_, exec_lDir sampled⟩
  | lXor =>
    obtain ⟨i, hi, addr⟩ := inv.addrLatch (.inr hph)
    exact ⟨_, exec_lXor addr (inv.outLatch hph) (inv.romFilled (hph ▸ rfl) i hi)⟩
  | iFloat | iFill | lCs | lAddr | lRdout | halted => exact ⟨_, rfl⟩

/-- So does the Sequencer's turn, wherever the schedule stands. -/
theorem ControlInv.masterTurn_next {s : State} (inv : ControlInv s) : ∃ t, masterTurn s = .next t := by
  obtain ⟨u, hu⟩ := inv.exec_phase
  rw [masterTurn_sequencer s inv.sequencer inv.idle]
  exact ⟨_, runInstr_next.mpr ⟨u, hu, rfl⟩⟩

/-- Settles O54: the Host's turn and power-on are always done, and the Sequencer's by the control invariant. -/
theorem sequencerAlwaysSteps : Obligations.SequencerAlwaysSteps := by
  intro s inv
  have ready : ∀ ts, ∃ t, masterTurn { s with schedule := ts } = .next t := fun ts =>
    (inv.outside s.ext s.events ts s.draws).masterTurn_next
  cases hs : s.schedule with
  | nil => rw [step_master inv.admitted (.inr ⟨hs, rfl⟩)]; exact ready []
  | cons turn rest =>
    cases turn with
    | master => rw [step_master inv.admitted (.inl hs)]; exact ready rest
    | host sets => exact ⟨_, step_host inv.admitted hs⟩
    | powerOn => exact ⟨powerOn { s with schedule := rest }, by simp only [step, takeTurn, if_pos inv.admitted, hs]⟩

/-! ### Runs of the loop under a Host that leaves some pins alone -/

/-- A Sequencer machine in its loop, in a run from `s₀` in which the Host has left the pins of a list alone. -/
structure HeldLoop (keep : List Nat) (s₀ s : State) : Prop where
  cfg : s.cfg = s₀.cfg
  control : ControlInv s
  bus : BusInv s
  inLoop : s.phase.inLoop = true
  held : ∀ p ∈ keep, s.extAt p = s₀.extAt p

/-- A run of the loop starts where it is. -/
theorem HeldLoop.start (keep : List Nat) {s : State} (control : ControlInv s) (bus : BusInv s) (loop : s.phase.inLoop = true) :
    HeldLoop keep s s := ⟨rfl, control, bus, loop, fun _ _ => rfl⟩

/-- A step that stays in the loop and leaves the pins alone goes on with the run; the invariants are kept by every step. -/
theorem HeldLoop.of_step {keep : List Nat} {s₀ s t : State} (loop : HeldLoop keep s₀ s) (run : step s = .next t)
    (inLoop : t.phase.inLoop = true) (held : ∀ p ∈ keep, t.extAt p = s.extAt p) (cfg : t.cfg = s.cfg) : HeldLoop keep s₀ t where
  cfg := cfg.trans loop.cfg
  control := stepKeepsTheControlInvariant s t loop.control run
  bus := stepKeepsThePinInvariant s t loop.control loop.bus run
  inLoop := inLoop
  held p hp := (held p hp).trans (loop.held p hp)

/-- The schedule bears on nothing of this. -/
theorem HeldLoop.scheduled {keep : List Nat} {s₀ s : State} (loop : HeldLoop keep s₀ s) (ts : List Turn) :
    HeldLoop keep s₀ (s.amid ⟨s.ext, s.events, s.draws, ts⟩) :=
  { loop with control := loop.control.outside _ _ _ _, bus := { loop.bus with } }

/-- The run of an instruction changes neither the parameters nor the Host's pins nor the schedule (R24, R138). -/
theorem runInstr_outside {i : Instr} {s t : State} (h : runInstr i s = .next t) :
    t.cfg = s.cfg ∧ t.ext = s.ext ∧ t.schedule = s.schedule := by
  obtain ⟨u, hu, rfl⟩ := runInstr_next.mp h
  obtain ⟨cfg, ext, -, -, -, schedule⟩ := exec_outside hu
  split <;> exact ⟨cfg, ext, schedule⟩

/-- The Sequencer's turn in the loop is the action of its phase, amid other records and evaluations (R27, R41). -/
theorem HeldLoop.masterStep {keep : List Nat} {s₀ s : State} (loop : HeldLoop keep s₀ s) {rest : List Turn}
    (next : s.schedule = .master :: rest) :
    ∃ u w, PhaseStep (s.amid ⟨s.ext, s.events, s.draws, rest⟩) u ∧ step s = .next (u.amid w) ∧ HeldLoop keep s₀ (u.amid w) ∧
      w.schedule = rest := by
  have inv := (loop.scheduled rest).control
  obtain ⟨t, turn⟩ := inv.masterTurn_next
  have run : step s = .next t := (step_master loop.control.admitted (.inl next)).trans turn
  obtain ⟨u, phase, amid⟩ := phaseStep_of_masterTurn inv turn
  rw [masterTurn_sequencer _ inv.sequencer inv.idle] at turn
  obtain ⟨cfg, ext, schedule⟩ := runInstr_outside turn
  obtain ⟨w, rfl⟩ : ∃ w, t = u.amid w := ⟨⟨u.ext, t.events, t.draws, u.schedule⟩, amid⟩
  refine ⟨u, w, phase, run, loop.of_step run (phase.inLoop loop.inLoop) (fun p _ => ?_) cfg, schedule⟩
  rw [State.extAt, ext]
  rfl

/-- The Host's turn changes the surroundings alone, and not the pins it leaves alone (R139). -/
theorem HeldLoop.hostStep {keep : List Nat} {s₀ s : State} (loop : HeldLoop keep s₀ s) {sets : List (Nat × Ext)} {rest : List Turn}
    (next : s.schedule = .host sets :: rest) (spares : ∀ pe ∈ sets, pe.1 ∉ keep) :
    ∃ w, step s = .next (s.amid w) ∧ HeldLoop keep s₀ (s.amid w) ∧ w.schedule = rest := by
  have run := step_host loop.control.admitted next
  refine ⟨⟨(hostSet sets s).ext, _, _, rest⟩, run, loop.of_step run loop.inLoop (fun p hp => ?_) rfl, rfl⟩
  exact extAt_hostSet_of_not_mem _ sets p fun pe hpe e => spares pe hpe (e ▸ hp)

/-- What each phase of the held loop brings a turn closer, and nothing else bears on, is there once the Sequencer has had its turns,
whatever the Host's turns among them (R22). -/
theorem HeldLoop.run {keep : List Nat} {s₀ : State} {Within : Nat → State → Prop}
    (phase : ∀ n s t, HeldLoop keep s₀ s → Within n s → PhaseStep s t → Within (n - 1) t)
    (amid : ∀ n s w, Within n s → Within n (s.amid w)) {ts later : List Turn} {n : Nat} {s : State} (loop : HeldLoop keep s₀ s)
    (schedule : s.schedule = ts ++ later) (spares : ∀ x ∈ ts, Turn.Spares keep x) (within : Within n s)
    (enough : n ≤ masterTurns ts) : ∃ t, runSteps ts.length s = .next t ∧ HeldLoop keep s₀ t ∧ Within 0 t := by
  induction ts generalizing n s with
  | nil =>
    obtain rfl : n = 0 := Nat.le_zero.mp enough
    exact ⟨s, rfl, loop, within⟩
  | cons x ts ih =>
    obtain ⟨here, others⟩ := List.forall_mem_cons.mp spares
    cases x with
    | master =>
      obtain ⟨u, w, acts, run, loop', schedule'⟩ := loop.masterStep schedule
      rw [masterTurns_master] at enough
      rw [List.length_cons, runSteps, run]
      exact ih loop' schedule' others (amid _ _ _ (phase _ _ _ (loop.scheduled _) (amid _ _ _ within) acts)) (by omega)
    | host sets =>
      obtain ⟨w, run, loop', schedule'⟩ := loop.hostStep schedule here
      rw [masterTurns_host] at enough
      rw [List.length_cons, runSteps, run]
      exact ih loop' schedule' others (amid _ _ _ within) enough
    | powerOn => exact here.elim

/-! ### The pins of the loop -/

/-- The loop has behind it all that the start-up brings about (R108 to R114). -/
theorem ControlInv.established_of_inLoop {s : State} (inv : ControlInv s) (loop : s.phase.inLoop = true) : Established s 4 := by
  have last : s.phase.stage = 4 := by
    cases hph : s.phase with rw [hph] at loop
    | lCs | lDir | lAddr | lRdout | lXor => rfl
    | _ => cases loop
  exact last ▸ inv.established

/-- In the loop every pin of `CFG_LIST` is configured for the bus (R109). -/
theorem BusInv.busPin {s : State} (bus : BusInv s) (loop : s.phase.inLoop = true) {p : Nat} (hp : p ∈ cfgList s.cfg) :
    s.BusPin p := by
  obtain ⟨i, hi, rfl⟩ := List.getElem_of_mem hp
  refine bus.configured i _ ?_ (List.getElem?_eq_getElem hi)
  cases hph : s.phase with rw [hph] at loop
  | lCs | lDir | lAddr | lRdout | lXor => exact hi
  | _ => cases loop

/-- The input pins are pins of `CFG_LIST` (R107, R140). -/
theorem mem_cfgList_of_mem_inputPins {c : Config} {p : Nat} (hp : p ∈ c.inputPins) : p ∈ cfgList c := by
  simp only [Config.inputPins, List.mem_append, mem_pinRange, List.mem_singleton] at hp
  exact (mem_cfgList c p).mpr (hp.imp_right .inr)

/-- No input pin is an output: the address and data buses share no pin, and the two control pins lie on neither (R18, R112). -/
theorem inputPin_not_output {c : Config} (h : c.GeometryOk) (disjoint : (cachedMasks c).addr &&& (cachedMasks c).data = 0) {p : Nat}
    (hp : p ∈ c.inputPins) : ((cachedMasks c).data ||| (cachedMasks c).status).getLsbD p = false := by
  have apart := (eq_zero_iff_bits _).mp disjoint p
  have csBuses := buses_spare_controlPins h (.inl rfl)
  have statusBuses := buses_spare_controlPins h (.inr rfl)
  obtain ⟨-, -, -, -, -, -, -, -, -, -, controls⟩ := h
  unfold Config.DataPin at csBuses statusBuses
  simp only [Config.inputPins, List.mem_append, mem_pinRange, List.mem_singleton] at hp
  simp only [cachedMasks, BitVec.getLsbD_and, BitVec.getLsbD_or, getLsbD_maskWord, getLsbD_bitWord, Bool.and_eq_false_iff,
    Bool.or_eq_false_iff, decide_eq_false_iff_not] at apart ⊢
  omega

/-- Each data pin exists and has a bit in a mask (R10 to R12). -/
def DataPinsExist (c : Config) : Prop := ∀ p, c.DataPin p → p < c.pinCount ∧ p < 32

section LoopPins

variable {s : State} (inv : ControlInv s) (bus : BusInv s) (loop : s.phase.inLoop = true)
include inv bus loop

/-- In the loop a read of `IN` sees on an input pin the level the Host drives: the pin exists, its input is enabled, and the block does
not drive it (R33, R39, R40). -/
theorem inWord_of_held {p : Nat} (hp : p ∈ s.cfg.inputPins) {b : Bool} (held : s.extAt p = if b then .high else .low) :
    p < 32 ∧ s.inWord.getLsbD p = b := by
  have listed := mem_cfgList_of_mem_inputPins hp
  obtain ⟨range, -, disjoint, -⟩ := inv.established_of_inLoop loop
  have present := hasPin_of_lt inv.admitted (lt_pinCount_of_mem_cfgList (range (by decide)) listed)
  obtain ⟨routed, -, input⟩ := bus.busPin loop listed
  have off : s.oeWord.getLsbD p = false := by
    have output := (and_not_eq_zero_iff_bits _ _).mp bus.drivers p
    rw [inputPin_not_output inv.admitted.1 (disjoint (by decide)) hp] at output
    exact Bool.eq_false_iff.mpr fun on => nomatch output on
  refine ⟨((hasPin_iff _ _).mp present).2, ?_⟩
  rw [getLsbD_inWord, State.inBitAt, present, input, levelAt_of_host s _ p b (drivesAt_of_oe s _ p routed off) held]
  rfl

/-- The sample of a held chip-select says what the Host drives (R116, R117). -/
theorem csAsserted_sample {on : Bool} (held : s.extAt s.cfg.csPin = if on then .high else .low) :
    csAsserted (s.sampleIn (cachedMasks s.cfg).cs) = on := by
  have input : s.cfg.csPin ∈ s.cfg.inputPins := List.mem_append_right _ (List.mem_singleton_self _)
  obtain ⟨word, level⟩ := inWord_of_held inv bus loop input held
  have bits : ∀ i, (s.sampleIn (cachedMasks s.cfg).cs).getLsbD i = (decide (i = s.cfg.csPin) && on) := by
    intro i
    rw [sampleIn_eq, BitVec.getLsbD_and, cachedMasks, getLsbD_bitWord]
    by_cases cs : i = s.cfg.csPin
    · rw [cs, level]
      simp [word]
    · simp [cs]
  cases on with
  | false => exact bne_eq_false_iff_eq.mpr ((eq_zero_iff_bits _).mpr (by simp [bits]))
  | true => exact bne_iff_ne.mpr fun zero => by simpa [bits] using (eq_zero_iff_bits _).mp zero s.cfg.csPin

/-- The sample of a held address is that address (R119, R140). -/
theorem rawAddress_sample {raw : Nat} (held : s.AddressHeld raw) :
    rawAddress s.cfg (s.sampleIn (cachedMasks s.cfg).addr) = raw := by
  obtain ⟨fits, held⟩ := held
  apply Nat.eq_of_testBit_eq
  intro j
  rw [rawAddress, Nat.testBit_div_two_pow, BitVec.testBit_toNat, sampleIn_eq, BitVec.getLsbD_and, cachedMasks, getLsbD_maskWord]
  by_cases hj : j < s.cfg.addrBits
  · have input : s.cfg.addrStart + j ∈ s.cfg.inputPins :=
      List.mem_append_left _ ((mem_pinRange _ _ _).mpr ⟨by omega, by omega⟩)
    obtain ⟨word, level⟩ := inWord_of_held inv bus loop input (held j hj)
    rw [Nat.add_comm j, level]
    simp [word, hj]
  · have past : raw.testBit j = false :=
      Nat.testBit_lt_two_pow (lt_of_lt_of_le fits (Nat.pow_le_pow_right two_pos (Nat.not_lt.mp hj)))
    have outside : ¬ j + s.cfg.addrStart < s.cfg.addrStart + s.cfg.addrBits := by omega
    simp [past, outside]

omit inv in
/-- A data pin of a machine in its loop is configured for the bus (R109). -/
theorem busPin_of_dataPin {p : Nat} (hp : s.cfg.DataPin p) : s.BusPin p :=
  bus.busPin loop ((mem_cfgList _ p).mpr (.inr (.inl hp)))

omit bus in
/-- Its data pins exist (R108). -/
theorem dataPinsExist_of_inLoop : DataPinsExist s.cfg := by
  intro p hp
  obtain ⟨range, -⟩ := inv.established_of_inLoop loop
  have present := lt_pinCount_of_mem_cfgList (range (by decide)) ((mem_cfgList _ p).mpr (.inr (.inl hp)))
  exact (hasPin_iff _ _).mp (hasPin_of_lt inv.admitted present)

end LoopPins

/-- The mask of the data bus bit by bit (R111). -/
theorem getLsbD_dataMask {c : Config} {p : Nat} (hp : p < 32) : (cachedMasks c).data.getLsbD p = true ↔ c.DataPin p := by
  rw [cachedMasks, getLsbD_maskWord, decide_eq_true hp, Bool.true_and, Bool.and_eq_true, decide_eq_true_iff, decide_eq_true_iff]
  rfl

/-! ### The direction of the data bus (R125, R126) -/

/-- The drivers of the data pins are all on, or all off. -/
def State.BusDirection (s : State) (on : Bool) : Prop := ∀ p, s.cfg.DataPin p → s.oeWord.getLsbD p = on

/-- Within `n` turns of the Sequencer the direction is `on`, while chip-select is held so: it is already and the sample, where one waits,
says so, or the turns reach the write that follows the next sample. -/
def DirectedWithin (on : Bool) (n : Nat) (s : State) : Prop :=
  match s.phase with
  | .lCs => s.BusDirection on ∨ 2 ≤ n
  | .lDir => (s.csL.map csAsserted = some on ∧ (s.BusDirection on ∨ 1 ≤ n)) ∨ 6 ≤ n
  | .lAddr => s.BusDirection on ∨ 5 ≤ n
  | .lRdout => s.BusDirection on ∨ 4 ≤ n
  | .lXor => s.BusDirection on ∨ 3 ≤ n
  | _ => False

theorem directedWithin_six (on : Bool) {s : State} (loop : s.phase.inLoop = true) : DirectedWithin on 6 s := by
  unfold DirectedWithin
  cases hph : s.phase with rw [hph] at loop
  | lCs | lDir | lAddr | lRdout | lXor => exact .inr (by decide)
  | _ => cases loop

theorem DirectedWithin.now {on : Bool} {s : State} (h : DirectedWithin on 0 s) : s.BusDirection on := by
  unfold DirectedWithin at h
  split at h
  case h_2 =>
    obtain ⟨-, h⟩ := h.resolve_right (by decide)
    exact h.resolve_right (by decide)
  case h_6 => exact h.elim
  all_goals exact h.resolve_right (by decide)

/-- Enabling the data bus enables the driver of each data pin, which exists (R118). -/
theorem busDirection_oeSet {s : State} (exist : DataPinsExist s.cfg) :
    (s.oeSet (cachedMasks s.cfg).data).BusDirection true := by
  intro p (hp : s.cfg.DataPin p)
  obtain ⟨present, word⟩ := exist p hp
  rw [oeWord_oeSet, BitVec.getLsbD_and, BitVec.getLsbD_or, (getLsbD_dataMask word).mpr hp]
  simp [word, present]

/-- Releasing it clears each data pin's (R118). -/
theorem busDirection_oeClr {s : State} (exist : DataPinsExist s.cfg) :
    (s.oeClr (cachedMasks s.cfg).data).BusDirection false := by
  intro p (hp : s.cfg.DataPin p)
  obtain ⟨-, word⟩ := exist p hp
  rw [oeWord_oeClr, BitVec.getLsbD_and, BitVec.getLsbD_not, (getLsbD_dataMask word).mpr hp]
  simp

/-- Each phase of the loop brings the direction a turn closer: `L_CS` samples what is held, `L_DIR` writes it, and the others touch
neither; outside the loop nothing is within reach. -/
theorem PhaseStep.directedWithin {s t : State} (h : PhaseStep s t) {on : Bool} {n : Nat} (within : DirectedWithin on n s)
    (exist : DataPinsExist s.cfg)
    (sample : csAsserted (s.sampleIn (cachedMasks s.cfg).cs) = on) : DirectedWithin on (n - 1) t := by
  unfold DirectedWithin at within
  cases h with
  | sampleCs hph =>
    rw [hph] at within
    exact .inl ⟨congrArg some sample, within.imp_right (by omega)⟩
  | driveBus hph hcs asserted =>
    rw [hph, hcs, Option.map_some, asserted] at within
    exact within.imp (fun ⟨fresh, _⟩ => Option.some.inj fresh ▸ busDirection_oeSet exist) (by omega)
  | releaseBus hph hcs asserted =>
    rw [hph, hcs, Option.map_some, asserted] at within
    exact within.imp (fun ⟨fresh, _⟩ => Option.some.inj fresh ▸ busDirection_oeClr exist) (by omega)
  | sampleAddr hph | readLevels hph | toggle hph =>
    rw [hph] at within
    exact within.imp_right (by omega)
  | _ => simp_all

/-- The same along a run in which chip-select is held. -/
theorem HeldLoop.directed {keep : List Nat} {s₀ s : State} (loop : HeldLoop keep s₀ s) {on : Bool}
    (held : s₀.extAt s₀.cfg.csPin = if on then .high else .low) (kept : s₀.cfg.csPin ∈ keep) {n : Nat} {t : State}
    (within : DirectedWithin on n s) (h : PhaseStep s t) : DirectedWithin on (n - 1) t := by
  have sample := csAsserted_sample loop.control loop.bus loop.inLoop
    ((congrArg s.extAt (congrArg Config.csPin loop.cfg)).trans ((loop.held _ kept).trans held))
  exact h.directedWithin within (dataPinsExist_of_inLoop loop.control loop.inLoop) sample

/-- What the Host observes of a pin configured for the bus: its level while its driver is enabled (R39, R42). -/
theorem observed_of_busPin {s : State} {p : Nat} (pin : s.BusPin p) :
    s.observed p = if s.oeWord.getLsbD p then some (s.outWord.getLsbD p) else none := by
  obtain ⟨routed, od, -⟩ := pin
  simp only [State.observed, drivesAt_of_sio _ routed, drivenValueAt_of_sio _ routed, od, and_true]

/-- With chip-select held, six turns of the Sequencer bring the data bus into its direction, whatever the Host does to the other pins. -/
theorem busDirection_of_held {s : State} {ts later : List Turn} {on : Bool} (control : ControlInv s) (bus : BusInv s)
    (inLoop : s.phase.inLoop = true) (held : s.extAt s.cfg.csPin = if on then .high else .low)
    (schedule : s.schedule = ts ++ later) (spares : ∀ x ∈ ts, Turn.Spares [s.cfg.csPin] x) (enough : 6 ≤ masterTurns ts) :
    ∃ t, runSteps ts.length s = .next t ∧
      ∀ p, s.cfg.DataPin p → t.observed p = if on then some (t.outWord.getLsbD p) else none := by
  obtain ⟨t, run, loop, within⟩ := (HeldLoop.start _ control bus inLoop).run
    (fun _ _ _ loop => loop.directed held (List.mem_singleton_self _)) (fun _ _ _ within => within) schedule spares
    (directedWithin_six on inLoop) enough
  refine ⟨t, run, fun p hp => ?_⟩
  rw [← loop.cfg] at hp
  rw [observed_of_busPin (busPin_of_dataPin loop.bus loop.inLoop hp), within.now p hp]

/-- Settles O59: six turns are those from a waiting sample, through the next one, to the write it decides. -/
theorem deselectionReleasesTheBus : Obligations.DeselectionReleasesTheBus := fun _ _ _ control bus inLoop held schedule spares enough =>
  busDirection_of_held (on := false) control bus inLoop held schedule spares enough

/-- Settles O60: the same six turns the other way. -/
theorem selectionDrivesTheBus : Obligations.SelectionDrivesTheBus := by
  intro s ts later control bus inLoop held schedule spares enough
  obtain ⟨t, run, drives⟩ := busDirection_of_held (on := true) control bus inLoop held schedule spares enough
  exact ⟨t, run, fun p hp => by rw [drives p hp]; exact Option.some_ne_none _⟩

/-! ### The byte on the data bus (R120, R124, R126) -/

/-- The levels of the data pins are the byte of an index, once the array is filled (R114). -/
def State.Shows (s : State) (i : Nat) : Prop :=
  ∀ j, j < s.cfg.dataBits → s.outWord.getLsbD (s.cfg.dataStart + j) = (imageByte s.cfg i).getLsbD j

theorem State.Shows.goto {s : State} {i : Nat} (h : s.Shows i) (ph : Phase) : (s.goto ph).Shows i := h

/-- Within `n` turns of the Sequencer the byte of index `i` is there, while its address is held: it is already and the captured index,
where one waits, is `i`, or the turns reach the toggle that follows the next capture. -/
def ShownWithin (i n : Nat) (s : State) : Prop :=
  match s.phase with
  | .lAddr => s.Shows i ∨ 3 ≤ n
  | .lRdout => (s.addrL = some i ∧ (s.Shows i ∨ 2 ≤ n)) ∨ 7 ≤ n
  | .lXor => (s.addrL = some i ∧ (s.Shows i ∨ 1 ≤ n)) ∨ 6 ≤ n
  | .lCs => s.Shows i ∨ 5 ≤ n
  | .lDir => s.Shows i ∨ 4 ≤ n
  | _ => False

theorem shownWithin_seven (i : Nat) {s : State} (loop : s.phase.inLoop = true) : ShownWithin i 7 s := by
  unfold ShownWithin
  cases hph : s.phase with rw [hph] at loop
  | lCs | lDir | lAddr | lRdout | lXor => exact .inr (by decide)
  | _ => cases loop

theorem ShownWithin.now {i : Nat} {s : State} (h : ShownWithin i 0 s) : s.Shows i := by
  unfold ShownWithin at h
  split at h
  case h_2 | h_3 =>
    obtain ⟨-, h⟩ := h.resolve_right (by decide)
    exact h.resolve_right (by decide)
  case h_6 => exact h.elim
  all_goals exact h.resolve_right (by decide)

/-- A byte aligned with the data pins has its bit `j` on the `j`-th of them (R52, R122). -/
theorem getLsbD_busValue {c : Config} {j : Nat} (word : c.dataStart + j < 32) (b : Byte) :
    (busValue c b).getLsbD (c.dataStart + j) = b.getLsbD j := by
  simp [busValue, word]

/-- The toggle puts the byte looked up on the data pins, which exist (R122). -/
theorem shows_outXor {s : State} {i : Nat} (exist : DataPinsExist s.cfg) :
    (s.outXor (flips s.outWord (busValue s.cfg (imageByte s.cfg i)) (cachedMasks s.cfg).data)).Shows i := by
  have present : (cachedMasks s.cfg).data &&& ~~~validMask s.cfg = 0 := by
    refine (and_not_eq_zero_iff_bits _ _).mpr fun p bit => ?_
    have word := BitVec.lt_of_getLsbD bit
    simp [word, (exist p ((getLsbD_dataMask word).mp bit)).1]
  intro j (hj : j < s.cfg.dataBits)
  have pin : s.cfg.DataPin (s.cfg.dataStart + j) := ⟨by omega, by omega⟩
  obtain ⟨-, word⟩ := exist _ pin
  change (s.outXor _).outWord.getLsbD (s.cfg.dataStart + j) = (imageByte s.cfg i).getLsbD j
  rw [outWord_outXor_flips present, getLsbD_maskedUpdate, if_pos ((getLsbD_dataMask word).mpr pin), getLsbD_busValue word]

/-- Each phase of the loop brings the byte a turn closer: `L_ADDR` captures the held address, `L_XOR` puts its byte on the bus, and the
others touch neither; outside the loop nothing is within reach. -/
theorem PhaseStep.shownWithin {s t : State} (h : PhaseStep s t) {i n : Nat} (within : ShownWithin i n s)
    (exist : DataPinsExist s.cfg) (filled : s.romAt i = some (imageByte s.cfg i))
    (sample : lookupIndex s.cfg (rawAddress s.cfg (s.sampleIn (cachedMasks s.cfg).addr)) = i) : ShownWithin i (n - 1) t := by
  unfold ShownWithin at within
  cases h with
  | sampleAddr hph =>
    rw [hph] at within
    exact .inl ⟨congrArg some sample, within.imp_right (by omega)⟩
  | readLevels hph =>
    rw [hph] at within
    exact within.imp (And.imp_right (Or.imp_right (by omega))) (by omega)
  | toggle hph addr byte =>
    rw [hph] at within
    refine within.imp (fun ⟨captured, _⟩ => ?_) (by omega)
    obtain rfl := Option.some.inj (addr.symm.trans captured)
    obtain rfl := Option.some.inj (byte.symm.trans filled)
    exact (shows_outXor exist).goto .lCs
  | sampleCs hph | driveBus hph | releaseBus hph =>
    rw [hph] at within
    exact within.imp_right (by omega)
  | _ => simp_all

/-- The same along a run in which the address is held. -/
theorem HeldLoop.shown {s₀ s : State} (loop : HeldLoop s₀.cfg.inputPins s₀ s) {raw : Nat} (held : s₀.AddressHeld raw) {n : Nat}
    {t : State} (within : ShownWithin (raw % s₀.cfg.memLen) n s) (h : PhaseStep s t) :
    ShownWithin (raw % s₀.cfg.memLen) (n - 1) t := by
  obtain ⟨cfg, control, bus, inLoop, kept⟩ := loop
  rw [← cfg] at within kept ⊢
  have here : s.AddressHeld raw := by
    obtain ⟨fits, levels⟩ := held
    rw [← cfg] at fits levels
    refine ⟨fits, fun j hj => (kept _ ?_).trans (levels j hj)⟩
    exact List.mem_append_left _ ((mem_pinRange _ _ _).mpr ⟨by omega, by omega⟩)
  obtain ⟨-, -, -, filled⟩ := control.established_of_inLoop inLoop
  obtain ⟨-, -, -, -, memLen, -⟩ := control.admitted.1
  refine h.shownWithin within (dataPinsExist_of_inLoop control inLoop) (filled (by decide) _ (Nat.mod_lt _ memLen)) ?_
  rw [rawAddress_sample control bus inLoop here, lookupIndex]

/-- Settles O58: the direction is there after six turns, and the byte after seven, those from a stale captured index through the next
capture to the toggle it decides. -/
theorem heldSelectionPresentsTheByte : Obligations.HeldSelectionPresentsTheByte := by
  intro s raw ts later control bus inLoop held address schedule spares enough
  have csKept : s.cfg.csPin ∈ s.cfg.inputPins := List.mem_append_right _ (List.mem_singleton_self _)
  obtain ⟨t, run, loop, directed, shown⟩ := (HeldLoop.start _ control bus inLoop).run
    (Within := fun n u => DirectedWithin true (n - 1) u ∧ ShownWithin (raw % s.cfg.memLen) n u)
    (fun _ u v loop ⟨directed, shown⟩ acts => ⟨loop.directed held csKept directed acts, loop.shown address shown acts⟩)
    (fun _ _ _ within => within) schedule spares ⟨directedWithin_six true inLoop, shownWithin_seven _ inLoop⟩ enough
  refine ⟨t, run, fun j hj => ?_⟩
  have cfg := loop.cfg
  have pin : t.cfg.DataPin (s.cfg.dataStart + j) := by rw [cfg]; exact ⟨by omega, by omega⟩
  rw [observed_of_busPin (busPin_of_dataPin loop.bus loop.inLoop pin), directed.now _ pin, if_pos rfl, ← cfg,
    shown.now j (cfg ▸ hj), cfg]

end Sys2Proof.Machine
end

section
/-! SUPPORT. The Host's turn, which touches its pins alone (R139), and `HALTED`, which has no step and leaves no driver on (R131 to
R134). -/

namespace Sys2Proof.Machine

/-! ### The Host's turn (R139) -/

/-- The Host's settings are made one after another. -/
theorem hostSet_concat (sets : List (Nat × Ext)) (pe : Nat × Ext) (s : State) :
    hostSet (sets ++ [pe]) s = hostSet [pe] (hostSet sets s) := by
  rw [hostSet, List.foldl_append]
  rfl

/-- One setting of the Host, seen from an existing pin. -/
theorem extAt_hostSet_singleton {s : State} {p : Nat} (present : hasPin s.cfg p = true) (pe : Nat × Ext) :
    (hostSet [pe] s).extAt p = if pe.1 = p then pe.2 else s.extAt p := by
  by_cases here : pe.1 = p
  · subst here
    obtain ⟨-, word⟩ := (hasPin_iff s.cfg pe.1).mp present
    simp only [State.extAt, hostSet, List.foldl_cons, List.foldl_nil, present, if_true]
    rw [getD_toList_setIfInBounds, if_pos ⟨rfl, word⟩]
  · rw [if_neg here]
    exact extAt_hostSet_of_not_mem s [pe] p fun x hx => List.mem_singleton.mp hx ▸ here

/-- What the Host applies to an existing pin after its step: its last setting for the pin, if it has one (R139). -/
theorem extAt_hostSet {s : State} {p : Nat} (present : hasPin s.cfg p = true) (sets : List (Nat × Ext)) :
    (hostSet sets s).extAt p = (sets.reverse.find? (fun pe => pe.1 == p)).elim (s.extAt p) Prod.snd := by
  induction sets using List.reverseRecOn with
  | nil => rfl
  | append_singleton sets pe ih =>
    rw [hostSet_concat, extAt_hostSet_singleton (s := hostSet sets s) present, ih, List.reverse_concat]
    by_cases here : pe.1 = p
    · rw [if_pos here, List.find?_cons_of_pos (by simp [here])]
      rfl
    · rw [if_neg here, List.find?_cons_of_neg (by simp [here])]

/-- Settles O9: the Host's turn is its settings and the end of the step. -/
theorem hostStepTouchesOnlyThePins : Obligations.HostStepTouchesOnlyThePins := by
  intro s sets rest admitted next
  refine ⟨_, step_host admitted next, fun p hp => ?_, rfl⟩
  have present : hasPin s.cfg p = true := hasPin_of_lt admitted hp
  rw [extAt_settle, extAt_hostSet (s := { s with schedule := rest }) present]
  cases sets.reverse.find? (fun pe => pe.1 == p) <;> rfl

/-! ### `HALTED` (R131 to R134) -/

/-- The Sequencer's turn in `HALTED` leaves everything as it is, whatever surrounds the machine (R131, log 7). -/
theorem advances_of_halted {s : State} (master : s.master = .sequencer) (idle : s.pending = []) (halted : s.phase = .halted) :
    Advances s s where
  cfg := rfl
  turn _ w := by
    have phase : (s.amid w).phase = .halted := halted
    refine ⟨w, rfl, ?_⟩
    rw [masterTurn_sequencer (s.amid w) master idle, phase]
    rfl

/-- A turn that leaves the machine as it is may come any number of times. -/
theorem Advances.repeated {s : State} (rests : Advances s s) (k : Nat) : AdvancesIn k s s := by
  induction k with
  | zero => exact .done s
  | succ k ih => exact .turn rests ih

/-- Settles O49: the Sequencer's turns in `HALTED` come to nothing, and the Host's among them change the surroundings alone. -/
theorem haltedStaysHalted : Obligations.HaltedStaysHalted := by
  refine ⟨fun _ => rfl, fun s ts later admitted master idle halted schedule spares => ?_⟩
  have rests := (advances_of_halted master idle halted).repeated (masterTurns ts)
  obtain ⟨w, rfl, run⟩ := rests.run (Turns.of_append later spares) admitted (w := ⟨s.ext, s.events, s.draws, s.schedule⟩) schedule
  exact ⟨s.amid w, run, rfl⟩

/-- Outside the loop no existing pin drives: every output driver is off, and no pin is routed to a peripheral (R39). -/
theorem BusInv.drivesAt_of_not_inLoop {s : State} (bus : BusInv s) (outside : s.phase.inLoop = false) (n : Nat) {p : Nat}
    (hp : p < s.cfg.pinCount) : s.drivesAt n p = false := by
  by_cases sio : funcsel (s.ctrlWord p) = s.cfg.fSio
  · exact drivesAt_of_oe s n p sio ((eq_zero_iff_bits _).mp (bus.floats outside) p)
  · exact drivesAt_of_null n sio ((bus.routed p hp).resolve_left sio)

/-- The Host observes nothing of a pin that does not drive (R42). -/
theorem observed_of_not_drives {s : State} {p : Nat} (off : s.drivesAt s.draws p = false) : s.observed p = none := by
  rw [State.observed, off]
  rfl

/-- Settles O56: `HALTED` is outside the loop. -/
theorem noPinDrivesWhenHalted : Obligations.NoPinDrivesWhenHalted := by
  intro s n p _ bus halted hp
  have outside : s.phase.inLoop = false := halted ▸ rfl
  exact ⟨bus.drivesAt_of_not_inLoop outside n hp, observed_of_not_drives (bus.drivesAt_of_not_inLoop outside s.draws hp)⟩

end Sys2Proof.Machine
end

section
/-! SUPPORT. When a data pin may start to drive: the one step that enables its driver is an `L_DIR` whose sample says asserted (R118,
R147). -/

namespace Sys2Proof.Machine

/-- The machine is at an `L_DIR` whose sample says asserted (R117). -/
def State.SelectsBus (s : State) : Prop := s.phase = .lDir ∧ ∃ cs, s.csL = some cs ∧ cs ≠ 0

/-- The indicator is no data pin, so that the mask of the one has no bit of the other (R18, R111). -/
theorem getLsbD_statusMask_of_dataPin {c : Config} (h : c.GeometryOk) {p : Nat} (hp : c.DataPin p) :
    (cachedMasks c).status.getLsbD p = false := by
  have other : p ≠ c.statusPin := fun e => buses_spare_controlPins h (.inr e) (.inr hp)
  rw [cachedMasks, getLsbD_bitWord, decide_eq_false other, Bool.false_and]

/-- The phases that set an enable are the last of the start-up, which sets the indicator's, and an `L_DIR` whose sample says asserted: of
a data pin, the latter alone (R115, R118). -/
theorem PhaseStep.dataPin_enabled {s t : State} (h : PhaseStep s t) (geometry : s.cfg.GeometryOk) {p : Nat} (hp : s.cfg.DataPin p)
    (on : t.oeWord.getLsbD p = true) : s.oeWord.getLsbD p = true ∨ s.SelectsBus := by
  cases h with
  | configure _ _ hu => exact .inl (configureTransaction_enabled hu on)
  | statusConfigure _ hu => exact .inl (configureTransaction_enabled hu on)
  | float | releaseBus => exact .inl (enabled_of_oeClr on)
  | statusDrive =>
    refine (enabled_of_oeSet on).imp_right fun status => ?_
    rw [getLsbD_statusMask_of_dataPin geometry hp] at status
    cases status
  | driveBus hph sampled asserted => exact .inr ⟨hph, _, sampled, bne_iff_ne.mp asserted⟩
  | _ => exact .inl on

/-- A step of a Sequencer machine is its phase's action and the records of the step, the Host's settings, or power-on (R27, R106). -/
theorem ControlInv.step_cases {s t : State} (inv : ControlInv s) (h : step s = .next t) :
    (∃ rest u, PhaseStep { s with schedule := rest } u ∧ t = { u with events := t.events, draws := t.draws }) ∨
    (∃ sets rest, t = settle (hostSet sets { s with schedule := rest })) ∨
    (∃ rest, t = powerOn { s with schedule := rest }) := by
  obtain ⟨-, ⟨-, turn⟩ | ⟨rest, -, turn⟩ | ⟨sets, rest, -, host⟩ | ⟨rest, -, reset⟩⟩ := Machine.step_cases h
  · exact .inl ⟨s.schedule, phaseStep_of_masterTurn inv turn⟩
  · exact .inl ⟨rest, phaseStep_of_masterTurn (inv.outside s.ext s.events rest s.draws) turn⟩
  · exact .inr (.inl ⟨sets, rest, host⟩)
  · exact .inr (.inr ⟨rest, reset⟩)

/-- No other step enables a data pin's driver: the Host's turn touches no enable, and power-on clears them all (R139, R146). -/
theorem ControlInv.dataPin_enabled {s t : State} (inv : ControlInv s) (h : step s = .next t) :
    t.cfg = s.cfg ∧
      ∀ p, s.cfg.DataPin p → t.oeWord.getLsbD p = true → s.oeWord.getLsbD p = true ∨ s.SelectsBus := by
  obtain ⟨rest, u, acts, e⟩ | ⟨sets, rest, rfl⟩ | ⟨rest, rfl⟩ := inv.step_cases h
  · rw [e]
    exact ⟨acts.pinsKept.cfg, fun p hp on => acts.dataPin_enabled inv.admitted.1 hp on⟩
  · exact ⟨rfl, fun _ _ on => .inl on⟩
  · refine ⟨rfl, fun p _ on => ?_⟩
    have off := (eq_zero_iff_bits _).mp (oeWord_initial s.cfg s.ext s.master) p
    cases off.symm.trans on

/-- Under the pin invariant an existing pin whose driver is not enabled does not drive, since no pin is routed to a peripheral (R39). -/
theorem BusInv.drivesAt_of_disabled {s : State} (bus : BusInv s) (n : Nat) {p : Nat} (hp : p < s.cfg.pinCount)
    (off : s.oeWord.getLsbD p = false) : s.drivesAt n p = false := by
  by_cases sio : funcsel (s.ctrlWord p) = s.cfg.fSio
  · exact drivesAt_of_oe s n p sio off
  · exact drivesAt_of_null n sio ((bus.routed p hp).resolve_left sio)

/-- Settles O57: no step but an asserted `L_DIR` enables a data pin's driver, and without it the pin does not drive. -/
theorem dataBusFloatsUntilSelected : Obligations.DataBusFloatsUntilSelected := by
  intro s t control bus run floating unselected p hp present
  obtain ⟨cfg, enabled⟩ := control.dataPin_enabled run
  have off : t.oeWord.getLsbD p = false := Bool.eq_false_iff.mpr fun on =>
    (enabled p hp on).elim (Bool.eq_false_iff.mp (floating p hp)) unselected
  exact ⟨off, fun n => (stepKeepsThePinInvariant s t control bus run).drivesAt_of_disabled n (cfg ▸ present) off⟩

end Sys2Proof.Machine
end
